-- ==== Sys2Proof/Word.lean ====
section
/-! DEFINITION. The two word types of the block (spec/00_scope.md R10): a byte is 8 bits, unsigned, and
a nibble is 4 bits; bit 0 is the least significant. Rows, columns, addresses and parameter values are
mathematical naturals (R10), so they are `Nat` and not words. -/

namespace Sys2Proof

/-- A byte, 0 to 255 (R10). -/
abbrev Byte := BitVec 8

/-- A nibble, 0 to 15 (R10). -/
abbrev Nibble := BitVec 4

end Sys2Proof
end

