-- ==== Sys2Proof/Config.lean ====
section
/-! DEFINITION. What one implementation of the block fixes: the constants of spec/00_scope.md R8 and R9,
the types of the OPEN parameters, and the free values. A free value is an `opaque` constant without a
body: nothing can be proved of it, so a claim holds whatever it is. -/

namespace Sys2Proof

/-- A Geometry value: columns, rows and the DDRAM address of column 0 of each row
(spec/41_addressing.md R151, R152). Naturals, R10. -/
structure Geometry where
  cols       : Nat
  rows       : Nat
  startAddrs : List Nat
  deriving DecidableEq, Repr, Inhabited

/-- The places of RS, RW, EN and BL in bits 3:0 of a latch byte: the parameter `LATCH_MAP`
(spec/00_scope.md R8, spec/30_encoding.md R90). -/
structure LatchMap where
  rs : Fin 4
  rw : Fin 4
  en : Fin 4
  bl : Fin 4
  deriving DecidableEq, Repr, Inhabited

/-- "The four masks must be distinct single bits in 3:0" (spec/30_encoding.md R90). -/
def LatchMap.distinct (m : LatchMap) : Bool :=
  decide (m.rs ≠ m.rw ∧ m.rs ≠ m.en ∧ m.rs ≠ m.bl ∧ m.rw ≠ m.en ∧ m.rw ≠ m.bl ∧ m.en ≠ m.bl)

/-- The default `LATCH_MAP` of R90: RS = bit 0, RW = bit 1, EN = bit 2, BL = bit 3. -/
def LatchMap.standard : LatchMap := ⟨0, 1, 2, 3⟩

/-- The OPEN parameters a running block consults (spec/00_scope.md R8). They are held in State as
constant data, so that a statement about a state holds for every value of them. -/
structure Params where
  /-- `MAX_PARAMS`, the capacity of the params array. -/
  maxParams : Nat
  /-- `REPLAY_CAP`, the capacity of the replay record in bytes. -/
  replayCap : Nat
  /-- `LATCH_MAP`. -/
  latchMap : LatchMap
  /-- The entries of `GEOMETRY_TABLE` after the four built-in ones (spec/41_addressing.md R150,
  "fixed table, extendable"). -/
  extraGeometries : List Geometry
  deriving DecidableEq, Repr

/-- The domains spec/92_eei_decisions.md gives the OPEN parameters: `MAX_PARAMS` at least 2,
`REPLAY_CAP` at least 4, four distinct bits. -/
def Params.wf (p : Params) : Bool :=
  decide (2 ≤ p.maxParams) && decide (4 ≤ p.replayCap) && p.latchMap.distinct

/-- One answer of the Bus Primitive to a bus write (spec/60_exceptions.md R240). -/
inductive BusAnswer where
  | ok
  | busError
  deriving DecidableEq, Repr, Inhabited

namespace Config

/-! ### Fixed capacities (spec/00_scope.md R8) -/

/-- `RAW_CAP`: the capacity of the raw parameter text, in bytes. -/
def rawCap : Nat := 4

/-- `TAB_WIDTH`: the columns a tab advances. -/
def tabWidth : Nat := 4

/-! ### Fixed minimum waits, in nanoseconds (spec/00_scope.md R9) -/

/-- `T_AS`: before raising enable. -/
def tAS : Nat := 40
/-- `T_PW`: before lowering enable. -/
def tPW : Nat := 230
/-- `T_H`: after lowering enable. -/
def tH : Nat := 270
/-- `T_INSTR`: after a normal instruction or a high-nibble-only write. -/
def tInstr : Nat := 37000
/-- `T_CLEAR`: after the clear-display instruction, and after return-home (R125, D7). -/
def tClear : Nat := 1640000
/-- `T_DATA`: after a data write. -/
def tData : Nat := 41000
/-- `T_BOOT1`: after the first bootstrap write. -/
def tBoot1 : Nat := 5000000
/-- `T_BOOT2`: after the second bootstrap write. -/
def tBoot2 : Nat := 100000

/-! ### Free values -/

/-- The `BUS` oracle (R8, R240): its answer to the n-th bus write since reset, where State lists no
answer. Free value (log 1). -/
opaque busDraw : Nat → BusAnswer

/-- The number of the bus write or wait, counted from reset, in which a primitive hangs, if one ever
does (spec/60_exceptions.md R248). Free value (log 2). -/
opaque hangAt : Option Nat

/-- `MAX_PARAMS` less its least value 2 (log 4). -/
opaque maxParamsAboveLeast : Nat

/-- `REPLAY_CAP` less its least value 4 (log 4). -/
opaque replayCapAboveLeast : Nat

/-- What `LATCH_MAP` is, where its four places are distinct (log 4). -/
opaque latchMapDraw : LatchMap

/-- The entries an implementation adds to `GEOMETRY_TABLE` (log 4). -/
opaque extraGeometries : List Geometry

/-- What `INITIAL_GEOMETRY` is, where it is well-formed (log 4). -/
opaque initialGeometryDraw : Geometry

/-- `RESET_BACKLIGHT` (log 4). -/
opaque resetBacklight : Bool

/-- `T_POWER_ON` in nanoseconds, a host duty the block cannot observe (spec/70_reset_and_hazards.md
R272). Free value (log 4). -/
opaque tPowerOn : Nat

/-- What a geometry's start address is for a row its list does not reach. No rule gives a value
(spec/41_addressing.md R152 defines it for rows of the geometry only), and the position invariant R24
keeps every run away from it. Free value (log 6). -/
opaque noStartAddr : Nat → Nat

/-- The OPEN parameters of the block, each free in the domain spec/92_eei_decisions.md gives it. -/
def params : Params where
  maxParams := maxParamsAboveLeast + 2
  replayCap := replayCapAboveLeast + 4
  latchMap := if latchMapDraw.distinct then latchMapDraw else LatchMap.standard
  extraGeometries := extraGeometries

end Config

/-- The parameters spec/95_test_vectors.md uses: the default `LATCH_MAP`, `MAX_PARAMS` = 2,
`REPLAY_CAP` = 16. For tests and witnesses only. -/
def Params.vectors : Params := ⟨2, 16, LatchMap.standard, []⟩

end Sys2Proof
end

