-- ==== Sys2Proof/Syntax.lean ====
section
/-! DEFINITION. The block's instructions as syntax: one constructor for each row of
spec/opcode_table.json, and the places where an instruction's words are presented (the table's
"format" column). -/

namespace Sys2Proof

/-- Which of the three 8-bit-function-set writes of the bootstrap a high-nibble-only write is
(spec/40_nibble_engine.md R130): its wait depends on it (R125). -/
inductive BootWrite where
  | first
  | second
  | third
  deriving DecidableEq, Repr

/-- A Geometry operand of the host port: an entry of `GEOMETRY_TABLE` by its number (0 to 3 are
G20x4, G20x2, G16x2 and G8x1, in the order of spec/41_addressing.md R150), or an explicit record
(spec/30_encoding.md R101). -/
inductive GeometryOperand where
  | entry  (k : Nat)
  | record (g : Geometry)
  deriving DecidableEq, Repr

/-- Where an instruction's words are presented to the block: the "format" of its opcode-table row. The
host reaches only `host` (spec/00_scope.md R5); `stream` is the input bytes of a `write`; the others
are the interfaces between the sub-blocks of R2. -/
inductive Port where
  /-- HOST_OP: the host command port (spec/30_encoding.md R100). -/
  | host
  /-- INPUT_BYTE, ESC_AWAITING_BRACKET, ESC_READING_PARAM: one input byte, classified by the parser's
  state (R81 to R83). -/
  | stream
  /-- ESC_SEQUENCE: a whole finished escape sequence (R84, R85). -/
  | sequence
  /-- HD44780_INSTR: an instruction code given to the nibble driver (R92). -/
  | instruction
  /-- HD44780_INSTR_HIGH_NIBBLE: a nibble for a high-nibble-only write (R92). -/
  | highNibble (w : BootWrite)
  /-- HD44780_DATA: a data byte given to the nibble driver (R94). -/
  | data
  /-- BUS_BYTE inside a nibble transfer: a latch byte (R90). -/
  | latch
  /-- BUS_BYTE of `setBacklight`: the backlight control byte (R91). -/
  | control
  deriving DecidableEq, Repr

/-- The block's instructions. Each constructor's docstring names its row and its rule. -/
inductive Instr where
  /-- CR, input byte 0x0D (R164). -/
  | cr
  /-- LF, input byte 0x0A (R213). -/
  | lf
  /-- ESC, input byte 0x1B outside a sequence (R180). -/
  | esc
  /-- TAB, input byte 0x09 (R162). -/
  | tab
  /-- CHAR, every other input byte (R160). -/
  | char (ch : Byte)
  /-- ESC_LBRACKET, byte 0x5B in AwaitingBracket (R183). -/
  | escLbracket
  /-- ESC_IGNORE, any other byte in AwaitingBracket (R182). -/
  | escIgnore (b : Byte)
  /-- ESC_DIGIT, a decimal digit in ReadingParam (R184). -/
  | escDigit (d : Fin 10)
  /-- ESC_SEMI, byte 0x3B in ReadingParam (R185). -/
  | escSemi
  /-- ESC_FINAL, any other byte in ReadingParam (R187). -/
  | escFinal (b : Byte)
  /-- ED2, a finished sequence that clears the screen (R188). -/
  | ed2
  /-- CUP, a finished sequence that moves the cursor (R189). -/
  | cup (row col : Nat)
  /-- ESC_NOOP, a finished sequence with no effect, with its bytes (R190). -/
  | escNoop (bytes : List Byte)
  /-- LATCH, one latch byte; RW is always 0 (R90). -/
  | latch (d : Nibble) (bl en rs : Bool)
  /-- BACKLIGHT_CTL, the backlight control byte (R91). -/
  | backlightCtl (b : Bool)
  /-- CLEAR, code 0x01 (R165). -/
  | clear
  /-- HOME, code 0x02 (R188). -/
  | home
  /-- ENTRY_INC, code 0x06 (R130). -/
  | entryInc
  /-- DISPLAY_CTRL, code 0x0C | C<<1 | B (R129). -/
  | displayCtrl (c b : Bool)
  /-- FSET_8BIT_HNO, the high nibble of 0x30 only (R124). -/
  | fset8BitHno (w : BootWrite)
  /-- FSET_4BIT_HNO, the high nibble of 0x20 only (R124). -/
  | fset4BitHno
  /-- FSET_4BIT_2LINE, code 0x28 (R130). -/
  | fset4Bit2Line
  /-- SET_DDRAM, code 0x80 | a (R153). -/
  | setDdram (a : BitVec 7)
  /-- DATA, a data byte (R123). -/
  | data (v : Byte)
  /-- initializeDisplay, selector 0x0 (R130). -/
  | initializeDisplay
  /-- write(bytes, len) with len the length of bytes, selector 0x1 (R210). -/
  | write (buf : List Byte)
  /-- print(s), selector 0x2 (R216). -/
  | print (s : List Byte)
  /-- setGeometry(g), selector 0x3 (R220). -/
  | setGeometry (g : GeometryOperand)
  /-- setBacklight(b), selector 0x4 (R222); the operand word may be no bit (R102). -/
  | setBacklight (b : Byte)
  /-- setCursorBlink(b), selector 0x5 (R223). -/
  | setCursorBlink (b : Byte)
  /-- setCursorDisplay(b), selector 0x6 (R224). -/
  | setCursorDisplay (b : Byte)
  /-- flush(), selector 0x7 (R226). -/
  | flush
  /-- HOST_RESERVED, selector 8 + k (R102). -/
  | hostReserved (k : BitVec 3)
  deriving DecidableEq, Repr

end Sys2Proof
end

