-- ==== Sys2Proof/Machine/Operands.lean ====
section
/-! DEFINITION. The operand forms of the block and the pure functions over them: character codes,
nibbles, latch bytes, instruction codes, geometries, parameter text, host operands. No function here
reads or writes the session. -/

namespace Sys2Proof.Machine

open Sys2Proof

/-! ### Character codes (spec/30_encoding.md R80) -/

/-- TAB. -/
def chTab : Byte := 0x09
/-- LF. -/
def chLf : Byte := 0x0A
/-- CR. -/
def chCr : Byte := 0x0D
/-- ESC. -/
def chEsc : Byte := 0x1B
/-- SPACE. -/
def chSpace : Byte := 0x20
/-- The digit 0; the digits are 0x30 to 0x39. -/
def chZero : Byte := 0x30
/-- SEMI. -/
def chSemi : Byte := 0x3B
/-- CMD_H. -/
def chH : Byte := 0x48
/-- CMD_J. -/
def chJ : Byte := 0x4A
/-- LBRACKET. -/
def chLbracket : Byte := 0x5B

/-- Whether a byte is one of the characters 0 to 9 (R83). -/
def isDigit (b : Byte) : Bool := decide (0x30 ≤ b.toNat) && decide (b.toNat ≤ 0x39)

/-- The byte of a decimal digit. -/
def digitByte (d : Fin 10) : Byte := BitVec.ofNat 8 (0x30 + d.val)

/-! ### Nibbles and latch bytes (spec/30_encoding.md R90) -/

/-- `v[7:4]` (spec/00_scope.md R10). -/
def highNibble (v : Byte) : Nibble := v.extractLsb' 4 4

/-- `v[3:0]`. -/
def lowNibble (v : Byte) : Nibble := v.extractLsb' 0 4

/-- The mask of one of the places 3:0 of a latch byte. -/
def bitMask (p : Fin 4) : Byte := 1#8 <<< p.val

/-- The mask if the bit is set, 0 if not. -/
def maskIf (p : Fin 4) (b : Bool) : Byte := if b then bitMask p else 0

/-- A latch byte from its fields. RW is always 0, "write" (R90, R120). -/
def latchByte (m : LatchMap) (n : Nibble) (bl en rs : Bool) : Byte :=
  (n.setWidth 8 <<< 4) ||| maskIf m.rs rs ||| maskIf m.en en ||| maskIf m.bl bl

/-- The backlight control byte (spec/30_encoding.md R91). -/
def backlightByte (m : LatchMap) (b : Bool) : Byte := maskIf m.bl b

/-! ### Instruction codes (spec/30_encoding.md R92, R93) -/

/-- CLEAR. -/
def codeClear : Byte := 0x01
/-- HOME. -/
def codeHome : Byte := 0x02
/-- ENTRY_INC. -/
def codeEntryInc : Byte := 0x06
/-- FSET_8BIT, of which only the high nibble is sent. -/
def codeFset8Bit : Byte := 0x30
/-- FSET_4BIT, of which only the high nibble is sent. -/
def codeFset4Bit : Byte := 0x20
/-- FSET_4BIT_2LINE. -/
def codeFset4Bit2Line : Byte := 0x28

/-- SET_DDRAM: `0x80 | a` with a in bits 6:0 (R93). -/
def codeSetDdram (a : BitVec 7) : Byte := 0x80#8 ||| a.setWidth 8

/-- The wait after each of the three bootstrap writes (spec/40_nibble_engine.md R125). -/
def bootWait : BootWrite → Nat
  | .first => Config.tBoot1
  | .second => Config.tBoot2
  | .third => Config.tInstr

/-! ### Geometries (spec/41_addressing.md R150 to R152) -/

/-- `G20x4`. -/
def g20x4 : Geometry := ⟨20, 4, [0x00, 0x40, 0x14, 0x54]⟩
/-- `G20x2`, with its four start addresses as the spec writes them (spec/90_conflicts.md C1). -/
def g20x2 : Geometry := ⟨20, 2, [0x00, 0x40, 0x00, 0x54]⟩
/-- `G16x2`. -/
def g16x2 : Geometry := ⟨16, 2, [0x00, 0x40]⟩
/-- `G8x1`. -/
def g8x1 : Geometry := ⟨8, 1, [0x00]⟩

/-- `GEOMETRY_TABLE`: the four built-in entries in order, then the implementation's (R150). -/
def geometryTable (p : Params) : List Geometry :=
  [g20x4, g20x2, g16x2, g8x1] ++ p.extraGeometries

/-- `Geom(r)` for a geometry g: the DDRAM address of column 0 of row r (R152). -/
def startAddr (g : Geometry) (r : Nat) : Nat := g.startAddrs[r]?.getD (Config.noStartAddr r)

/-- The geometry is well-formed: (a) cols ≥ 1, (b) rows ≥ 1, (c) a start address for each row,
(d) every address of a row within 0x00 to 0x7F (R151). -/
def geometryWf (g : Geometry) : Bool :=
  decide (1 ≤ g.cols) && decide (1 ≤ g.rows) && decide (g.rows ≤ g.startAddrs.length)
    && (g.startAddrs.take g.rows).all (fun a => decide (a + g.cols - 1 ≤ 0x7F))

/-- The geometry a host operand names, if it names a well-formed one; "An ill-formed Geometry is
refused" (R151, spec/30_encoding.md R102). -/
def resolveGeometry (p : Params) : GeometryOperand → Option Geometry
  | .entry k => ((geometryTable p)[k]?).filter geometryWf
  | .record g => if geometryWf g then some g else none

/-- `INITIAL_GEOMETRY`: any well-formed Geometry (spec/00_scope.md R8; log 4). -/
def initialGeometry : Geometry :=
  if geometryWf Config.initialGeometryDraw then Config.initialGeometryDraw else g20x4

/-- The one-step clamp of `setCursor`: the row and column it writes for requested ones (R161). -/
def clampCursor (g : Geometry) (r c : Nat) : Nat × Nat :=
  let rc := if g.cols ≤ c then (r + 1, 0) else (r, c)
  if g.rows ≤ rc.1 then (0, rc.2) else rc

/-! ### Parameter text (spec/42_escape_parser.md R186) -/

/-- The value of digit text in a base, the first digit the most significant. -/
def digitsValue (base : Nat) (t : List Byte) : Nat :=
  t.foldl (fun v b => v * base + (b.toNat - 0x30)) 0

/-- `ParseParam`: a leading 0 with more digits is octal, any other text decimal; no value for the
empty text and for octal text with an 8 or a 9 (R186). -/
def parseParam : List Byte → Option Nat
  | [] => none
  | d :: t =>
    if d = chZero ∧ t ≠ [] then
      if t.all (fun b => decide (b.toNat ≤ 0x37)) then some (digitsValue 8 t) else none
    else some (digitsValue 10 (d :: t))

/-! ### Host operands (spec/30_encoding.md R101, R102) -/

/-- A bit operand is 0 or 1; any other word is none (R101, R102). -/
def bitOperand (b : Byte) : Option Bool :=
  if b = 0 then some false else if b = 1 then some true else none

/-- The bytes of a `print` operand before its first 0x00, if it has one (spec/43_dispatcher.md
R216). -/
def beforeNul : List Byte → Option (List Byte)
  | [] => none
  | b :: s => if b = 0 then some [] else (beforeNul s).map (b :: ·)

end Sys2Proof.Machine
end

