-- ==== Sys2Proof/Machine/Parser.lean ====
section
/-! DEFINITION. The escape-sequence buffer as data and the parser's pure steps over it
(spec/42_escape_parser.md). The buffer groups the six fields spec/10_state.md R32 groups. What a
finished sequence does to the display is in Machine/Ops.lean. -/

namespace Sys2Proof.Machine

open Sys2Proof

/-- The parser's sub-state (spec/10_state.md R26). -/
inductive EscState where
  | awaitingBracket
  | readingParam
  deriving DecidableEq, Repr

/-- The escape-sequence buffer (spec/10_state.md R26 to R32). -/
structure EscBuffer where
  /-- `esc_state` (R26). -/
  state : EscState
  /-- `raw`, the digit text of the parameter being read (R27). -/
  raw : List Byte
  /-- `params`, the array of `MAX_PARAMS` parameters (R28). -/
  params : List Nat
  /-- `param_count` (R29). -/
  paramCount : Nat
  /-- `error`, the sticky parse-error flag (R30). -/
  error : Bool
  /-- `replay`, the recorded bytes of the unfinished sequence (R31). -/
  replay : List Byte
  deriving DecidableEq, Repr

/-- `EscReset`: the buffer with every field at its reset value, for a capacity of n parameters
(spec/42_escape_parser.md R181). -/
def escFresh (n : Nat) : EscBuffer := ⟨.awaitingBracket, [], List.replicate n 0, 0, false, []⟩

/-- `ReplayAppend`: record a byte if there is room (R191). -/
def replayAppend (cap : Nat) (b : Byte) (e : EscBuffer) : EscBuffer :=
  if e.replay.length < cap then { e with replay := e.replay ++ [b] } else e

/-- `FinalizeParam`: parse `raw` and store the value, or set `error`; `raw` is emptied (R186). -/
def finalizeParam (n : Nat) (e : EscBuffer) : EscBuffer :=
  match parseParam e.raw with
  | none => { e with error := true, raw := [] }
  | some v =>
    if e.paramCount < n then
      { e with params := e.params.set e.paramCount v, paramCount := e.paramCount + 1, raw := [] }
    else { e with error := true, raw := [] }

/-- A '[' in AwaitingBracket (R183). -/
def bracketStep (p : Params) (e : EscBuffer) : EscBuffer :=
  replayAppend p.replayCap chLbracket { e with state := .readingParam }

/-- A digit in ReadingParam (R184). -/
def digitStep (p : Params) (b : Byte) (e : EscBuffer) : EscBuffer :=
  let e := replayAppend p.replayCap b e
  if e.raw.length < Config.rawCap then { e with raw := e.raw ++ [b] } else { e with error := true }

/-- A ';' in ReadingParam (R185). -/
def semiStep (p : Params) (e : EscBuffer) : EscBuffer :=
  finalizeParam p.maxParams (replayAppend p.replayCap chSemi e)

/-- What a finished sequence asks for (spec/30_encoding.md R85). -/
inductive Command where
  | ed2
  | cup (row col : Nat)
  | noop
  deriving DecidableEq, Repr

/-- The buffer as the FINAL byte finds it: the pending parameter finalized if `raw` is non-empty
(spec/42_escape_parser.md R187). -/
def finalBuffer (n : Nat) (e : EscBuffer) : EscBuffer := if e.raw = [] then e else finalizeParam n e

/-- The command a FINAL byte selects, by the state the parser has built up (R187 to R190). -/
def commandOf (e : EscBuffer) (b : Byte) : Command :=
  if e.error then .noop
  else if b = chJ ∧ e.paramCount = 1 ∧ e.params.getD 0 0 = 2 then .ed2
  else if b = chH ∧ e.paramCount = 2 then .cup (e.params.getD 0 0) (e.params.getD 1 0)
  else .noop

/-! ### Recognising a whole sequence (spec/30_encoding.md R84)

The length of a sequence is found only by running the parser over it. The result does not depend on
`MAX_PARAMS` or `REPLAY_CAP` (spec/42_escape_parser.md R194, R195), so the least values are used. -/

/-- The least values of the two capacities. -/
def leastParams : Params := ⟨2, 4, LatchMap.standard, []⟩

/-- ReadingParam over the rest of a sequence: the buffer and the FINAL byte, if the FINAL byte is the
last byte. -/
def scanParams (e : EscBuffer) : List Byte → Option (EscBuffer × Byte)
  | [] => none
  | b :: rest =>
    if isDigit b then scanParams (digitStep leastParams b e) rest
    else if b = chSemi then scanParams (semiStep leastParams e) rest
    else if rest = [] then some (e, b) else none

/-- AwaitingBracket over the rest of a sequence: every byte before the first '[' is ignored (R182). -/
def scanBracket (e : EscBuffer) : List Byte → Option (EscBuffer × Byte)
  | [] => none
  | b :: rest => if b = chLbracket then scanParams (bracketStep leastParams e) rest else scanBracket e rest

/-- The command of a finished sequence given by its bytes, from its ESC to its FINAL byte; none if the
bytes are no finished sequence. -/
def recognise : List Byte → Option Command
  | [] => none
  | b :: rest =>
    if b = chEsc then
      (scanBracket (escFresh leastParams.maxParams) rest).map
        (fun r => commandOf (finalBuffer leastParams.maxParams r.1) r.2)
    else none

end Sys2Proof.Machine
end

