-- ==== Sys2Proof/WellFormed.lean ====
section
/-! DEFINITION. Which instruction terms the encodings of spec/30_encoding.md admit. The check is a Bool,
so `decide` runs it. A geometry operand is checked against the block's parameters, because
`GEOMETRY_TABLE` is one of them. -/

namespace Sys2Proof

open Machine

/-- The instruction is well-formed for a block with parameters p. -/
def Instr.wf (p : Params) : Instr → Bool
  | .cr | .lf | .esc | .tab => true
  /- R81: CHAR is every byte that is not CR, LF, ESC or TAB. -/
  | .char ch => decide (ch ≠ chCr ∧ ch ≠ chLf ∧ ch ≠ chEsc ∧ ch ≠ chTab)
  | .escLbracket => true
  /- R82: every byte but '['. -/
  | .escIgnore b => decide (b ≠ chLbracket)
  | .escDigit _ | .escSemi => true
  /- R83: neither a digit nor ';'. -/
  | .escFinal b => !isDigit b && decide (b ≠ chSemi)
  | .ed2 => true
  /- R28, R86: a parameter has at most four decimal digits. -/
  | .cup r c => decide (r ≤ 9999) && decide (c ≤ 9999)
  /- R190: a finished sequence that is neither ED2 nor CUP. -/
  | .escNoop bytes => recognise bytes == some .noop
  | .latch _ _ _ _ | .backlightCtl _ | .clear | .home | .entryInc | .displayCtrl _ _ => true
  | .fset8BitHno _ | .fset4BitHno | .fset4Bit2Line | .setDdram _ | .data _ => true
  | .initializeDisplay | .write _ | .flush => true
  /- R216: the operand has an end. -/
  | .print s => (beforeNul s).isSome
  /- R102, R151: the operand names a well-formed Geometry. -/
  | .setGeometry g => (resolveGeometry p g).isSome
  /- R101, R102: the operand is a bit. -/
  | .setBacklight b | .setCursorBlink b | .setCursorDisplay b => (bitOperand b).isSome
  | .hostReserved _ => true

end Sys2Proof
end

