-- ==== Sys2Proof/Decode.lean ====
section
/-! DEFINITION. The decoder, total on any words, and after it the encoder, both from the encodings of
spec/30_encoding.md. A word is a natural number: a byte at the ports that take bytes, and a natural of
any size where the host gives one (the length of a `write`, the fields of a Geometry record).

The block has several encoded interfaces and the same byte means different things at different ones, so
the decoder is given its context: the port the words stand at and, from the session, the parser's state
(R81 to R83) and the three bits that latch bytes and display-control codes copy (R90, R92). -/

namespace Sys2Proof

open Machine

/-- What the decoder needs to know beside the words. -/
structure Context where
  port : Port
  /-- none while `in_escape` is false; the parser's sub-state while it is true. -/
  parser : Option EscState
  backlight : Bool
  cursorVisible : Bool
  cursorBlink : Bool
  map : LatchMap
  deriving DecidableEq, Repr

/-- Why words are no instruction at their port. -/
inductive DecodeError where
  /-- There is no word, or fewer operand words than the operation takes. -/
  | tooFewWords
  /-- There are more words than the instruction takes. -/
  | tooManyWords
  /-- A word that must be a byte is 256 or more. -/
  | notAByte
  /-- A word that must be a nibble is 16 or more. -/
  | notANibble
  /-- A selector word is 16 or more: the selector field is 4 bits (R100). -/
  | notASelector
  /-- The word before a Geometry operand is neither 0 (table entry) nor 1 (record). -/
  | badGeometryForm
  /-- The bytes are not one finished escape sequence (R84). -/
  | notASequence
  /-- The code is none of the closed list of R92 (R95). -/
  | notACode
  /-- The latch byte has RW set; "read/write bit always 'write'" (R90). -/
  | readBitSet
  /-- The BL bit differs from the session's backlight (R90, R91). -/
  | backlightDiffers
  /-- The C and B bits differ from the session's cursor flags (R92). -/
  | cursorFlagsDiffer
  deriving DecidableEq, Repr

/-- The decoder's answer. -/
inductive Decoded where
  | instr (i : Instr)
  | bad (e : DecodeError)
  deriving DecidableEq, Repr

/-- The instruction, if there is one. -/
def Decoded.toOption : Decoded → Option Instr
  | .instr i => some i
  | .bad _ => none

/-- A word as a byte. -/
def byteOf (w : Nat) : Option Byte := if w < 256 then some (BitVec.ofNat 8 w) else none

/-- Words as bytes, if every one is a byte. -/
def bytesOf : List Nat → Option (List Byte)
  | [] => some []
  | w :: ws =>
    match byteOf w, bytesOf ws with
    | some b, some bs => some (b :: bs)
    | _, _ => none

/-- The class of an input byte in a parser state (R81, R82, R83). -/
def decodeStream (parser : Option EscState) (b : Byte) : Instr :=
  match parser with
  | none =>
    if b = chCr then .cr
    else if b = chLf then .lf
    else if b = chEsc then .esc
    else if b = chTab then .tab
    else .char b
  | some .awaitingBracket => if b = chLbracket then .escLbracket else .escIgnore b
  | some .readingParam =>
    if h : 0x30 ≤ b.toNat ∧ b.toNat ≤ 0x39 then .escDigit ⟨b.toNat - 0x30, by omega⟩
    else if b = chSemi then .escSemi
    else .escFinal b

/-- A whole escape sequence (R84, R85). -/
def decodeSequence (bytes : List Byte) : Decoded :=
  match recognise bytes with
  | none => .bad .notASequence
  | some .ed2 => .instr .ed2
  | some (.cup r c) => .instr (.cup r c)
  | some .noop => .instr (.escNoop bytes)

/-- An instruction code (R92, R93); the list is closed (R95). -/
def decodeCode (ctx : Context) (v : Byte) : Decoded :=
  if v = codeClear then .instr .clear
  else if v = codeHome then .instr .home
  else if v = codeEntryInc then .instr .entryInc
  else if v.extractLsb' 2 6 = 0b000011#6 then
    if v.getLsbD 1 = ctx.cursorVisible ∧ v.getLsbD 0 = ctx.cursorBlink then
      .instr (.displayCtrl (v.getLsbD 1) (v.getLsbD 0))
    else .bad .cursorFlagsDiffer
  else if v = codeFset4Bit2Line then .instr .fset4Bit2Line
  else if v.getLsbD 7 then .instr (.setDdram (v.extractLsb' 0 7))
  else .bad .notACode

/-- The nibble of a high-nibble-only write (R92). -/
def decodeHighNibble (w : BootWrite) (n : Nat) : Decoded :=
  if 16 ≤ n then .bad .notANibble
  else if n = 0b0011 then .instr (.fset8BitHno w)
  else if n = 0b0010 then .instr .fset4BitHno
  else .bad .notACode

/-- A latch byte of a nibble transfer (R90). -/
def decodeLatch (ctx : Context) (b : Byte) : Decoded :=
  if b.getLsbD ctx.map.rw then .bad .readBitSet
  else if b.getLsbD ctx.map.bl ≠ ctx.backlight then .bad .backlightDiffers
  else .instr (.latch (highNibble b) (b.getLsbD ctx.map.bl) (b.getLsbD ctx.map.en)
    (b.getLsbD ctx.map.rs))

/-- A backlight control byte: "All other bits are 0" (R91). -/
def decodeControl (ctx : Context) (b : Byte) : Decoded :=
  if b = backlightByte ctx.map ctx.backlight then .instr (.backlightCtl ctx.backlight)
  else if b = backlightByte ctx.map (!ctx.backlight) then .bad .backlightDiffers
  else .bad .notACode

/-- The Geometry operand of the host port: `0, k` for entry k of the table, `1, cols, rows, n` and n
start addresses for a record (R101; the words are the model's, log 7). -/
def decodeGeometry : List Nat → Decoded
  | [0, k] => .instr (.setGeometry (.entry k))
  | 0 :: _ :: _ :: _ => .bad .tooManyWords
  | 1 :: cols :: rows :: n :: addrs =>
    if addrs.length = n then .instr (.setGeometry (.record ⟨cols, rows, addrs⟩))
    else if addrs.length < n then .bad .tooFewWords
    else .bad .tooManyWords
  | [] | [0] | [1] | [1, _] | [1, _, _] => .bad .tooFewWords
  | _ => .bad .badGeometryForm

/-- A one-byte operand, made into an instruction. -/
def decodeByteOperand (f : Byte → Instr) : List Nat → Decoded
  | [] => .bad .tooFewWords
  | [w] =>
    match byteOf w with
    | some b => .instr (f b)
    | none => .bad .notAByte
  | _ => .bad .tooManyWords

/-- An instruction that takes no operand word. -/
def decodeNoOperand (i : Instr) : List Nat → Decoded
  | [] => .instr i
  | _ => .bad .tooManyWords

/-- The operand of `write`: the length, then that many bytes (R100, R101). -/
def decodeWrite : List Nat → Decoded
  | [] => .bad .tooFewWords
  | n :: ws =>
    if ws.length < n then .bad .tooFewWords
    else if n < ws.length then .bad .tooManyWords
    else
      match bytesOf ws with
      | some bs => .instr (.write bs)
      | none => .bad .notAByte

/-- The operand of `print`: its bytes (R100). -/
def decodePrint (ws : List Nat) : Decoded :=
  match bytesOf ws with
  | some bs => .instr (.print bs)
  | none => .bad .notAByte

/-- A host operation: the selector, then its operands (R100). Selectors 8 to 15 are reserved whatever
follows (R102). -/
def decodeHost : List Nat → Decoded
  | [] => .bad .tooFewWords
  | sel :: ws =>
    match sel with
    | 0 => decodeNoOperand .initializeDisplay ws
    | 1 => decodeWrite ws
    | 2 => decodePrint ws
    | 3 => decodeGeometry ws
    | 4 => decodeByteOperand .setBacklight ws
    | 5 => decodeByteOperand .setCursorBlink ws
    | 6 => decodeByteOperand .setCursorDisplay ws
    | 7 => decodeNoOperand .flush ws
    | k + 8 => if k < 8 then .instr (.hostReserved (BitVec.ofNat 3 k)) else .bad .notASelector

/-- One byte, given to a decoder of bytes. -/
def decodeOneByte (f : Byte → Decoded) : List Nat → Decoded
  | [] => .bad .tooFewWords
  | [w] =>
    match byteOf w with
    | some b => f b
    | none => .bad .notAByte
  | _ => .bad .tooManyWords

/-- The decoder. At the sequence port a whole sequence is read whatever the parser's state: the model's choice
(DESIGN CHOICE, log 17). -/
def decode (ctx : Context) (ws : List Nat) : Decoded :=
  match ctx.port with
  | .host => decodeHost ws
  | .stream => decodeOneByte (fun b => .instr (decodeStream ctx.parser b)) ws
  | .sequence =>
    match bytesOf ws with
    | some bs => decodeSequence bs
    | none => .bad .notAByte
  | .instruction => decodeOneByte (decodeCode ctx) ws
  | .highNibble w =>
    match ws with
    | [] => .bad .tooFewWords
    | [n] => decodeHighNibble w n
    | _ => .bad .tooManyWords
  | .data => decodeOneByte (fun b => .instr (.data b)) ws
  | .latch => decodeOneByte (decodeLatch ctx) ws
  | .control => decodeOneByte (decodeControl ctx) ws

/-! ### The encoder -/

/-- The port an instruction's words stand at: its row's format. -/
def Instr.port : Instr → Port
  | .cr | .lf | .esc | .tab | .char _ => .stream
  | .escLbracket | .escIgnore _ | .escDigit _ | .escSemi | .escFinal _ => .stream
  | .ed2 | .cup _ _ | .escNoop _ => .sequence
  | .latch _ _ _ _ => .latch
  | .backlightCtl _ => .control
  | .clear | .home | .entryInc | .displayCtrl _ _ | .fset4Bit2Line | .setDdram _ => .instruction
  | .fset8BitHno w => .highNibble w
  | .fset4BitHno => .highNibble .third
  | .data _ => .data
  | .initializeDisplay | .write _ | .print _ | .setGeometry _ | .setBacklight _
  | .setCursorBlink _ | .setCursorDisplay _ | .flush | .hostReserved _ => .host

/-- The decimal digits of a parameter, as text with no leading 0 (spec/42_escape_parser.md R186); for
0 to 9999. -/
def decimalText (n : Nat) : List Byte :=
  let d (k : Nat) : Byte := BitVec.ofNat 8 (0x30 + k % 10)
  if n < 10 then [d n]
  else if n < 100 then [d (n / 10), d n]
  else if n < 1000 then [d (n / 100), d (n / 10), d n]
  else [d (n / 1000), d (n / 100), d (n / 10), d n]

/-- The canonical spelling of ED2: `ESC[2J` (R85). -/
def ed2Bytes : List Byte := [chEsc, chLbracket, 0x32, chJ]

/-- The canonical spelling of CUP: `ESC[row;colH` (R85). -/
def cupBytes (r c : Nat) : List Byte :=
  [chEsc, chLbracket] ++ decimalText r ++ [chSemi] ++ decimalText c ++ [chH]

/-- Bytes as words. -/
def wordsOf (bs : List Byte) : List Nat := bs.map BitVec.toNat

/-- The operand words of a Geometry (log 7). -/
def encodeGeometry : GeometryOperand → List Nat
  | .entry k => [0, k]
  | .record g => [1, g.cols, g.rows, g.startAddrs.length] ++ g.startAddrs

/-- The code of an 8-bit instruction with the given flags (R92). -/
def displayCode (c b : Bool) : Byte :=
  0x0C#8 ||| (if c then 0x02#8 else 0) ||| (if b then 0x01#8 else 0)

/-- The words of an instruction at its port, for a block whose `LATCH_MAP` is m. -/
def encode (m : LatchMap) : Instr → List Nat
  | .cr => wordsOf [chCr]
  | .lf => wordsOf [chLf]
  | .esc => wordsOf [chEsc]
  | .tab => wordsOf [chTab]
  | .char ch => wordsOf [ch]
  | .escLbracket => wordsOf [chLbracket]
  | .escIgnore b => wordsOf [b]
  | .escDigit d => wordsOf [digitByte d]
  | .escSemi => wordsOf [chSemi]
  | .escFinal b => wordsOf [b]
  | .ed2 => wordsOf ed2Bytes
  | .cup r c => wordsOf (cupBytes r c)
  | .escNoop bytes => wordsOf bytes
  | .latch d bl en rs => wordsOf [latchByte m d bl en rs]
  | .backlightCtl b => wordsOf [backlightByte m b]
  | .clear => wordsOf [codeClear]
  | .home => wordsOf [codeHome]
  | .entryInc => wordsOf [codeEntryInc]
  | .displayCtrl c b => wordsOf [displayCode c b]
  | .fset8BitHno _ => [(highNibble codeFset8Bit).toNat]
  | .fset4BitHno => [(highNibble codeFset4Bit).toNat]
  | .fset4Bit2Line => wordsOf [codeFset4Bit2Line]
  | .setDdram a => wordsOf [codeSetDdram a]
  | .data v => wordsOf [v]
  | .initializeDisplay => [0]
  | .write buf => 1 :: buf.length :: wordsOf buf
  | .print s => 2 :: wordsOf s
  | .setGeometry g => 3 :: encodeGeometry g
  | .setBacklight b => 4 :: wordsOf [b]
  | .setCursorBlink b => 5 :: wordsOf [b]
  | .setCursorDisplay b => 6 :: wordsOf [b]
  | .flush => [7]
  | .hostReserved k => [8 + k.toNat]

/-- The context is one in which the instruction's words stand for it: its port, and for the rows whose
class or field copies session state, that state (R81 to R83, R90 to R92). -/
def Context.fits (ctx : Context) : Instr → Bool
  | .cr | .lf | .esc | .tab | .char _ => ctx.port == .stream && ctx.parser == none
  | .escLbracket | .escIgnore _ => ctx.port == .stream && ctx.parser == some .awaitingBracket
  | .escDigit _ | .escSemi | .escFinal _ => ctx.port == .stream && ctx.parser == some .readingParam
  | .latch _ bl _ _ => ctx.port == .latch && ctx.backlight == bl && ctx.map.distinct
  | .backlightCtl b => ctx.port == .control && ctx.backlight == b
  | .displayCtrl c b => ctx.port == .instruction && ctx.cursorVisible == c && ctx.cursorBlink == b
  | .fset4BitHno => ctx.port == .highNibble .first || ctx.port == .highNibble .second
      || ctx.port == .highNibble .third
  | i => ctx.port == i.port

/-! ### The opcode table's words

spec/opcode_table.json gives words without saying at which interface they stand, and some of its rows
have the same word (selector 1 and CLEAR, for instance). The order below settles which row a bare word
is read as (log 8). -/

/-- The words of a host operation whose operand words are all 0. -/
def zeroOperands (sel : Nat) : List Nat :=
  match sel with
  | 1 | 2 | 4 | 5 | 6 => [sel, 0]
  | 3 => [3, 0, 0]
  | k => [k]

/-- The bytes of a word of n bytes, the first byte the least significant. -/
def tableBytes : Nat → Nat → List Nat
  | 0, _ => []
  | n + 1, w => (w % 256) :: tableBytes n (w / 256)

/-- Where a bare word of the opcode table stands, and the words the decoder is given: of up to 4 bits,
a host selector; of up to 8 bits, a host selector if it is one of 0 to 8, else the input byte or
instruction code whose row fixes it, else a character; longer, an escape sequence. -/
def tableRequest (nbits w : Nat) : Port × Option EscState × List Nat :=
  if nbits ≤ 4 ∨ (nbits ≤ 8 ∧ w ≤ 8) then (.host, none, zeroOperands w)
  else if nbits ≤ 8 then
    if w = 0x5B then (.stream, some .awaitingBracket, [w])
    else if (0x30 ≤ w ∧ w ≤ 0x39) ∨ w = 0x3B then (.stream, some .readingParam, [w])
    else if w = 0x0C ∨ w = 0x0E ∨ w = 0x0F ∨ w = 0x28 ∨ 0x80 ≤ w then (.instruction, none, [w])
    else (.stream, none, [w])
  else (.sequence, none, tableBytes (nbits / 8) w)

/-- The context in which a bare word of the opcode table is read: the session bits a field copies are
as the word has them. -/
def tableContext (nbits w : Nat) : Context where
  port := (tableRequest nbits w).1
  parser := (tableRequest nbits w).2.1
  backlight := true
  cursorVisible := w.testBit 1
  cursorBlink := w.testBit 0
  map := LatchMap.standard

/-- The instruction the decoder reads from a bare word of the opcode table (log 8). -/
def decodeTableWord (nbits w : Nat) : Option Instr :=
  (decode (tableContext nbits w) (tableRequest nbits w).2.2).toOption

end Sys2Proof
end

