-- ==== Sys2Proof/Machine/State.lean ====
section
/-! DEFINITION. The state of the block as plain data (spec/10_state.md), what the model observes and
what its environment decides, the reasons a step can stop, and the state after reset
(spec/70_reset_and_hazards.md R270). -/

namespace Sys2Proof.Machine

open Sys2Proof

/-- One event of the observable trace (spec/00_scope.md R6): `W(b)` or `D(t)`, t in nanoseconds. -/
inductive Event where
  | write (b : Byte)
  | delay (t : Nat)
  deriving DecidableEq, Repr

/-- The output side: the trace the model observes, and the answers of the Bus Primitive and the timing
primitive, which the block does not control (R5 (b), (c), R8 `BUS`, spec/60_exceptions.md R248). These
are the model's fields, not registers of the block. -/
structure Wire where
  /-- The trace since reset, oldest event first (R6, R67). -/
  trace : List Event
  /-- The answers already fixed for the coming bus writes, next first. Where none is listed the answer
  is the free value `Config.busDraw` (log 1). -/
  answers : List BusAnswer
  /-- How many bus writes there were since reset: the counter `Config.busDraw` is applied to. -/
  writes : Nat
  /-- The number, counted from 0 at reset, of the event in which a primitive hangs, if one ever does
  (R248, log 2). -/
  hangAt : Option Nat
  /-- A primitive has hung, and the block with it (R248). -/
  hung : Bool
  deriving DecidableEq, Repr

/-- The byte loop of a `write` in progress: its buffer and the index of the byte to be dispatched next
(spec/10_state.md R40, spec/43_dispatcher.md R210). -/
structure WriteLoop where
  buf : List Byte
  index : Nat
  deriving DecidableEq, Repr

/-- The result code a host operation returns (spec/60_exceptions.md R244): `Ok` (0) or `BusError` (1). -/
inductive ResultCode where
  | ok
  | busError
  deriving DecidableEq, Repr

/-- A request waiting to be run: words presented at a port. The host can make requests at the host port
only (R5 (a)); the other ports are the interfaces between the sub-blocks (log 5). -/
structure Request where
  port : Port
  words : List Nat
  deriving DecidableEq, Repr

/-- The state. The first fifteen registers, `esc` holding six of them, are the session record of
spec/10_state.md R20. -/
structure State where
  /-- The active Geometry (R21). -/
  geometry : Geometry
  /-- The cursor row (R22). -/
  row : Nat
  /-- The cursor column (R23). -/
  col : Nat
  /-- `in_escape` (R25). -/
  inEscape : Bool
  /-- The escape buffer: `esc_state`, `raw`, `params`, `param_count`, `error`, `replay` (R26 to R32). -/
  esc : EscBuffer
  /-- The deferred-clear flag (R33). -/
  dirty : Bool
  /-- `newline_pending` (R34). -/
  newlinePending : Bool
  /-- The backlight control bit (R35). -/
  backlight : Bool
  /-- `cursor_visible` (R36). -/
  cursorVisible : Bool
  /-- `cursor_blink` (R37). -/
  cursorBlink : Bool
  /-- The byte loop in progress, if one is (R40). -/
  running : Option WriteLoop
  /-- The OPEN parameters; never written (R8). -/
  cfg : Params
  /-- The output side (R6). -/
  wire : Wire
  /-- The result code of the last host operation that returned, none before the first (R244). -/
  result : Option ResultCode
  /-- The requests waiting, next first (R5 (a)). -/
  inbox : List Request
  deriving DecidableEq, Repr

/-- Why the block can take no further step. -/
inductive Fault where
  /-- Raised by `step` on a state in which a primitive has hung: "a hang there hangs the driver"
  (spec/60_exceptions.md R248; spec/93_implementation_defined.md U9 `stuck`). Safe: the model stops where
  the hardware stops. -/
  | blockHung
  deriving DecidableEq, Repr

/-- Why a request has no meaning. A refused request changes no state and has no result code
(spec/30_encoding.md R102, spec/60_exceptions.md R244). -/
inductive Refusal where
  /-- Raised by `exec` for an instruction that has no meaning yet. Safe. -/
  | notModelled (mnemonic : String)
  /-- Raised by HOST_RESERVED: selectors 0x8 to 0xF (R102). Safe. -/
  | reservedSelector
  /-- Raised by `setBacklight`, `setCursorBlink`, `setCursorDisplay` for an operand outside 0 and 1
  (R102). Safe. -/
  | reservedBit
  /-- Raised by `setGeometry` for an operand that names no well-formed Geometry (R102, R151). Safe. -/
  | illFormedGeometry
  /-- Raised by `print` for an operand with no 0x00 (spec/43_dispatcher.md R216). Safe. -/
  | unterminatedString
  /-- Raised by `step` for words that are no instruction at their port. Safe. -/
  | undecodable (e : DecodeError)
  deriving DecidableEq, Repr

namespace State

/-- The block right after power-on reset (spec/70_reset_and_hazards.md R270). `INITIAL_GEOMETRY`,
`RESET_BACKLIGHT` and the parameters are OPEN, so they are free constants here (log 4); the model's own
fields are as logs 1, 2, 3 and 5 say. -/
def reset : State where
  geometry := initialGeometry
  row := 0
  col := 0
  inEscape := false
  esc := escFresh Config.params.maxParams
  dirty := false
  newlinePending := false
  backlight := Config.resetBacklight
  cursorVisible := true
  cursorBlink := true
  running := none
  cfg := Config.params
  wire := ⟨[], [], 0, Config.hangAt, false⟩
  result := none
  inbox := []

end State

end Sys2Proof.Machine
end

