-- ==== Sys2Proof/Machine/Flags.lean ====
section
/-! DEFINITION. The control and status bits of the session and the bytes computed from them: the latch
byte (which copies the backlight bit), the display-control code (which copies both cursor bits), the
cursor-shown test, and the decoder's context. -/

namespace Sys2Proof.Machine

open Sys2Proof

/-- `Latch(n, rs, en)`: one latch byte, with BL as `S.backlight` is now (spec/40_nibble_engine.md
R120). -/
def State.latch (s : State) (n : Nibble) (rs en : Bool) : Byte :=
  latchByte s.cfg.latchMap n s.backlight en rs

/-- `EN_BIT` (spec/30_encoding.md R90). -/
def State.enBit (s : State) : Byte := bitMask s.cfg.latchMap.en

/-- `DisplayCtrl()`: the display-control code "reflecting both flags plus display-always-on"
(spec/40_nibble_engine.md R129). -/
def State.displayCtrl (s : State) : Byte :=
  0x08#8 ||| 0x04#8 ||| (if s.cursorVisible then 0x02#8 else 0) ||| (if s.cursorBlink then 0x01#8 else 0)

/-- The cursor is shown: the test of the newline deferral (spec/43_dispatcher.md R213). -/
def State.cursorShown (s : State) : Bool := s.cursorVisible || s.cursorBlink

/-- `EscReset()` on the session (spec/42_escape_parser.md R181). `in_escape` is not written. -/
def State.escReset (s : State) : State := { s with esc := escFresh s.cfg.maxParams }

/-- The parser idle: `EscReset(); S.in_escape <- false`. -/
def State.parserIdle (s : State) : State := { s.escReset with inEscape := false }

/-- The parser's state as the decoder sees it: none outside a sequence (spec/30_encoding.md R81 to
R83). -/
def State.parserMode (s : State) : Option EscState := if s.inEscape then some s.esc.state else none

/-- The decoder's context at a port. -/
def State.context (s : State) (p : Port) : Context where
  port := p
  parser := s.parserMode
  backlight := s.backlight
  cursorVisible := s.cursorVisible
  cursorBlink := s.cursorBlink
  map := s.cfg.latchMap

end Sys2Proof.Machine
end

