-- ==== Sys2Proof/Machine/Ops.lean ====
section
/-! DEFINITION. The named operations of spec/40 to 43, written once: bus writes and waits, transfers, the
position operations, the parser's effects, the dispatcher, and what a `BusError` does to a host
operation. A call of one rule by another runs it in place (spec/00_scope.md R11). -/

namespace Sys2Proof.Machine

open Sys2Proof

/-! ### How a piece of pseudocode ends -/

/-- How a piece of pseudocode ends: it ran to its end; a bus write answered `BusError` and the host
operation is over (spec/60_exceptions.md R241); or a primitive hung (R248). Each carries the state
reached. -/
inductive Run where
  | done (s : State)
  | busError (s : State)
  | hung (s : State)
  deriving DecidableEq, Repr

/-- Go on with the next piece of pseudocode, unless the run has ended (R241 (a)). -/
def Run.andThen (r : Run) (f : State → Run) : Run :=
  match r with
  | .done s => f s
  | .busError s => .busError s
  | .hung s => .hung s

/-- The state a run reached, however it ended. -/
def Run.state : Run → State
  | .done s => s
  | .busError s => s
  | .hung s => s

/-! ### Bus writes and waits (spec/00_scope.md R11) -/

/-- The event is a bus write. -/
def Event.isWrite : Event → Bool
  | .write _ => true
  | .delay _ => false

/-- How many of the events are bus writes. -/
def busWrites (es : List Event) : Nat := es.countP Event.isWrite

/-- The sum of the waits among the events: the least time they take, in nanoseconds
(spec/70_reset_and_hazards.md R285, R286). -/
def minDuration : List Event → Nat
  | [] => 0
  | .write _ :: es => minDuration es
  | .delay t :: es => t + minDuration es

/-- The Bus Primitive's answer to the k-th bus write from now, counting from 0 (R8 `BUS`, R240). -/
def Wire.answerAt (w : Wire) (k : Nat) : BusAnswer := (w.answers[k]?).getD (Config.busDraw (w.writes + k))

/-- Events added to the trace; each bus write uses up one answer. -/
def Wire.extend (w : Wire) (es : List Event) : Wire :=
  { w with
    trace := w.trace ++ es
    answers := w.answers.drop (busWrites es)
    writes := w.writes + busWrites es }

/-- The events added to the state's trace. -/
def State.extend (s : State) (es : List Event) : State := { s with wire := s.wire.extend es }

/-- The block hung in the primitive it called last (R248). -/
def State.hang (s : State) : State := { s with wire := { s.wire with hung := true } }

/-- `BusWrite(b)` and `Delay(t)` (R11): the event is appended to the trace; a bus write whose answer is
`BusError` ends the run (R241). A wait cannot fail. -/
def emit (e : Event) (s : State) : Run :=
  if s.wire.hangAt = some s.wire.trace.length then .hung (s.extend [e]).hang
  else if e.isWrite && s.wire.answerAt 0 == .busError then .busError (s.extend [e])
  else .done (s.extend [e])

/-- Events in order, up to the first that does not return ok. -/
def emitAll : List Event → State → Run
  | [], s => .done s
  | e :: es, s => (emit e s).andThen (emitAll es)

/-! ### Transfers (spec/40_nibble_engine.md R121 to R125)

A transfer writes no session state (R128), so it is the list of its events. -/

/-- `SendNibble`: "emit latch value, then latch value with the enable bit set, then latch value with
enable cleared", with its three waits (R121). -/
def nibbleEvents (s : State) (n : Nibble) (rs : Bool) : List Event :=
  let l := s.latch n rs false
  [.write l, .delay Config.tAS, .write (l ||| s.enBit), .delay Config.tPW, .write l, .delay Config.tH]

/-- `writeInstruction(v, t)`: both nibbles with RS clear, high first, then the wait (R122). -/
def instructionEvents (s : State) (v : Byte) (t : Nat) : List Event :=
  nibbleEvents s (highNibble v) false ++ nibbleEvents s (lowNibble v) false ++ [.delay t]

/-- `writeData(v)`: both nibbles with RS set, high first, then `T_DATA` (R123). -/
def dataEvents (s : State) (v : Byte) : List Event :=
  nibbleEvents s (highNibble v) true ++ nibbleEvents s (lowNibble v) true ++ [.delay Config.tData]

/-- `writeInstructionHighNibbleOnly(v, t)`: the high nibble with RS clear, then the wait (R124). -/
def highNibbleEvents (s : State) (v : Byte) (t : Nat) : List Event :=
  nibbleEvents s (highNibble v) false ++ [.delay t]

/-- `writeInstruction(v, t)` (R122). -/
def writeInstruction (v : Byte) (t : Nat) (s : State) : Run := emitAll (instructionEvents s v t) s

/-- `writeData(v)` (R123). -/
def writeData (v : Byte) (s : State) : Run := emitAll (dataEvents s v) s

/-- `writeInstructionHighNibbleOnly(v, t)` (R124). -/
def writeHighNibble (v : Byte) (t : Nat) (s : State) : Run := emitAll (highNibbleEvents s v t) s

/-! ### Position and addressing (spec/41_addressing.md) -/

/-- `Addr(r, c)` (R152). -/
def State.addr (s : State) (r c : Nat) : Nat := startAddr s.geometry r + c

/-- The set-address code for a cell: `0x80 | Addr(r, c)` (R153). -/
def State.addrCode (s : State) (r c : Nat) : Byte := codeSetDdram (BitVec.ofNat 7 (s.addr r c))

/-- The events of `SetAddr(r, c)` (R153). -/
def setAddrEvents (s : State) (r c : Nat) : List Event :=
  instructionEvents s (s.addrCode r c) Config.tInstr

/-- `SetAddr(r, c)` (R153). -/
def setAddr (r c : Nat) (s : State) : Run := emitAll (setAddrEvents s r c) s

/-- The row after this one, wrapping (R160, R162, R163). -/
def State.nextRow (s : State) : Nat := (s.row + 1) % s.geometry.rows

/-- The position set. -/
def State.moveTo (s : State) (r c : Nat) : State := { s with row := r, col := c }

/-- `writeChar(ch)` (R160): the test of the column is equality. -/
def writeChar (ch : Byte) (s : State) : Run :=
  (writeData ch s).andThen fun s =>
    if s.col + 1 = s.geometry.cols then setAddr s.nextRow 0 (s.moveTo s.nextRow 0)
    else .done (s.moveTo s.row (s.col + 1))

/-- `setCursor(r, c)` with its one-step clamp (R161). -/
def setCursor (r c : Nat) (s : State) : Run :=
  let rc := clampCursor s.geometry r c
  setAddr rc.1 rc.2 (s.moveTo rc.1 rc.2)

/-- The position `tab` moves to (R162): the test of the column is "at or past the edge". -/
def State.tabTarget (s : State) : Nat × Nat :=
  if s.geometry.cols ≤ s.col + Config.tabWidth then (s.nextRow, 0) else (s.row, s.col + Config.tabWidth)

/-- `tab()` (R162). -/
def tabOp (s : State) : Run :=
  setAddr s.tabTarget.1 s.tabTarget.2 (s.moveTo s.tabTarget.1 s.tabTarget.2)

/-- The events that erase a row: `cols` spaces sent with `writeData` (R163). -/
def eraseEvents (s : State) : List Event :=
  (List.replicate s.geometry.cols (dataEvents s chSpace)).flatten

/-- `newLine()` (R163). -/
def newLine (s : State) : Run :=
  let s := s.moveTo s.nextRow 0
  (setAddr s.row 0 s).andThen fun s => (emitAll (eraseEvents s) s).andThen fun s => setAddr s.row 0 s

/-- `carriageReturn()` (R164). -/
def carriageReturn (s : State) : Run := setAddr s.row 0 (s.moveTo s.row 0)

/-- `clearDisplay()`: the position is reset only after the instruction and its wait (R165). -/
def clearDisplay (s : State) : Run :=
  (writeInstruction codeClear Config.tClear s).andThen fun s => .done (s.moveTo 0 0)

/-- Return-home and the position reset that follows it in `ED2` (spec/42_escape_parser.md R188). -/
def returnHome (s : State) : Run :=
  (writeInstruction codeHome Config.tClear s).andThen fun s => .done (s.moveTo 0 0)

/-- `ED2()` (R188). -/
def eraseDisplay (s : State) : Run := (clearDisplay s).andThen returnHome

/-! ### The parser on the session (spec/42_escape_parser.md) -/

/-- `EscEnter()` (R180). -/
def escEnter (s : State) : State :=
  { s with inEscape := true, esc := replayAppend s.cfg.replayCap chEsc (escFresh s.cfg.maxParams) }

/-- A '[' in AwaitingBracket (R183). -/
def escBracket (s : State) : State := { s with esc := bracketStep s.cfg s.esc }

/-- A digit in ReadingParam (R184). -/
def escDigitOp (b : Byte) (s : State) : State := { s with esc := digitStep s.cfg b s.esc }

/-- A ';' in ReadingParam (R185). -/
def escSemiOp (s : State) : State := { s with esc := semiStep s.cfg s.esc }

/-- What a finished sequence does (R188, R189, R190). -/
def runCommand : Command → State → Run
  | .ed2, s => eraseDisplay s
  | .cup r c, s => setCursor r c s
  | .noop, s => .done s

/-- `EscFinal(b)`: the buffer is reset and `in_escape` cleared before the command acts (R187). -/
def escFinalOp (b : Byte) (s : State) : Run :=
  runCommand (commandOf (finalBuffer s.cfg.maxParams s.esc) b) s.parserIdle

/-- `EscFeed(b)` (R193). -/
def escFeed (b : Byte) (s : State) : Run :=
  match s.esc.state with
  | .awaitingBracket => if b = chLbracket then .done (escBracket s) else .done s
  | .readingParam =>
    if isDigit b then .done (escDigitOp b s)
    else if b = chSemi then .done (escSemiOp s)
    else escFinalOp b s

/-- `writeChar` of each byte in turn. -/
def writeChars : List Byte → State → Run
  | [], s => .done s
  | b :: bs, s => (writeChar b s).andThen (writeChars bs)

/-- `EscReplay()`: the parser is reset before the first replayed byte (R192). -/
def escReplay (s : State) : Run := writeChars s.esc.replay s.parserIdle

/-! ### The dispatcher (spec/43_dispatcher.md) -/

/-- `LineFeed()` (R213). -/
def lineFeed (s : State) : Run :=
  if s.cursorShown then .done { s with newlinePending := true } else newLine s

/-- `PendingNewline()`: the flag is cleared before `newLine` runs (R214). -/
def pendingNewline (s : State) : Run :=
  if s.newlinePending then newLine { s with newlinePending := false } else .done s

/-- `Dispatch(b)`, in the class order of spec/30_encoding.md R81 (R212). -/
def dispatchByte (b : Byte) (s : State) : Run :=
  if b = chCr then carriageReturn s
  else if b = chLf then lineFeed s
  else if b = chEsc then .done (escEnter s)
  else if b = chTab then tabOp s
  else writeChar b s

/-- One byte of a `write`: the pending newline, then the parser or the dispatcher (R210). -/
def writeByte (b : Byte) (s : State) : Run :=
  (pendingNewline s).andThen fun s => if s.inEscape then escFeed b s else dispatchByte b s

/-- The dirty clear at the start of `write`: `dirty` is cleared only after the clear completed (R210,
R215). -/
def dirtyClear (s : State) : Run :=
  if s.dirty then (clearDisplay s).andThen fun s => .done { s with dirty := false } else .done s

/-- The byte loop begins at byte 0 (spec/10_state.md R40). -/
def State.beginLoop (buf : List Byte) (s : State) : State := { s with running := some ⟨buf, 0⟩ }

/-- `buf[i]`: the byte to be dispatched next, if one is left (R210). -/
def State.currentByte (s : State) : Option Byte := s.running.bind fun w => w.buf[w.index]?

/-- "i advances by exactly 1 per byte" (R40). -/
def State.advanceIndex (s : State) : State :=
  { s with running := s.running.map fun w => { w with index := w.index + 1 } }

/-- The byte loop of `write` (R210), for at most n more bytes. -/
def writeLoop : Nat → State → Run
  | 0, s => .done s
  | n + 1, s =>
    match s.currentByte with
    | none => .done s
    | some b => (writeByte b s).andThen fun s => writeLoop n s.advanceIndex

/-- What `write` does before its byte loop: the dirty clear, then the pending newline (R210). -/
def writePrologue (s : State) : Run := (dirtyClear s).andThen pendingNewline

/-- `write(buf, len)` (R210). -/
def writeBuffer (buf : List Byte) (s : State) : Run :=
  (writePrologue s).andThen fun s => writeLoop buf.length (s.beginLoop buf)

/-! ### The other host operations -/

/-- The session updates of `initializeDisplay`, all before its first bus write (spec/40_nibble_engine.md
R130). -/
def State.initialized (s : State) : State :=
  { s.parserIdle with
    newlinePending := false, dirty := false, cursorVisible := true, cursorBlink := true }

/-- `initializeDisplay()` (R130); the order "must not be reordered" (R274). -/
def initializeOp (s : State) : Run :=
  (writeHighNibble codeFset8Bit Config.tBoot1 s.initialized).andThen fun s =>
  (writeHighNibble codeFset8Bit Config.tBoot2 s).andThen fun s =>
  (writeHighNibble codeFset8Bit Config.tInstr s).andThen fun s =>
  (writeHighNibble codeFset4Bit Config.tInstr s).andThen fun s =>
  (writeInstruction codeFset4Bit2Line Config.tInstr s).andThen fun s =>
  (writeInstruction s.displayCtrl Config.tInstr s).andThen fun s =>
  (clearDisplay s).andThen fun s =>
  writeInstruction codeEntryInc Config.tInstr s

/-- The session updates of `setGeometry(g)` before its clear (spec/43_dispatcher.md R220). -/
def State.withGeometry (g : Geometry) (s : State) : State :=
  { s.parserIdle with newlinePending := false, geometry := g, row := 0, col := 0, dirty := true }

/-- `setGeometry(g)` for a well-formed g: `dirty` is set while the clear is in flight (R220). -/
def setGeometryOp (g : Geometry) (s : State) : Run :=
  (clearDisplay (s.withGeometry g)).andThen fun s => .done { s with dirty := false }

/-- `setBacklight(b)`: the flag, then one bus write with no strobe and no wait (R222). -/
def setBacklightOp (b : Bool) (s : State) : Run :=
  emitAll [.write (backlightByte s.cfg.latchMap b)] { s with backlight := b }

/-- The display-control instruction is sent (R223, R224). -/
def sendDisplayCtrl (s : State) : Run := writeInstruction s.displayCtrl Config.tInstr s

/-- `setCursorBlink(b)` (R223). -/
def setCursorBlinkOp (b : Bool) (s : State) : Run := sendDisplayCtrl { s with cursorBlink := b }

/-- `setCursorDisplay(b)` (R224). -/
def setCursorDisplayOp (b : Bool) (s : State) : Run := sendDisplayCtrl { s with cursorVisible := b }

/-- `flush()` (R226). -/
def flushOp (s : State) : Run :=
  (pendingNewline s).andThen fun s => if s.inEscape then escReplay s else .done s

/-! ### How a host operation, or a part of one, returns (spec/60_exceptions.md R241, R244) -/

/-- Taking the `BusError` exception: the host operation in progress ends and returns `BusError`; every
session update made before the failing write stays (R241, R247). -/
def State.takeBusError (s : State) : State := { s with running := none, result := some .busError }

/-- The host operation returns `Ok` (R244). -/
def State.returnOk (s : State) : State := { s with running := none, result := some .ok }

/-- The state a host operation leaves when it returns, or when it hangs. -/
def Run.returned : Run → State
  | .done s => s.returnOk
  | .busError s => s.takeBusError
  | .hung s => s

/-- The state a part of a host operation leaves: it goes back to the pseudocode that asked for it, or
the whole operation ends with `BusError`. -/
def Run.resumed : Run → State
  | .done s => s
  | .busError s => s.takeBusError
  | .hung s => s

/-- The end of a host operation. Whatever the Bus Primitive answers, there is a next state. -/
def Run.finish (r : Run) : Host.Outcome State Fault Refusal := .next r.returned

/-- The end of a part of a host operation. -/
def Run.part (r : Run) : Host.Outcome State Fault Refusal := .next r.resumed

end Sys2Proof.Machine
end

