-- ==== Sys2Proof/Machine/Driver.lean ====
section
/-! DEFINITION. The meanings of the rows the block emits: latch and backlight bytes (BUS_BYTE,
spec/30_encoding.md R90, R91), the controller's instruction codes (HD44780_INSTR and
HD44780_INSTR_HIGH_NIBBLE, R92, R93) and data bytes (HD44780_DATA, R94). To run one is to send it, with
the waits its row gives it. -/

namespace Sys2Proof.Machine

open Sys2Proof

/-- LATCH: one bus write of `Latch(d, rs, en)`. BL is not an operand of R120: it "always reflects
`S.backlight` as it is at that write", and the decoder takes a latch byte only if its BL bit does
(spec/40_nibble_engine.md R120). -/
def execLatch (d : Nibble) (_bl en rs : Bool) (s : State) : Host.Outcome State Fault Refusal :=
  (emitAll [.write (s.latch d rs en)] s).part

/-- BACKLIGHT_CTL: one bus write, no strobe, no wait (spec/30_encoding.md R91). -/
def execBacklightCtl (b : Bool) (s : State) : Host.Outcome State Fault Refusal :=
  (emitAll [.write (backlightByte s.cfg.latchMap b)] s).part

/-- CLEAR (spec/41_addressing.md R165). -/
def execClear (s : State) : Host.Outcome State Fault Refusal := (clearDisplay s).part

/-- HOME (spec/42_escape_parser.md R188). -/
def execHome (s : State) : Host.Outcome State Fault Refusal := (returnHome s).part

/-- ENTRY_INC (spec/40_nibble_engine.md R130). -/
def execEntryInc (s : State) : Host.Outcome State Fault Refusal :=
  (writeInstruction codeEntryInc Config.tInstr s).part

/-- DISPLAY_CTRL: `DisplayCtrl()` "reads `S.cursor_visible` and `S.cursor_blink`", so C and B are the
session's flags; the decoder takes a code only if its bits are (spec/40_nibble_engine.md R129). -/
def execDisplayCtrl (_c _b : Bool) (s : State) : Host.Outcome State Fault Refusal :=
  (writeInstruction s.displayCtrl Config.tInstr s).part

/-- FSET_8BIT_HNO, with the wait of its place in the bootstrap (spec/40_nibble_engine.md R124, R125). -/
def execFset8BitHno (w : BootWrite) (s : State) : Host.Outcome State Fault Refusal :=
  (writeHighNibble codeFset8Bit (bootWait w) s).part

/-- FSET_4BIT_HNO (spec/40_nibble_engine.md R124, R125). -/
def execFset4BitHno (s : State) : Host.Outcome State Fault Refusal :=
  (writeHighNibble codeFset4Bit Config.tInstr s).part

/-- FSET_4BIT_2LINE (spec/40_nibble_engine.md R130). -/
def execFset4Bit2Line (s : State) : Host.Outcome State Fault Refusal :=
  (writeInstruction codeFset4Bit2Line Config.tInstr s).part

/-- SET_DDRAM (spec/41_addressing.md R153). -/
def execSetDdram (a : BitVec 7) (s : State) : Host.Outcome State Fault Refusal :=
  (writeInstruction (codeSetDdram a) Config.tInstr s).part

/-- DATA (spec/40_nibble_engine.md R123). -/
def execData (v : Byte) (s : State) : Host.Outcome State Fault Refusal := (writeData v s).part

end Sys2Proof.Machine
end

