-- ==== Sys2Proof/Machine/HostOps.lean ====
section
/-! DEFINITION. The meanings of the HOST_OP rows (spec/30_encoding.md R100 to R102). A host operation
runs to its end or to `BusError` in one step (spec/00_scope.md R5 (a), R7). -/

namespace Sys2Proof.Machine

open Sys2Proof

/-- `initializeDisplay()` (spec/40_nibble_engine.md R130). -/
def execInitializeDisplay (s : State) : Host.Outcome State Fault Refusal := (initializeOp s).finish

/-- `write(buf, len)` (spec/43_dispatcher.md R210). -/
def execWrite (buf : List Byte) (s : State) : Host.Outcome State Fault Refusal :=
  (writeBuffer buf s).finish

/-- `print(s)` (spec/43_dispatcher.md R216). -/
def execPrint (str : List Byte) (s : State) : Host.Outcome State Fault Refusal :=
  match beforeNul str with
  | some buf => (writeBuffer buf s).finish
  | none => .refused .unterminatedString

/-- `setGeometry(g)` (spec/43_dispatcher.md R220, spec/30_encoding.md R102). -/
def execSetGeometry (op : GeometryOperand) (s : State) : Host.Outcome State Fault Refusal :=
  match resolveGeometry s.cfg op with
  | some g => (setGeometryOp g s).finish
  | none => .refused .illFormedGeometry

/-- `setBacklight(b)` (spec/43_dispatcher.md R222). -/
def execSetBacklight (b : Byte) (s : State) : Host.Outcome State Fault Refusal :=
  match bitOperand b with
  | some b => (setBacklightOp b s).finish
  | none => .refused .reservedBit

/-- `setCursorBlink(b)` (spec/43_dispatcher.md R223). -/
def execSetCursorBlink (b : Byte) (s : State) : Host.Outcome State Fault Refusal :=
  match bitOperand b with
  | some b => (setCursorBlinkOp b s).finish
  | none => .refused .reservedBit

/-- `setCursorDisplay(b)` (spec/43_dispatcher.md R224). -/
def execSetCursorDisplay (b : Byte) (s : State) : Host.Outcome State Fault Refusal :=
  match bitOperand b with
  | some b => (setCursorDisplayOp b s).finish
  | none => .refused .reservedBit

/-- `flush()` (spec/43_dispatcher.md R226). -/
def execFlush (s : State) : Host.Outcome State Fault Refusal := (flushOp s).finish

/-- HOST_RESERVED: "In these cases the model refuses the operation" (spec/30_encoding.md R102). -/
def execHostReserved (_k : BitVec 3) (_s : State) : Host.Outcome State Fault Refusal :=
  .refused .reservedSelector

end Sys2Proof.Machine
end

