-- ==== Sys2Proof/Machine/Sequences.lean ====
section
/-! DEFINITION. The meanings of the ESC_SEQUENCE rows: what a finished escape sequence does to the
display (spec/30_encoding.md R85). The spec has a sequence only byte by byte from an idle parser. Given whole,
it is run whatever the parser's state, and leaves `in_escape` and the escape buffer as they are: the model's
choice (DESIGN CHOICE, log 17). -/

namespace Sys2Proof.Machine

open Sys2Proof

/-- ED2 (spec/42_escape_parser.md R188). A pending sequence stays pending (log 17). -/
def execEd2 (s : State) : Host.Outcome State Fault Refusal := (eraseDisplay s).part

/-- CUP (spec/42_escape_parser.md R189). A pending sequence stays pending (log 17). -/
def execCup (row col : Nat) (s : State) : Host.Outcome State Fault Refusal := (setCursor row col s).part

/-- ESC_NOOP: "no display effect and no bus traffic" (spec/42_escape_parser.md R190). A pending sequence stays
pending (log 17). -/
def execEscNoop (_bytes : List Byte) (s : State) : Host.Outcome State Fault Refusal := .next s

end Sys2Proof.Machine
end

