-- ==== Sys2Proof/Machine/Stream.lean ====
section
/-! DEFINITION. The meanings of the input-byte rows: the classes of a byte outside an escape sequence
(INPUT_BYTE, spec/30_encoding.md R81) and inside one (ESC_AWAITING_BRACKET R82, ESC_READING_PARAM R83). By
itself such a row does what its own rule says, whatever is pending (DESIGN CHOICE, log 17). -/

namespace Sys2Proof.Machine

open Sys2Proof

/-- CR (spec/41_addressing.md R164). -/
def execCr (s : State) : Host.Outcome State Fault Refusal := (carriageReturn s).part

/-- LF (spec/43_dispatcher.md R213). -/
def execLf (s : State) : Host.Outcome State Fault Refusal := (lineFeed s).part

/-- ESC outside a sequence (spec/42_escape_parser.md R180). -/
def execEsc (s : State) : Host.Outcome State Fault Refusal := .next (escEnter s)

/-- TAB (spec/41_addressing.md R162). -/
def execTab (s : State) : Host.Outcome State Fault Refusal := (tabOp s).part

/-- CHAR (spec/41_addressing.md R160). -/
def execChar (ch : Byte) (s : State) : Host.Outcome State Fault Refusal := (writeChar ch s).part

/-- ESC_LBRACKET (spec/42_escape_parser.md R183). -/
def execEscLbracket (s : State) : Host.Outcome State Fault Refusal := .next (escBracket s)

/-- ESC_IGNORE: "any other byte leaves the state unchanged" (spec/42_escape_parser.md R182). -/
def execEscIgnore (_b : Byte) (s : State) : Host.Outcome State Fault Refusal := .next s

/-- ESC_DIGIT (spec/42_escape_parser.md R184). -/
def execEscDigit (d : Fin 10) (s : State) : Host.Outcome State Fault Refusal :=
  .next (escDigitOp (digitByte d) s)

/-- ESC_SEMI (spec/42_escape_parser.md R185). -/
def execEscSemi (s : State) : Host.Outcome State Fault Refusal := .next (escSemiOp s)

/-- ESC_FINAL (spec/42_escape_parser.md R187). -/
def execEscFinal (b : Byte) (s : State) : Host.Outcome State Fault Refusal := (escFinalOp b s).part

end Sys2Proof.Machine
end

