-- ==== Sys2Proof/Machine/Dispatch.lean ====
section
/-! DEFINITION. One arm for each instruction. -/

namespace Sys2Proof.Machine

def exec (i : Instr) (s : State) : Host.Outcome State Fault Refusal :=
  match i with
  | .cr => Sys2Proof.Machine.execCr s
  | .lf => Sys2Proof.Machine.execLf s
  | .esc => Sys2Proof.Machine.execEsc s
  | .tab => Sys2Proof.Machine.execTab s
  | .char ch => Sys2Proof.Machine.execChar ch s
  | .escLbracket => Sys2Proof.Machine.execEscLbracket s
  | .escIgnore b => Sys2Proof.Machine.execEscIgnore b s
  | .escDigit d => Sys2Proof.Machine.execEscDigit d s
  | .escSemi => Sys2Proof.Machine.execEscSemi s
  | .escFinal b => Sys2Proof.Machine.execEscFinal b s
  | .ed2 => Sys2Proof.Machine.execEd2 s
  | .cup row col => Sys2Proof.Machine.execCup row col s
  | .escNoop bytes => Sys2Proof.Machine.execEscNoop bytes s
  | .latch d bl en rs => Sys2Proof.Machine.execLatch d bl en rs s
  | .backlightCtl b => Sys2Proof.Machine.execBacklightCtl b s
  | .clear => Sys2Proof.Machine.execClear s
  | .home => Sys2Proof.Machine.execHome s
  | .entryInc => Sys2Proof.Machine.execEntryInc s
  | .displayCtrl c b => Sys2Proof.Machine.execDisplayCtrl c b s
  | .fset8BitHno w => Sys2Proof.Machine.execFset8BitHno w s
  | .fset4BitHno => Sys2Proof.Machine.execFset4BitHno s
  | .fset4Bit2Line => Sys2Proof.Machine.execFset4Bit2Line s
  | .setDdram a => Sys2Proof.Machine.execSetDdram a s
  | .data v => Sys2Proof.Machine.execData v s
  | .initializeDisplay => Sys2Proof.Machine.execInitializeDisplay s
  | .write buf => Sys2Proof.Machine.execWrite buf s
  | .print str => Sys2Proof.Machine.execPrint str s
  | .setGeometry g => Sys2Proof.Machine.execSetGeometry g s
  | .setBacklight b => Sys2Proof.Machine.execSetBacklight b s
  | .setCursorBlink b => Sys2Proof.Machine.execSetCursorBlink b s
  | .setCursorDisplay b => Sys2Proof.Machine.execSetCursorDisplay b s
  | .flush => Sys2Proof.Machine.execFlush s
  | .hostReserved k => Sys2Proof.Machine.execHostReserved k s

end Sys2Proof.Machine
end

