-- ==== Sys2Proof/Machine/Fetch.lean ====
section
/-! DEFINITION. What the block takes up next, and how an instruction is placed so that the next step
takes it up. There is no program counter (spec/10_state.md R40): the byte loop of a `write` in progress
has its byte index, and otherwise the next thing is whichever request the host makes first
(spec/70_reset_and_hazards.md R270). -/

namespace Sys2Proof.Machine

open Sys2Proof

/-- What the block takes up next. -/
inductive Fetched where
  /-- A primitive has hung (spec/60_exceptions.md R248). -/
  | hung
  /-- A `write` is in progress, and this is its byte i (R40). -/
  | byte (b : Byte)
  /-- A `write` is in progress and has no byte left. -/
  | loopEnd
  /-- A request, and the state without it. -/
  | request (r : Request) (rest : State)
  /-- Nothing to do: "It acts only when the host calls a host operation" (R246). -/
  | idle
  deriving DecidableEq, Repr

/-- What the block takes up next. A `write` in progress goes on before any request is accepted
(spec/00_scope.md R5 (a)). -/
def fetch (s : State) : Fetched :=
  if s.wire.hung then .hung
  else
    match s.running with
    | some w =>
      match w.buf[w.index]? with
      | some b => .byte b
      | none => .loopEnd
    | none =>
      match s.inbox with
      | [] => .idle
      | r :: rest => .request r { s with inbox := rest }

/-- After one byte of a `write` in progress: the index advances by exactly 1 (R40), and with the last
byte the operation returns `Ok`. An operation that a `BusError` ended, or that hung, stays as it is. -/
def afterByte (s : State) : State :=
  if s.wire.hung then s
  else
    match s.running with
    | none => s
    | some w => if w.index + 1 < w.buf.length then s.advanceIndex else s.returnOk

/-- The next instruction's outcome, with f done to its next state. -/
def thenState (f : State → State) : Host.Outcome State Fault Refusal → Host.Outcome State Fault Refusal
  | .next s => .next (f s)
  | .fault r => .fault r
  | .refused r => .refused r

/-- The state with a byte placed as the only byte of a `write` in progress, with no newline pending and
the parser in the given state. -/
def placeByte (parser : Option EscState) (b : Byte) (s : State) : State :=
  { s with
    running := some ⟨[b], 0⟩
    newlinePending := false
    inEscape := parser.isSome
    esc := { s.esc with state := parser.getD s.esc.state } }

/-- The state with a request placed before the others, and no `write` in progress. -/
def placeRequest (r : Request) (s : State) : State := { s with running := none, inbox := r :: s.inbox }

/-- The state with a bare word of the opcode table placed where the next step takes it up, read as
`decodeTableWord` reads it: the port it stands at, the parser's state and, for a display-control code,
the cursor flags are as the word needs them (log 8). -/
def placeTableWord (nbits w : Nat) (s : State) : State :=
  match tableRequest nbits w with
  | (.stream, parser, [b]) => placeByte parser (BitVec.ofNat 8 b) s
  | (.instruction, _, ws) =>
    if w / 4 = 0b000011 then
      placeRequest ⟨.instruction, ws⟩ { s with cursorVisible := w.testBit 1, cursorBlink := w.testBit 0 }
    else placeRequest ⟨.instruction, ws⟩ s
  | (p, _, ws) => placeRequest ⟨p, ws⟩ s

end Sys2Proof.Machine
end

