-- ==== Sys2Proof/Machine/Step.lean ====
section
/-! DEFINITION. One step of the block: a request is run to its end, or one byte of a `write` in progress
is dispatched. -/

namespace Sys2Proof.Machine

open Sys2Proof

/-- The instruction decoded from words at a port is run; words that are no instruction are refused. -/
def runWords (p : Port) (ws : List Nat) (s : State) : Host.Outcome State Fault Refusal :=
  match decode (s.context p) ws with
  | .instr i => exec i s
  | .bad e => .refused (.undecodable e)

/-- One byte of a `write` in progress (spec/43_dispatcher.md R210): a pending newline is carried out
first; if that does not end the operation, the byte is decoded and run, and the index advances. -/
def stepByte (b : Byte) (s : State) : Host.Outcome State Fault Refusal :=
  match pendingNewline s with
  | .done s => thenState afterByte (runWords .stream [b.toNat] s)
  | r => r.part

/-- One step. -/
def step (s : State) : Host.Outcome State Fault Refusal :=
  match fetch s with
  | .hung => .fault .blockHung
  | .byte b => stepByte b s
  | .loopEnd => .next s.returnOk
  | .request r rest => runWords r.port r.words rest
  | .idle => .next s

/-- The state with a bare word of the opcode table placed where the next step takes it up. -/
def State.withFetchWord (s : State) (nbits w : Nat) : State := placeTableWord nbits w s

end Sys2Proof.Machine
end

