-- ==== Sys2Proof/Safety.lean ====
section
/-! DEFINITION. The terms claims are stated in: what the environment grants, the invariant of the session,
and the traces of spec/30_encoding.md R103 and R92 written out independently of Machine/Ops.lean. -/

namespace Sys2Proof.Machine

open Sys2Proof

/-! ### What the environment grants -/

/-- No primitive ever hangs: the host's duty "complete each call" (spec/60_exceptions.md R259). -/
abbrev State.neverHangs (s : State) : Prop := s.wire.hangAt = none

/-- No primitive hangs and the next n bus writes are answered ok (R259, R240). -/
abbrev State.busReady (s : State) (n : Nat) : Prop :=
  s.wire.hangAt = none ∧ ∀ k < n, s.wire.answerAt k = BusAnswer.ok

/-- The host waited at least `T_POWER_ON` after the controller's power-up: its duty before
`initializeDisplay` (spec/70_reset_and_hazards.md R272). The block cannot observe it. -/
def powerOnWaited (elapsed : Nat) : Prop := Config.tPowerOn ≤ elapsed

/-! ### The invariant -/

/-- A byte the replay record can hold: ESC, '[', a digit or ';' (spec/42_escape_parser.md R192, R195). -/
def recordable (b : Byte) : Bool := b == chEsc || b == chLbracket || isDigit b || b == chSemi

/-- The escape buffer keeps within its capacities (spec/10_state.md R27 to R31). -/
structure EscBuffer.Ok (p : Params) (e : EscBuffer) : Prop where
  raw_length : e.raw.length ≤ Config.rawCap
  raw_digits : ∀ b ∈ e.raw, isDigit b = true
  params_length : e.params.length = p.maxParams
  params_bound : ∀ v ∈ e.params, v ≤ 9999
  count_bound : e.paramCount ≤ p.maxParams
  replay_length : e.replay.length ≤ p.replayCap
  replay_bytes : ∀ b ∈ e.replay, recordable b = true

/-- What holds of the session before and after every step. -/
structure State.Inv (s : State) : Prop where
  /-- The parameters are in their domains (spec/92_eei_decisions.md). -/
  params_wf : s.cfg.wf = true
  /-- The geometry register holds a well-formed Geometry (R39). -/
  geometry_wf : geometryWf s.geometry = true
  /-- Position invariant (R24). -/
  row_bound : s.row < s.geometry.rows
  col_bound : s.col < s.geometry.cols
  /-- The buffer's capacities (R27 to R31). -/
  esc_ok : s.esc.Ok s.cfg
  /-- Outside a sequence the buffer is as `EscReset` leaves it (R181). -/
  idle_fresh : s.inEscape = false → s.esc = escFresh s.cfg.maxParams
  /-- The replay record of a sequence begins with its ESC (R31). -/
  replay_head : s.inEscape = true → s.esc.replay.head? = some chEsc
  /-- `newline_pending` and `in_escape` are never both true (R38). -/
  newline_idle : ¬(s.newlinePending = true ∧ s.inEscape = true)
  /-- `dirty` implies not `in_escape` and not `newline_pending` (R217). -/
  dirty_idle : s.dirty = true → s.inEscape = false ∧ s.newlinePending = false
  /-- A byte loop in progress has a byte left, and runs only after the dirty clear (R40, R210). -/
  loop_ok : ∀ w, s.running = some w → w.index < w.buf.length ∧ s.dirty = false
  /-- The requests waiting are the host's, at its command port (spec/00_scope.md R5 (a)). -/
  inbox_host : ∀ r ∈ s.inbox, r.port = .host

/-! ### Steps -/

/-- n steps, stopping at the first fault or refusal. -/
def steps : Nat → State → Host.Outcome State Fault Refusal
  | 0, s => .next s
  | n + 1, s =>
    match step s with
    | .next t => steps n t
    | .fault f => .fault f
    | .refused r => .refused r

/-- The instruction answers next, having added w bus writes to the trace and waits that sum to d
nanoseconds (spec/70_reset_and_hazards.md R285, R286). -/
def Takes (i : Instr) (s : State) (w d : Nat) : Prop :=
  ∃ (t : State) (es : List Event), exec i s = .next t ∧ t.wire.trace = s.wire.trace ++ es
    ∧ busWrites es = w ∧ minDuration es = d

/-! ### Traces as the spec writes them -/

/-- `N(L)`, one strobed nibble: `W(L) D(40ns) W(L|EN) D(230ns) W(L) D(270ns)` (spec/30_encoding.md R103),
for an enable mask. -/
def strobe (en l : Byte) : List Event :=
  [.write l, .delay 40, .write (l ||| en), .delay 230, .write l, .delay 270]

/-- One thing the block sends: a code of the closed list of R92 with its wait of
spec/40_nibble_engine.md R125, a data byte, or the backlight control byte. -/
inductive Transfer where
  | clear
  | home
  | entryInc
  | displayCtrl (c b : Bool)
  | fset4Bit2Line
  | setDdram (a : BitVec 7)
  | fset8Bit (w : BootWrite)
  | fset4Bit
  | data (v : Byte)
  | control (b : Bool)
  deriving DecidableEq, Repr

/-- A byte as two strobed nibbles, high first, with RS, BL and the wait given (R63, R121 to R123). -/
def twoNibbles (m : LatchMap) (bl rs : Bool) (v : Byte) (t : Nat) : List Event :=
  strobe (bitMask m.en) (latchByte m (highNibble v) bl false rs)
    ++ strobe (bitMask m.en) (latchByte m (lowNibble v) bl false rs) ++ [.delay t]

/-- A high nibble as one strobed nibble with RS clear (R124). -/
def oneNibble (m : LatchMap) (bl : Bool) (v : Byte) (t : Nat) : List Event :=
  strobe (bitMask m.en) (latchByte m (highNibble v) bl false false) ++ [.delay t]

/-- The events of a transfer on a block with `LATCH_MAP` m while the backlight bit is bl
(R92, R125). -/
def Transfer.events (m : LatchMap) (bl : Bool) : Transfer → List Event
  | .clear => twoNibbles m bl false 0x01 1640000
  | .home => twoNibbles m bl false 0x02 1640000
  | .entryInc => twoNibbles m bl false 0x06 37000
  | .displayCtrl c b => twoNibbles m bl false (displayCode c b) 37000
  | .fset4Bit2Line => twoNibbles m bl false 0x28 37000
  | .setDdram a => twoNibbles m bl false (codeSetDdram a) 37000
  | .fset8Bit .first => oneNibble m bl 0x30 5000000
  | .fset8Bit .second => oneNibble m bl 0x30 100000
  | .fset8Bit .third => oneNibble m bl 0x30 37000
  | .fset4Bit => oneNibble m bl 0x20 37000
  | .data v => twoNibbles m bl true v 41000
  | .control b => [.write (backlightByte m b)]

/-- The events of several transfers in order. -/
def transferEvents (m : LatchMap) (bl : Bool) (ts : List Transfer) : List Event :=
  (ts.map (Transfer.events m bl)).flatten

/-- The state after the given transfers were sent with the session's own latch map and backlight. -/
def State.sent (s : State) (ts : List Transfer) : State :=
  s.extend (transferEvents s.cfg.latchMap s.backlight ts)

/-- The set-address transfer for a cell of the geometry (spec/41_addressing.md R153). -/
def cellTransfer (g : Geometry) (r c : Nat) : Transfer :=
  .setDdram (BitVec.ofNat 7 (startAddr g r + c))

/-- The transfers of `newLine` on a geometry, ending on row r (R163). -/
def newLineTransfers (g : Geometry) (r : Nat) : List Transfer :=
  [cellTransfer g r 0] ++ List.replicate g.cols (.data 0x20) ++ [cellTransfer g r 0]

/-- The transfers of `initializeDisplay` in their fixed order (spec/40_nibble_engine.md R130). -/
def initTransfers : List Transfer :=
  [.fset8Bit .first, .fset8Bit .second, .fset8Bit .third, .fset4Bit, .fset4Bit2Line,
    .displayCtrl true true, .clear, .entryInc]

/-! ### Blocks that differ only in `MAX_PARAMS` (spec/42_escape_parser.md R194) -/

/-- Two escape buffers that no later rule can tell apart: equal but for the params array, its count and
the error flag; and either both sequences can still select a command and have the same parameters so far,
or neither can select one any more. -/
structure EscBuffer.SameUpToParams (p q : Params) (e f : EscBuffer) : Prop where
  state_eq : e.state = f.state
  raw_eq : e.raw = f.raw
  replay_eq : e.replay = f.replay
  params_eq :
    (e.error = f.error ∧ e.paramCount = f.paramCount ∧ e.paramCount ≤ 2
        ∧ e.params.length = p.maxParams ∧ f.params.length = q.maxParams
        ∧ e.params.take 2 = f.params.take 2)
      ∨ ((e.error = true ∨ 2 < e.paramCount) ∧ (f.error = true ∨ 2 < f.paramCount))

/-- Two states that differ only in `MAX_PARAMS`, and in what the params array of a pending sequence
makes of it. -/
structure State.SameUpToMaxParams (s t : State) : Prop where
  s_wf : 2 ≤ s.cfg.maxParams
  t_wf : 2 ≤ t.cfg.maxParams
  esc_same : s.esc.SameUpToParams s.cfg t.cfg t.esc
  rest_eq : s = { t with cfg := { t.cfg with maxParams := s.cfg.maxParams }, esc := s.esc }

end Sys2Proof.Machine
end

