-- ==== Sys2Proof/Certificates/Slice0/Obligations.lean ====
section
/-! DEFINITION. The statements for the provers. Each says in its docstring which rules of spec/ it
formalises. `exec` is one instruction, `step` one step of the block; a host operation is one step. -/

open Sys2Proof Sys2Proof.Machine

/-! ### Reset and the invariant -/

/-- R270: power-on reset puts every session field at its reset value, makes no bus write and no wait, and
leaves no host operation in progress. -/
def Obligations.ResetPutsEveryFieldAtItsResetValue : Prop :=
  State.reset.geometry = initialGeometry ∧ State.reset.row = 0 ∧ State.reset.col = 0
  ∧ State.reset.inEscape = false
  ∧ State.reset.esc.state = .awaitingBracket ∧ State.reset.esc.raw = []
  ∧ State.reset.esc.params = List.replicate State.reset.cfg.maxParams 0
  ∧ State.reset.esc.paramCount = 0 ∧ State.reset.esc.error = false ∧ State.reset.esc.replay = []
  ∧ State.reset.dirty = false ∧ State.reset.newlinePending = false
  ∧ State.reset.backlight = Config.resetBacklight
  ∧ State.reset.cursorVisible = true ∧ State.reset.cursorBlink = true
  ∧ State.reset.wire.trace = [] ∧ State.reset.running = none

/-- The invariant holds at reset, whatever the OPEN parameters are (R24, R27 to R31, R38, R217, R270). -/
def Obligations.InvariantHoldsAtReset : Prop := State.reset.Inv

/-- Every step keeps the invariant, while the host makes requests at its command port only: position in
range, buffers within their capacities, the idle parser reset, R38 and R217 (R24, R27 to R31, R38, R217). -/
def Obligations.EveryStepKeepsTheInvariant : Prop :=
  ∀ s t : State, s.Inv → step s = .next t → t.Inv

/-! ### Encodings -/

/-- Decode and encode agree: the words of a well-formed instruction, read in a context they stand for it
in, decode to it, with every operand (R81 to R85, R90 to R94, R100 to R102). -/
def Obligations.DecodeOfEncodeIsTheInstruction : Prop :=
  ∀ (ctx : Context) (p : Params) (i : Instr),
    ctx.fits i = true → i.wf p = true → decode ctx (encode ctx.map i) = .instr i

/-- R81, R82, R83: the classes of an input byte in the three parser states, as their tables give them; R87:
every byte has a class in every state, and the class has that byte as its only encoding. -/
def Obligations.EveryInputByteHasAClassInEveryParserState : Prop :=
  ∀ (ctx : Context) (p : Params) (b : Byte), ctx.port = .stream →
    (ctx.parser = none → decode ctx [b.toNat] = .instr
      (if b = 0x0D then .cr else if b = 0x0A then .lf else if b = 0x1B then .esc
       else if b = 0x09 then .tab else .char b))
    ∧ (ctx.parser = some .awaitingBracket → decode ctx [b.toNat] = .instr
      (if b = 0x5B then .escLbracket else .escIgnore b))
    ∧ (ctx.parser = some .readingParam →
      (∀ d : Fin 10, b.toNat = 0x30 + d.val → decode ctx [b.toNat] = .instr (.escDigit d))
      ∧ (b = 0x3B → decode ctx [b.toNat] = .instr .escSemi)
      ∧ (b.toNat < 0x30 ∨ 0x39 < b.toNat → b ≠ 0x3B → decode ctx [b.toNat] = .instr (.escFinal b)))
    ∧ ∃ i : Instr, decode ctx [b.toNat] = .instr i ∧ i.wf p = true ∧ ctx.fits i = true
      ∧ encode ctx.map i = [b.toNat]

/-- Words written out from the encodings of spec/30_encoding.md decode to the instructions they stand
for, one or more of each format. -/
def Obligations.SampleWordsDecode : Prop :=
  let c : Context := ⟨.stream, none, true, true, false, LatchMap.standard⟩
  decode c [0x0D] = .instr .cr
  ∧ decode c [0x41] = .instr (.char 0x41)
  ∧ decode { c with parser := some .awaitingBracket } [0x5B] = .instr .escLbracket
  ∧ decode { c with parser := some .readingParam } [0x37] = .instr (.escDigit 7)
  ∧ decode { c with port := .sequence } [0x1B, 0x5B, 0x31, 0x32, 0x3B, 0x35, 0x48] = .instr (.cup 12 5)
  ∧ decode { c with port := .latch } [0b01001101] = .instr (.latch 0x4 true true true)
  ∧ decode { c with port := .instruction } [0b00001110] = .instr (.displayCtrl true false)
  ∧ decode { c with port := .instruction } [0b11000101] = .instr (.setDdram 0x45)
  ∧ decode { c with port := .highNibble .first } [0b0011] = .instr (.fset8BitHno .first)
  ∧ decode { c with port := .data } [0x20] = .instr (.data 0x20)
  ∧ decode { c with port := .host } [1, 2, 0x48, 0x69] = .instr (.write [0x48, 0x69])
  ∧ decode { c with port := .host } [8] = .instr (.hostReserved 0)

/-- R102, R151: HOST_RESERVED, selectors 0x8 to 0xF at the host port, a Geometry record that fails R151, an
entry number outside `GEOMETRY_TABLE`, an entry that fails R151, and a bit operand outside 0 and 1 are
refused; a refusal has no next state. That entry k + 4 is the implementation's entry k is the model's
numbering (log 7). -/
def Obligations.ReservedSelectorsAndOperandsAreRefused : Prop :=
  (∀ (s : State) (k : BitVec 3), exec (.hostReserved k) s = .refused .reservedSelector)
  ∧ (∀ (s : State) (n : Nat) (ws : List Nat) (rest : List Request), 8 ≤ n → n ≤ 15 →
      s.wire.hung = false → s.running = none → s.inbox = ⟨.host, n :: ws⟩ :: rest →
      step s = .refused .reservedSelector)
  ∧ (∀ (s : State) (g : Geometry), geometryWf g = false →
      exec (.setGeometry (.record g)) s = .refused .illFormedGeometry)
  ∧ (∀ (s : State) (k : Nat), 4 + s.cfg.extraGeometries.length ≤ k →
      exec (.setGeometry (.entry k)) s = .refused .illFormedGeometry)
  ∧ (∀ (s : State) (k : Nat) (g : Geometry), s.cfg.extraGeometries[k]? = some g →
      geometryWf g = false → exec (.setGeometry (.entry (k + 4))) s = .refused .illFormedGeometry)
  ∧ (∀ (s : State) (b : Byte), 2 ≤ b.toNat →
      exec (.setBacklight b) s = .refused .reservedBit
      ∧ exec (.setCursorBlink b) s = .refused .reservedBit
      ∧ exec (.setCursorDisplay b) s = .refused .reservedBit)

/-- R151: a Geometry is well-formed iff (a) cols ≥ 1, (b) rows ≥ 1, (c) it has a start address for each
row, (d) no row's addresses pass 0x7F. -/
def Obligations.GeometryWellFormedIffRule151 : Prop :=
  ∀ g : Geometry, geometryWf g = true ↔
    1 ≤ g.cols ∧ 1 ≤ g.rows ∧ g.rows ≤ g.startAddrs.length
    ∧ ∀ r a, r < g.rows → g.startAddrs[r]? = some a → a + g.cols - 1 ≤ 0x7F

/-! ### Steps -/

/-- A request's words decoded to i: the step is `exec i` on the state without the request. The inbox is the
model's (log 5), and so is that one step runs one request (log 9). -/
def Obligations.StepRunsTheDecodedRequest : Prop :=
  ∀ (s : State) (r : Request) (rest : List Request) (i : Instr),
    s.wire.hung = false → s.running = none → s.inbox = r :: rest →
    decode (s.context r.port) r.words = .instr i →
    step s = exec i { s with inbox := rest }

/-- With a `write` in progress and no newline pending, byte i decoded to an instruction is run by the step;
then the index advances by one, or with the last byte the operation returns Ok; an operation that a
`BusError` ended or that hung stays as it is. That a step from a `write` in progress runs one byte is the
model's choice (log 9); the order in which the bytes are taken is R210's and R40's. -/
def Obligations.StepRunsTheDecodedByte : Prop :=
  ∀ (s t : State) (w : WriteLoop) (b : Byte) (i : Instr),
    s.wire.hung = false → s.running = some w → w.buf[w.index]? = some b → s.newlinePending = false →
    decode (s.context .stream) [b.toNat] = .instr i → exec i s = .next t →
    step s = .next
      (if t.wire.hung then t
       else match t.running with
        | none => t
        | some v =>
          if v.index + 1 < v.buf.length then { t with running := some { v with index := v.index + 1 } }
          else { t with running := none, result := some .ok })

/-- R248: from a state in which a primitive hung no step is taken; R246: with no request the block waits. -/
def Obligations.HungBlockStopsAndIdleBlockWaits : Prop :=
  (∀ s : State, s.wire.hung = true → step s = .fault .blockHung)
  ∧ (∀ s : State, s.wire.hung = false → s.running = none → s.inbox = [] → step s = .next s)

/-- R40: inside `write`, a step leaves the buffer as it is and advances the index by exactly 1, unless
the operation ends or hangs with it. -/
def Obligations.ByteIndexAdvancesByExactlyOne : Prop :=
  ∀ (s t : State) (v w : WriteLoop), s.running = some v → step s = .next t → t.wire.hung = false →
    t.running = some w → w.buf = v.buf ∧ w.index = v.index + 1

/-- Log 9 (one step runs a whole host operation, or one byte of a `write` in progress) is of no consequence:
taking the bytes of a `write` in progress one step at a time ends as its whole byte loop does (R210, R40,
R241); and `write` itself, with nothing pending before it, ends as those steps do from the state in which
its byte loop begins, whatever the bus answers. So a byte inside a `write` does what its own instruction
does (`StepRunsTheDecodedByte`). -/
def Obligations.SteppingAWriteEqualsItsByteLoop : Prop :=
  (∀ (s : State) (w : WriteLoop), s.running = some w → w.index < w.buf.length →
    s.wire.hung = false → s.neverHangs → s.inbox = [] →
    steps (w.buf.length - w.index) s = .next (writeLoop (w.buf.length - w.index) s).returned)
  ∧ (∀ (s : State) (buf : List Byte), s.wire.hung = false → s.neverHangs → s.inbox = [] →
    s.dirty = false → s.newlinePending = false →
    exec (.write buf) s = steps (max 1 buf.length) { s with running := some ⟨buf, 0⟩ })

/-! ### The nibble engine -/

/-- R241 (a), (d), R127: at the first bus write that is answered `BusError` nothing more is sent, and the
trace ends with that write. -/
def Obligations.EmissionEndsWithTheFailedWrite : Prop :=
  ∀ (s : State) (pre post : List Event) (b : Byte),
    s.neverHangs → (∀ k < busWrites pre, s.wire.answerAt k = .ok) →
    s.wire.answerAt (busWrites pre) = .busError →
    emitAll (pre ++ .write b :: post) s = .busError (s.extend (pre ++ [.write b]))

/-- R122 to R125, R129, R130, R153: an emitted code or data byte goes out as its strobed nibbles, high
first, followed by its wait, and nothing else changes. DISPLAY_CTRL carries the session's cursor
flags. -/
def Obligations.TransferInstructionsSendTheirNibbles : Prop :=
  (∀ s : State, s.busReady 6 →
      exec .entryInc s = .next (s.sent [.entryInc])
      ∧ exec .fset4Bit2Line s = .next (s.sent [.fset4Bit2Line])
      ∧ (∀ c b, exec (.displayCtrl c b) s
          = .next (s.sent [.displayCtrl s.cursorVisible s.cursorBlink]))
      ∧ (∀ a, exec (.setDdram a) s = .next (s.sent [.setDdram a]))
      ∧ (∀ v, exec (.data v) s = .next (s.sent [.data v])))
  ∧ (∀ s : State, s.busReady 3 →
      (∀ w, exec (.fset8BitHno w) s = .next (s.sent [.fset8Bit w]))
      ∧ exec .fset4BitHno s = .next (s.sent [.fset4Bit]))

/-- R120, R91: a latch byte is one bus write with BL as the session's backlight, a backlight control byte
one bus write of `BL_BIT` or 0. -/
def Obligations.BusByteInstructionsMakeOneWrite : Prop :=
  ∀ s : State, s.busReady 1 →
    (∀ d bl en rs, exec (.latch d bl en rs) s
      = .next (s.extend [.write (latchByte s.cfg.latchMap d s.backlight en rs)]))
    ∧ (∀ b, exec (.backlightCtl b) s
      = .next (s.extend [.write (if b then bitMask s.cfg.latchMap.bl else 0)]))

/-- R165, R188: CLEAR, and HOME after it in ED2, are sent with `T_CLEAR` and put the position at (0,0), only
after the instruction and its wait: with a `BusError` in it the position is unchanged. ED2 leaves the
position unchanged if CLEAR fails, and at (0,0) if HOME fails. HOME by itself is the model's reading of the
tail of ED2 (log 11), and so is that a pending sequence is left as it is by ED2 (log 17). -/
def Obligations.ClearAndHomeResetThePosition : Prop :=
  (∀ s : State, s.busReady 6 →
      exec .clear s = .next ({ s with row := 0, col := 0 }.sent [.clear])
      ∧ exec .home s = .next ({ s with row := 0, col := 0 }.sent [.home]))
  ∧ (∀ s : State, s.busReady 12 →
      exec .ed2 s = .next ({ s with row := 0, col := 0 }.sent [.clear, .home]))
  ∧ (∀ (s t : State) (i : Instr), (i = .clear ∨ i = .home ∨ i = .ed2) → exec i s = .next t →
      s.neverHangs → (∃ k < 6, s.wire.answerAt k = .busError) →
      t.row = s.row ∧ t.col = s.col ∧ t.result = some .busError)
  ∧ (∀ s t : State, exec .ed2 s = .next t → s.neverHangs →
      (∀ k < 6, s.wire.answerAt k = .ok) → (∃ k < 6, s.wire.answerAt (6 + k) = .busError) →
      t.row = 0 ∧ t.col = 0 ∧ t.result = some .busError)

/-- R131: the full trace of a successful `initializeDisplay` under the default latch map, with the
backlight on and off, is these 36 bus writes and their waits. -/
def Obligations.InitializeDisplayTrace : Prop :=
  ∀ s t : State, s.cfg.latchMap = LatchMap.standard → s.busReady 36 →
    exec .initializeDisplay s = .next t →
    (s.backlight = true → t.wire.trace = s.wire.trace
        ++ strobe 4 0x38 ++ [.delay 5000000] ++ strobe 4 0x38 ++ [.delay 100000]
        ++ strobe 4 0x38 ++ [.delay 37000] ++ strobe 4 0x28 ++ [.delay 37000]
        ++ strobe 4 0x28 ++ strobe 4 0x88 ++ [.delay 37000]
        ++ strobe 4 0x08 ++ strobe 4 0xF8 ++ [.delay 37000]
        ++ strobe 4 0x08 ++ strobe 4 0x18 ++ [.delay 1640000]
        ++ strobe 4 0x08 ++ strobe 4 0x68 ++ [.delay 37000])
    ∧ (s.backlight = false → t.wire.trace = s.wire.trace
        ++ strobe 4 0x30 ++ [.delay 5000000] ++ strobe 4 0x30 ++ [.delay 100000]
        ++ strobe 4 0x30 ++ [.delay 37000] ++ strobe 4 0x20 ++ [.delay 37000]
        ++ strobe 4 0x20 ++ strobe 4 0x80 ++ [.delay 37000]
        ++ strobe 4 0x00 ++ strobe 4 0xF0 ++ [.delay 37000]
        ++ strobe 4 0x00 ++ strobe 4 0x10 ++ [.delay 1640000]
        ++ strobe 4 0x00 ++ strobe 4 0x60 ++ [.delay 37000])

/-- R130: a successful `initializeDisplay` sends its eight transfers in their fixed order and leaves the
parser idle, no newline pending, not dirty, both cursor flags on and position (0,0), with everything else
unchanged. -/
def Obligations.InitializeDisplayResult : Prop :=
  ∀ s : State, s.busReady 36 →
    exec .initializeDisplay s = .next ({ s with
      esc := escFresh s.cfg.maxParams, inEscape := false, newlinePending := false, dirty := false,
      cursorVisible := true, cursorBlink := true, row := 0, col := 0,
      running := none, result := some .ok }.sent initTransfers)

/-- R130, R241 (c): whatever the bus answers, `initializeDisplay` has made its session updates, and
changes nothing else but the position, which is (0,0) or unchanged. It is reset only if the clear completed
(V1.19, V1.20): unchanged with a `BusError` in the 30 bus writes up to the end of the clear, and (0,0) with one
in the 6 after them. -/
def Obligations.InitializeDisplayUpdatesComeFirst : Prop :=
  ∀ s t : State, exec .initializeDisplay s = .next t →
    t = { s with
      esc := escFresh s.cfg.maxParams, inEscape := false, newlinePending := false, dirty := false,
      cursorVisible := true, cursorBlink := true, row := t.row, col := t.col,
      running := t.running, result := t.result, wire := t.wire }
    ∧ ((t.row = 0 ∧ t.col = 0) ∨ (t.row = s.row ∧ t.col = s.col))
    ∧ (s.neverHangs → (∃ k < 30, s.wire.answerAt k = .busError) →
      t.row = s.row ∧ t.col = s.col ∧ t.result = some .busError)
    ∧ (s.neverHangs → (∀ k < 30, s.wire.answerAt k = .ok) →
      (∃ k < 6, s.wire.answerAt (30 + k) = .busError) →
      t.row = 0 ∧ t.col = 0 ∧ t.result = some .busError)

/-! ### Position and addressing -/

/-- R164: CR puts the column at 0 and sends the set-address of the row's start, at column 0 too; the
update is made before the set-address, whatever the bus answers to it. -/
def Obligations.CarriageReturnResult : Prop :=
  (∀ s : State, s.busReady 6 →
      exec .cr s = .next ({ s with col := 0 }.sent [cellTransfer s.geometry s.row 0]))
  ∧ (∀ s t : State, exec .cr s = .next t → t.col = 0 ∧ t.row = s.row)

/-- R213, R163: LF with the cursor shown only sets `newline_pending`; with it hidden it moves to column 0
of the next row, erases that row and re-sends the set-address. The position is written before the first bus
write, whatever the bus answers. -/
def Obligations.LineFeedResult : Prop :=
  (∀ s : State, (s.cursorVisible = true ∨ s.cursorBlink = true) →
      exec .lf s = .next { s with newlinePending := true })
  ∧ (∀ s : State, s.cursorVisible = false → s.cursorBlink = false →
      s.busReady (12 + 6 * s.geometry.cols) →
      exec .lf s = .next ({ s with row := (s.row + 1) % s.geometry.rows, col := 0 }.sent
        (newLineTransfers s.geometry ((s.row + 1) % s.geometry.rows))))
  ∧ (∀ s t : State, s.cursorVisible = false → s.cursorBlink = false → exec .lf s = .next t →
      t.row = (s.row + 1) % s.geometry.rows ∧ t.col = 0)

/-- R162: TAB advances 4 columns, or to column 0 of the next row if that reaches or passes the edge, and
always sends the set-address. The position is written before the set-address, whatever the bus answers. -/
def Obligations.TabResult : Prop :=
  (∀ s : State, s.busReady 6 →
    (s.col + 4 < s.geometry.cols →
      exec .tab s = .next ({ s with col := s.col + 4 }.sent [cellTransfer s.geometry s.row (s.col + 4)]))
    ∧ (s.geometry.cols ≤ s.col + 4 →
      exec .tab s = .next ({ s with row := (s.row + 1) % s.geometry.rows, col := 0 }.sent
        [cellTransfer s.geometry ((s.row + 1) % s.geometry.rows) 0])))
  ∧ (∀ s t : State, exec .tab s = .next t →
    (s.col + 4 < s.geometry.cols → t.row = s.row ∧ t.col = s.col + 4)
    ∧ (s.geometry.cols ≤ s.col + 4 → t.row = (s.row + 1) % s.geometry.rows ∧ t.col = 0))

/-- R160: CHAR draws the byte and advances; at the edge it wraps to column 0 of the next row and sends
the set-address, and only then. With a `BusError` in the data byte the position is unchanged; after it the
position is the new one, whatever the bus answers to the set-address. -/
def Obligations.CharResult : Prop :=
  ∀ (s : State) (ch : Byte),
    (s.busReady 6 → s.col + 1 ≠ s.geometry.cols →
      exec (.char ch) s = .next ({ s with col := s.col + 1 }.sent [.data ch]))
    ∧ (s.busReady 12 → s.col + 1 = s.geometry.cols →
      exec (.char ch) s = .next ({ s with row := (s.row + 1) % s.geometry.rows, col := 0 }.sent
        [.data ch, cellTransfer s.geometry ((s.row + 1) % s.geometry.rows) 0]))
    ∧ (∀ t, exec (.char ch) s = .next t → s.neverHangs →
      ((∃ k < 6, s.wire.answerAt k = .busError) → t.row = s.row ∧ t.col = s.col)
      ∧ ((∀ k < 6, s.wire.answerAt k = .ok) →
        (s.col + 1 ≠ s.geometry.cols → t.row = s.row ∧ t.col = s.col + 1)
        ∧ (s.col + 1 = s.geometry.cols → t.row = (s.row + 1) % s.geometry.rows ∧ t.col = 0)))

/-- R161: CUP with the one-step clamp: a column past the edge goes to column 0 of the next row, then a
row past the last goes to row 0; one set-address is sent. The position is written before the set-address,
whatever the bus answers. That CUP leaves a pending sequence as it is is the model's (log 17). -/
def Obligations.CursorPositionResult : Prop :=
  (∀ (s : State) (r c : Nat), s.busReady 6 →
    (c < s.geometry.cols → r < s.geometry.rows →
      exec (.cup r c) s = .next ({ s with row := r, col := c }.sent [cellTransfer s.geometry r c]))
    ∧ (c < s.geometry.cols → s.geometry.rows ≤ r →
      exec (.cup r c) s = .next ({ s with row := 0, col := c }.sent [cellTransfer s.geometry 0 c]))
    ∧ (s.geometry.cols ≤ c → r + 1 < s.geometry.rows →
      exec (.cup r c) s
        = .next ({ s with row := r + 1, col := 0 }.sent [cellTransfer s.geometry (r + 1) 0]))
    ∧ (s.geometry.cols ≤ c → s.geometry.rows ≤ r + 1 →
      exec (.cup r c) s = .next ({ s with row := 0, col := 0 }.sent [cellTransfer s.geometry 0 0])))
  ∧ (∀ (s t : State) (r c : Nat), exec (.cup r c) s = .next t →
    (c < s.geometry.cols → r < s.geometry.rows → t.row = r ∧ t.col = c)
    ∧ (c < s.geometry.cols → s.geometry.rows ≤ r → t.row = 0 ∧ t.col = c)
    ∧ (s.geometry.cols ≤ c → r + 1 < s.geometry.rows → t.row = r + 1 ∧ t.col = 0)
    ∧ (s.geometry.cols ≤ c → s.geometry.rows ≤ r + 1 → t.row = 0 ∧ t.col = 0))

/-- E1 of spec/95_test_vectors.md (R160, R161): on every well-formed geometry and every cell of it, CUP
followed by one CHAR leaves the position one column on, or at column 0 of the next row at the edge. -/
def Obligations.CursorPositionThenCharPosition : Prop :=
  ∀ (s t u : State) (r c : Nat) (ch : Byte), geometryWf s.geometry = true →
    r < s.geometry.rows → c < s.geometry.cols → s.busReady 18 →
    exec (.cup r c) s = .next t → exec (.char ch) t = .next u →
    (u.row, u.col) = if c + 1 = s.geometry.cols then ((r + 1) % s.geometry.rows, 0) else (r, c + 1)

/-- R93, R152, R153: on a well-formed geometry every cell's address fits the 7-bit field, and its
set-address code is 0x80 plus the address. -/
def Obligations.CellAddressesFitTheSetAddressField : Prop :=
  ∀ (s : State) (r c : Nat), geometryWf s.geometry = true → r < s.geometry.rows → c < s.geometry.cols →
    (∃ a, s.geometry.startAddrs[r]? = some a ∧ s.addr r c = a + c)
    ∧ s.addr r c ≤ 0x7F ∧ (s.addrCode r c).toNat = 0x80 + s.addr r c

/-- R61: the cells of the built-in geometries have exactly the addresses listed. -/
def Obligations.BuiltInGeometryAddresses : Prop :=
  (∀ r < 4, ∀ c < 20, startAddr g20x4 r + c =
      (if r = 0 then 0x00 else if r = 1 then 0x40 else if r = 2 then 0x14 else 0x54) + c)
  ∧ (∀ r < 2, ∀ c < 20, startAddr g20x2 r + c = (if r = 0 then 0x00 else 0x40) + c)
  ∧ (∀ r < 2, ∀ c < 16, startAddr g16x2 r + c = (if r = 0 then 0x00 else 0x40) + c)
  ∧ (∀ c < 8, startAddr g8x1 0 + c = c)

/-! ### The escape parser -/

/-- R180, R182, R183: ESC resets the buffer, sets `in_escape` and records itself; in AwaitingBracket a
'[' moves to ReadingParam and is recorded, and any other byte changes nothing. -/
def Obligations.EscapeEntryAndBracketResult : Prop :=
  ∀ s : State,
    (1 ≤ s.cfg.replayCap → exec .esc s = .next { s with
      inEscape := true
      esc := ⟨.awaitingBracket, [], List.replicate s.cfg.maxParams 0, 0, false, [0x1B]⟩ })
    ∧ exec .escLbracket s = .next { s with esc := { s.esc with
        state := .readingParam
        replay := if s.esc.replay.length < s.cfg.replayCap then s.esc.replay ++ [0x5B]
          else s.esc.replay } }
    ∧ (∀ b, exec (.escIgnore b) s = .next s)

/-- R184: a digit is recorded and joins `raw` while there is room for four; a fifth sets `error`. -/
def Obligations.ParameterDigitResult : Prop :=
  ∀ (s : State) (d : Fin 10),
    exec (.escDigit d) s = .next { s with esc := { s.esc with
      raw := if s.esc.raw.length < 4 then s.esc.raw ++ [BitVec.ofNat 8 (0x30 + d.val)] else s.esc.raw
      error := if s.esc.raw.length < 4 then s.esc.error else true
      replay := if s.esc.replay.length < s.cfg.replayCap
        then s.esc.replay ++ [BitVec.ofNat 8 (0x30 + d.val)] else s.esc.replay } }

/-- R185, R186: a ';' is recorded and finalizes the parameter: its value is stored if the text parses and
there is room, `error` is set if not, and `raw` is emptied. -/
def Obligations.ParameterSeparatorResult : Prop :=
  ∀ (s : State),
    exec .escSemi s = .next { s with esc := { s.esc with
      replay := if s.esc.replay.length < s.cfg.replayCap then s.esc.replay ++ [0x3B] else s.esc.replay
      raw := []
      params := match parseParam s.esc.raw with
        | some v => if s.esc.paramCount < s.cfg.maxParams then s.esc.params.set s.esc.paramCount v
          else s.esc.params
        | none => s.esc.params
      paramCount := match parseParam s.esc.raw with
        | some _ => if s.esc.paramCount < s.cfg.maxParams then s.esc.paramCount + 1
          else s.esc.paramCount
        | none => s.esc.paramCount
      error := match parseParam s.esc.raw with
        | some _ => if s.esc.paramCount < s.cfg.maxParams then s.esc.error else true
        | none => true } }

/-- R186: `ParseParam` on digit text: the empty text fails; text with a leading 0 and more digits is
octal, its most significant digit first, and fails if it holds an 8 or a 9; any other text is decimal. -/
def Obligations.ParameterTextValue : Prop :=
  parseParam [] = none
  ∧ (∀ (d : Byte) (t : List Byte), isDigit d = true → (∀ b ∈ t, isDigit b = true) →
      (d = 0x30 → t ≠ [] → (∃ b ∈ t, 0x37 < b.toNat) → parseParam (d :: t) = none)
      ∧ (d = 0x30 → t ≠ [] → (∀ b ∈ t, b.toNat ≤ 0x37) → parseParam (d :: t)
          = some (∑ k : Fin t.length, (t[k].toNat - 0x30) * 8 ^ (t.length - 1 - k.val)))
      ∧ (¬(d = 0x30 ∧ t ≠ []) → parseParam (d :: t)
          = some (∑ k : Fin (d :: t).length,
              ((d :: t)[k].toNat - 0x30) * 10 ^ ((d :: t).length - 1 - k.val))))

/-- R187 to R190: a FINAL byte finalizes the pending parameter, resets the parser, and then: with
`error` set nothing; 'J' with the one parameter 2 clears and homes; 'H' with two parameters sets the
cursor to them, with the clamp of R161; anything else does nothing. -/
def Obligations.FinalByteResult : Prop :=
  ∀ (s : State) (b : Byte), s.busReady 12 →
    let e := if s.esc.raw = [] then s.esc else finalizeParam s.cfg.maxParams s.esc
    let idle : State := { s with esc := escFresh s.cfg.maxParams, inEscape := false }
    let rc := clampCursor s.geometry (e.params.getD 0 0) (e.params.getD 1 0)
    exec (.escFinal b) s = .next
      (if e.error = true then idle
       else if b = 0x4A ∧ e.paramCount = 1 ∧ e.params.getD 0 0 = 2 then
         { idle with row := 0, col := 0 }.sent [.clear, .home]
       else if b = 0x48 ∧ e.paramCount = 2 then
         { idle with row := rc.1, col := rc.2 }.sent [cellTransfer s.geometry rc.1 rc.2]
       else idle)

/-- R187 (D25): after a FINAL byte the parser is idle even if the command failed, and nothing else but
the position changes. R187 to R190: whatever the bus answers, it does exactly what the command it selects, as
`FinalByteResult` selects it, does from the session with the parser reset; so a command that fails leaves the
position where `ClearAndHomeResetThePosition` and `CursorPositionResult` say (V5.7, V5.8). -/
def Obligations.FinalByteAlwaysLeavesTheParserIdle : Prop :=
  (∀ (s t : State) (b : Byte), exec (.escFinal b) s = .next t →
    t = { s with
      esc := escFresh s.cfg.maxParams, inEscape := false, row := t.row, col := t.col,
      running := t.running, result := t.result, wire := t.wire })
  ∧ (∀ (s : State) (b : Byte) (bytes : List Byte),
    let e := if s.esc.raw = [] then s.esc else finalizeParam s.cfg.maxParams s.esc
    let idle : State := { s with esc := escFresh s.cfg.maxParams, inEscape := false }
    exec (.escFinal b) s =
      if e.error = true then exec (.escNoop bytes) idle
      else if b = 0x4A ∧ e.paramCount = 1 ∧ e.params.getD 0 0 = 2 then exec .ed2 idle
      else if b = 0x48 ∧ e.paramCount = 2 then
        exec (.cup (e.params.getD 0 0) (e.params.getD 1 0)) idle
      else exec (.escNoop bytes) idle)

/-- R190: ESC_NOOP, any other finished sequence, changes nothing and sends nothing. That a sequence pending
while it is given whole stays pending is the model's (log 17). -/
def Obligations.NoopSequenceChangesNothing : Prop :=
  ∀ (s : State) (bytes : List Byte), exec (.escNoop bytes) s = .next s

/-- R84, R85, R187 to R190, R194: a finished escape sequence written from an idle session does what the
instruction it decodes to does, whatever its spelling and whatever `MAX_PARAMS` and `REPLAY_CAP` are. So the
least capacities the decoder scans a sequence with (log 13) are of no consequence. -/
def Obligations.WritingASequenceRunsItsInstruction : Prop :=
  ∀ (s t : State) (bytes : List Byte) (i : Instr), s.cfg.wf = true →
    s.inEscape = false → s.newlinePending = false → s.dirty = false → s.running = none →
    s.esc = escFresh s.cfg.maxParams → s.busReady 12 →
    decodeSequence bytes = .instr i → exec i s = .next t →
    exec (.write bytes) s = .next { t with running := none, result := some .ok }

/-- E3 of spec/95_test_vectors.md (R180 to R185, R191, R192): a sequence left pending sends nothing and is
recorded up to `REPLAY_CAP`; `flush` then resets the parser and draws the recorded bytes in order, each
by `writeChar`. Where the record fits on the row and the bus answers ok, that is its bytes sent as data in
order, and the column advanced by their number; `FlushResult` says it byte after byte for the rest. -/
def Obligations.FlushReplaysThePendingSequence : Prop :=
  ∀ (s : State) (body : List Byte), 1 ≤ s.cfg.replayCap → s.neverHangs →
    s.inEscape = false → s.newlinePending = false → s.dirty = false →
    (∀ b ∈ body, isDigit b = true ∨ b = 0x3B) →
    let record : List Byte := (0x1B :: 0x5B :: body).take s.cfg.replayCap
    ∃ t, exec (.write (0x1B :: 0x5B :: body)) s = .next t
      ∧ t.wire = s.wire ∧ t.row = s.row ∧ t.col = s.col ∧ t.inEscape = true
      ∧ t.esc.replay = record
      ∧ exec .flush t = .next (writeChars record
          { t with esc := escFresh s.cfg.maxParams, inEscape := false }).returned
      ∧ (s.col + record.length < s.geometry.cols → s.busReady (6 * record.length) →
        exec .flush t = .next ({ t with
            esc := escFresh s.cfg.maxParams, inEscape := false, col := s.col + record.length,
            running := none, result := some .ok }.sent (record.map Transfer.data)))

/-- R194: `MAX_PARAMS` is not observable: of two states that differ only in it, every step gives two such
states, or the same fault or refusal; so the traces, the position, the flags and the result codes stay
equal. -/
def Obligations.MaxParamsIsNotObservable : Prop :=
  ∀ s t : State, s.SameUpToMaxParams t →
    (∀ s', step s = .next s' → ∃ t', step t = .next t' ∧ s'.SameUpToMaxParams t')
    ∧ (∀ f, step s = .fault f → step t = .fault f)
    ∧ (∀ r, step s = .refused r → step t = .refused r)

/-! ### The dispatcher and the host operations -/

/-- R210, R214, R215 (D12, D29): `write` with no byte still performs the dirty clear and then a pending
newline. -/
def Obligations.EmptyWriteClearsAndCarriesOutTheNewline : Prop :=
  ∀ s : State, s.busReady (18 + 6 * s.geometry.cols) →
    exec (.write []) s = .next
      (let s₁ : State := { s with running := none, result := some .ok }
       let s₂ : State := if s.dirty then { s₁ with dirty := false, row := 0, col := 0 }.sent [.clear] else s₁
       if s.newlinePending then
         { s₂ with newlinePending := false, row := (s₂.row + 1) % s.geometry.rows, col := 0 }.sent
           (newLineTransfers s.geometry ((s₂.row + 1) % s.geometry.rows))
       else s₂)

/-- R210, R160: plain text that fits on the row is sent as its data bytes in order and the column
advances by its length. -/
def Obligations.WriteOfPlainTextResult : Prop :=
  ∀ (s : State) (buf : List Byte), s.dirty = false → s.newlinePending = false → s.inEscape = false →
    (∀ b ∈ buf, b ≠ 0x0D ∧ b ≠ 0x0A ∧ b ≠ 0x1B ∧ b ≠ 0x09) →
    s.col + buf.length < s.geometry.cols → s.busReady (6 * buf.length) →
    exec (.write buf) s = .next
      ({ s with col := s.col + buf.length, running := none, result := some .ok }.sent
        (buf.map Transfer.data))

/-- R210, R284 and E6 (b) of spec/95_test_vectors.md: a `write` of bytes in one call ends as the same
bytes in two calls, if the first call returned Ok and the second has a byte. -/
def Obligations.SplittingAWriteChangesNothing : Prop :=
  ∀ (s t : State) (xs ys : List Byte), s.neverHangs → ys ≠ [] →
    exec (.write xs) s = .next t → t.result = some .ok →
    exec (.write (xs ++ ys)) s = exec (.write ys) t

/-- R216: `print` writes the bytes before the first 0x00, and with no 0x00 it is refused. -/
def Obligations.PrintWritesTheBytesBeforeNul : Prop :=
  (∀ (s : State) (buf rest : List Byte), (0 : Byte) ∉ buf →
      exec (.print (buf ++ 0 :: rest)) s = exec (.write buf) s)
  ∧ (∀ (s : State) (str : List Byte), (0 : Byte) ∉ str →
      exec (.print str) s = .refused .unterminatedString)

/-- R226, R192: `flush` with nothing pending sends nothing and changes nothing; with a newline pending it
carries it out; with a sequence pending it resets the parser and draws the recorded bytes: the first as CHAR
does, ending there if a bus write failed, and then the rest in the same way, with no byte left nothing more.
That CHAR's failure is seen in the field `result` is the model's (log 3).
Where the record fits on the row and the bus answers ok, that is its bytes sent as data in order, and the
column advanced by their number. -/
def Obligations.FlushResult : Prop :=
  (∀ s : State, s.newlinePending = false → s.inEscape = false →
      exec .flush s = .next { s with running := none, result := some .ok })
  ∧ (∀ s : State, s.newlinePending = true → s.inEscape = false →
      s.busReady (12 + 6 * s.geometry.cols) →
      exec .flush s = .next ({ s with
          newlinePending := false,
          row := (s.row + 1) % s.geometry.rows, col := 0, running := none, result := some .ok }.sent
        (newLineTransfers s.geometry ((s.row + 1) % s.geometry.rows))))
  ∧ (∀ s : State, s.newlinePending = false → s.inEscape = true →
      exec .flush s = .next (writeChars s.esc.replay
        { s with esc := escFresh s.cfg.maxParams, inEscape := false }).returned)
  ∧ (∀ s : State, s.newlinePending = false → s.inEscape = true → s.esc.replay = [] →
      exec .flush s = .next { s with
        esc := escFresh s.cfg.maxParams, inEscape := false, running := none, result := some .ok })
  ∧ (∀ (s v : State) (b : Byte) (bs : List Byte), s.neverHangs → s.newlinePending = false →
      s.inEscape = true → s.esc.replay = b :: bs →
      exec (.char b) { s with
          esc := escFresh s.cfg.maxParams, inEscape := false, result := none } = .next v →
      exec .flush s =
        if v.result = some .busError then .next v
        else exec .flush { v with
          inEscape := true, esc := { escFresh s.cfg.maxParams with replay := bs } })
  ∧ (∀ s : State, s.newlinePending = false → s.inEscape = true →
      s.col + s.esc.replay.length < s.geometry.cols → s.busReady (6 * s.esc.replay.length) →
      exec .flush s = .next ({ s with
          esc := escFresh s.cfg.maxParams, inEscape := false, col := s.col + s.esc.replay.length,
          running := none, result := some .ok }.sent (s.esc.replay.map Transfer.data)))

/-- R214, R241: whatever the bus answers, `flush` leaves no newline pending and the parser idle, if the
pending newline, carried out first, did not fail; and nothing but these, the position and the trace
changes. A pending newline has written the position before its first bus write. -/
def Obligations.FlushFrame : Prop :=
  ∀ s t : State, exec .flush s = .next t →
    t = { s with
      newlinePending := false, inEscape := t.inEscape, esc := t.esc, row := t.row,
      col := t.col, wire := t.wire, running := t.running, result := t.result }
    ∧ ((t.inEscape = s.inEscape ∧ t.esc = s.esc)
      ∨ (t.inEscape = false ∧ t.esc = escFresh s.cfg.maxParams))
    ∧ (s.newlinePending = false → t.inEscape = false)
    ∧ (s.newlinePending = true → s.inEscape = false →
      t.row = (s.row + 1) % s.geometry.rows ∧ t.col = 0)

/-- R220: `setGeometry` of a well-formed Geometry, given as a record or by its place among the built-in
ones, resets the parser, takes the geometry, puts the position at (0,0) and clears the screen at once. -/
def Obligations.SetGeometryResult : Prop :=
  ∀ (s : State) (op : GeometryOperand) (g : Geometry),
    resolveGeometry s.cfg op = some g → s.busReady 6 →
    exec (.setGeometry op) s = .next ({ s with
      esc := escFresh s.cfg.maxParams, inEscape := false, newlinePending := false, dirty := false,
      geometry := g, row := 0, col := 0, running := none, result := some .ok }.sent [.clear])

/-- R101, R150: the operands of the host port name the four built-in geometries and any well-formed
record. -/
def Obligations.GeometryOperandsResolve : Prop :=
  ∀ p : Params,
    resolveGeometry p (.entry 0) = some ⟨20, 4, [0x00, 0x40, 0x14, 0x54]⟩
    ∧ resolveGeometry p (.entry 1) = some ⟨20, 2, [0x00, 0x40, 0x00, 0x54]⟩
    ∧ resolveGeometry p (.entry 2) = some ⟨16, 2, [0x00, 0x40]⟩
    ∧ resolveGeometry p (.entry 3) = some ⟨8, 1, [0x00]⟩
    ∧ (∀ k g, p.extraGeometries[k]? = some g → geometryWf g = true →
        resolveGeometry p (.entry (k + 4)) = some g)
    ∧ (∀ g, geometryWf g = true → resolveGeometry p (.record g) = some g)

/-- R220, R241: a `setGeometry` whose clear fails has taken the geometry and the position (0,0) and stays
dirty; nothing else changes. -/
def Obligations.SetGeometryFailureStaysDirty : Prop :=
  ∀ (s t : State) (op : GeometryOperand) (g : Geometry), resolveGeometry s.cfg op = some g →
    exec (.setGeometry op) s = .next t →
    t = { s with
      esc := escFresh s.cfg.maxParams, inEscape := false, newlinePending := false,
      geometry := g, row := 0, col := 0, dirty := t.dirty, wire := t.wire, running := t.running,
      result := t.result }
    ∧ (s.neverHangs → (t.result = some .busError ∧ t.dirty = true)
        ∨ (t.result = some .ok ∧ t.dirty = false))

/-- R222: `setBacklight` sets the flag and makes one bus write of `BL_BIT` or 0, even if the value is
unchanged. -/
def Obligations.SetBacklightResult : Prop :=
  ∀ (s : State) (b : Bool), s.busReady 1 →
    exec (.setBacklight (if b then 1 else 0)) s = .next ({ s with
      backlight := b, running := none, result := some .ok }.extend
        [.write (if b then bitMask s.cfg.latchMap.bl else 0)])

/-- R223, R224, R129: a cursor operation sets its flag and sends the display-control code of both flags,
even if the value is unchanged. -/
def Obligations.CursorFlagsResult : Prop :=
  ∀ (s : State) (b : Bool), s.busReady 6 →
    exec (.setCursorBlink (if b then 1 else 0)) s = .next ({ s with
      cursorBlink := b, running := none, result := some .ok }.sent [.displayCtrl s.cursorVisible b])
    ∧ exec (.setCursorDisplay (if b then 1 else 0)) s = .next ({ s with
      cursorVisible := b, running := none, result := some .ok }.sent [.displayCtrl b s.cursorBlink])

/-! ### Frames -/

/-- R160 to R165, R188, R189, R213: CR, TAB, CHAR, CUP, ED2, CLEAR and HOME change the position, LF the
position or `newline_pending`, and nothing else of the session, whatever the bus answers. That a row given by
itself leaves what is pending as it is is the model's (log 17). -/
def Obligations.PositionInstructionsFrame : Prop :=
  (∀ (s t : State) (i : Instr),
    (i = .cr ∨ i = .tab ∨ (∃ ch, i = .char ch) ∨ (∃ r c, i = .cup r c) ∨ i = .ed2 ∨ i = .clear
      ∨ i = .home) →
    exec i s = .next t →
    t = { s with row := t.row, col := t.col, wire := t.wire, running := t.running, result := t.result })
  ∧ (∀ s t : State, exec .lf s = .next t →
    t = { s with
      row := t.row, col := t.col, newlinePending := t.newlinePending, wire := t.wire,
      running := t.running, result := t.result })

/-- R128: an emitted code, data byte, latch byte or backlight byte writes no session state, whatever the
bus answers. -/
def Obligations.TransferInstructionsFrame : Prop :=
  ∀ (s t : State) (i : Instr),
    ((∃ d bl en rs, i = .latch d bl en rs) ∨ (∃ b, i = .backlightCtl b) ∨ i = .entryInc
      ∨ (∃ c b, i = .displayCtrl c b) ∨ (∃ w, i = .fset8BitHno w) ∨ i = .fset4BitHno
      ∨ i = .fset4Bit2Line ∨ (∃ a, i = .setDdram a) ∨ (∃ v, i = .data v)) →
    exec i s = .next t →
    t = { s with wire := t.wire, running := t.running, result := t.result }

/-- R210, R216: `write` and `print` leave `geometry`, `backlight` and both cursor flags as they are,
whatever the bus answers, and never set `dirty`; where they return Ok, `dirty` is false. R215: a `BusError`
in the dirty clear leaves `dirty` set and the position unchanged. R214: a `BusError` in the pending newline
that they carry out leaves `newline_pending` false and the position moved, so it does not run again. -/
def Obligations.WriteFrame : Prop :=
  ∀ (s t : State) (buf : List Byte), exec (.write buf) s = .next t ∨ exec (.print buf) s = .next t →
    t = { s with
      row := t.row, col := t.col, inEscape := t.inEscape, esc := t.esc, dirty := t.dirty,
      newlinePending := t.newlinePending, wire := t.wire, running := t.running, result := t.result }
    ∧ (t.dirty = true → s.dirty = true)
    ∧ (t.wire.hung = false → t.result = some .ok → t.dirty = false)
    ∧ (s.neverHangs → s.dirty = true → (∃ k < 6, s.wire.answerAt k = .busError) →
      t.result = some .busError ∧ t.dirty = true ∧ t.row = s.row ∧ t.col = s.col
      ∧ t.newlinePending = s.newlinePending)
    ∧ (s.neverHangs → s.dirty = false → s.newlinePending = true →
      (∃ k < 12 + 6 * s.geometry.cols, s.wire.answerAt k = .busError) →
      t.result = some .busError ∧ t.newlinePending = false
      ∧ t.row = (s.row + 1) % s.geometry.rows ∧ t.col = 0)

/-- R222 to R224, R241 (c): the backlight and cursor operations have written their flag even where the bus
write fails, and change nothing else of the session. -/
def Obligations.ControlBitOperationsFrame : Prop :=
  ∀ (s t : State) (b : Bool),
    (exec (.setBacklight (if b then 1 else 0)) s = .next t →
      t = { s with backlight := b, wire := t.wire, running := t.running, result := t.result })
    ∧ (exec (.setCursorBlink (if b then 1 else 0)) s = .next t →
      t = { s with cursorBlink := b, wire := t.wire, running := t.running, result := t.result })
    ∧ (exec (.setCursorDisplay (if b then 1 else 0)) s = .next t →
      t = { s with cursorVisible := b, wire := t.wire, running := t.running, result := t.result })

/-! ### Whole-machine rules -/

/-- R39, R21, R33, R35, R36, R37: each control register is written only by its own operation, and by
`initializeDisplay` for the cursor flags; only `setGeometry` sets `dirty`; the parameters are never
written. -/
def Obligations.ControlRegistersHaveTheirOwnWriters : Prop :=
  ∀ (s t : State) (i : Instr), exec i s = .next t →
    (t.geometry ≠ s.geometry → ∃ g, i = .setGeometry g)
    ∧ (t.backlight ≠ s.backlight → ∃ b, i = .setBacklight b)
    ∧ (t.cursorVisible ≠ s.cursorVisible → i = .initializeDisplay ∨ ∃ b, i = .setCursorDisplay b)
    ∧ (t.cursorBlink ≠ s.cursorBlink → i = .initializeDisplay ∨ ∃ b, i = .setCursorBlink b)
    ∧ (s.dirty = false → t.dirty = true → ∃ g, i = .setGeometry g)
    ∧ t.cfg = s.cfg

/-- R67: an instruction only appends to the trace. The answers and their count are the model's own fields
(log 1), and so is where a primitive hangs (log 2): each bus write uses up one answer and counts one, and
what the environment has still to decide is untouched. -/
def Obligations.TraceOnlyGrows : Prop :=
  ∀ (s t : State) (i : Instr), exec i s = .next t →
    ∃ es, t.wire.trace = s.wire.trace ++ es ∧ t.wire.answers = s.wire.answers.drop (busWrites es)
      ∧ t.wire.writes = s.wire.writes + busWrites es ∧ t.wire.hangAt = s.wire.hangAt

/-- R95, R125, R241 (d): whatever an instruction other than LATCH sends is an initial part of whole
transfers from the closed list of R92, data bytes and backlight bytes, each with its wait; and a host
operation that returns Ok sent them whole. -/
def Obligations.OnlyListedTransfersReachTheBus : Prop :=
  ∀ (s t : State) (i : Instr), i.port ≠ .latch → exec i s = .next t →
    ∃ (ts : List Transfer) (es rest : List Event), t.wire.trace = s.wire.trace ++ es
      ∧ es ++ rest = transferEvents s.cfg.latchMap s.backlight ts
      ∧ (i.port = .host → t.wire.hung = false → t.result = some .ok → rest = [])

/-- R90, R120: on a latch map of four distinct bits, every byte any instruction writes has RW clear, and,
unless the instruction is a backlight control byte, BL equal to the backlight bit as it then is. -/
def Obligations.EveryBusByteIsAWriteWithTheBacklightBit : Prop :=
  ∀ (s t : State) (i : Instr) (es : List Event) (b : Byte), s.cfg.latchMap.distinct = true →
    exec i s = .next t → t.wire.trace = s.wire.trace ++ es → .write b ∈ es →
    b.getLsbD s.cfg.latchMap.rw = false
    ∧ ((∀ v, i ≠ .backlightCtl v) → b.getLsbD s.cfg.latchMap.bl = t.backlight)

/-- R242, R87: every well-formed instruction but a reserved selector answers a next state, in every
state and whatever the bus answers. -/
def Obligations.WellFormedInstructionsAlwaysAnswerNext : Prop :=
  ∀ (s : State) (i : Instr), i.wf s.cfg = true → (∀ k, i ≠ .hostReserved k) → ∃ t, exec i s = .next t

/-- R244, R241 (b), (d), R247: where no primitive hangs, a host operation that has a meaning returns Ok, or
returns `BusError` with the failed bus write as the last event; either way no operation is in progress.
That the result code is a field of State is the model's (log 3), and so is the second clause: a part of an
operation, run by itself, leaves the byte loop and the result code as they are, or ends the operation with
`BusError`, again right after the failed bus write. -/
def Obligations.OperationsReturnOkOrBusError : Prop :=
  (∀ (s t : State) (i : Instr), i.port = .host → s.neverHangs → exec i s = .next t →
    t.running = none
    ∧ (t.result = some .ok
      ∨ (t.result = some .busError ∧ ∃ b, t.wire.trace.getLast? = some (.write b))))
  ∧ (∀ (s t : State) (i : Instr), i.port ≠ .host → exec i s = .next t →
    (t.running = s.running ∧ t.result = s.result)
    ∨ (t.running = none ∧ t.result = some .busError ∧ ∃ b, t.wire.trace.getLast? = some (.write b)))

/-- R286: the bus writes each operation adds to the trace and the least time they and their waits take, in
nanoseconds, where the bus answers ok. `setGeometry` sends one `clearDisplay`; an immediate LF is
`newLine`. -/
def Obligations.TransferDurations : Prop :=
  ∀ s : State,
    (∀ n rs, busWrites (nibbleEvents s n rs) = 3 ∧ minDuration (nibbleEvents s n rs) = 540)
    ∧ (s.busReady 1 → ∀ b : Bool, Takes (.setBacklight (if b then 1 else 0)) s 1 0)
    ∧ (s.busReady 6 →
      Takes .clear s 6 1641080 ∧ Takes .home s 6 1641080
      ∧ Takes .entryInc s 6 38080 ∧ Takes .fset4Bit2Line s 6 38080
      ∧ (∀ c b, Takes (.displayCtrl c b) s 6 38080) ∧ (∀ a, Takes (.setDdram a) s 6 38080)
      ∧ (∀ v, Takes (.data v) s 6 42080)
      ∧ Takes .cr s 6 38080 ∧ Takes .tab s 6 38080 ∧ (∀ r c, Takes (.cup r c) s 6 38080)
      ∧ (∀ b : Bool, Takes (.setCursorBlink (if b then 1 else 0)) s 6 38080
        ∧ Takes (.setCursorDisplay (if b then 1 else 0)) s 6 38080)
      ∧ (∀ op g, resolveGeometry s.cfg op = some g → Takes (.setGeometry op) s 6 1641080)
      ∧ (s.col + 1 ≠ s.geometry.cols → ∀ ch, Takes (.char ch) s 6 42080))
    ∧ (s.busReady 12 →
      Takes .ed2 s 12 3282160
      ∧ (s.col + 1 = s.geometry.cols → ∀ ch, Takes (.char ch) s 12 80160))
    ∧ (s.busReady (12 + 6 * s.geometry.cols) → s.cursorVisible = false → s.cursorBlink = false →
      Takes .lf s (12 + 6 * s.geometry.cols) (76160 + 42080 * s.geometry.cols))
    ∧ (s.busReady 36 → Takes .initializeDisplay s 36 6931480)
end

