-- ==== Sys2Proof/Laws/State.lean ====
section
/-! SUPPORT. One lemma for each field of State and each named update of it, true by rfl, so that no proof
unfolds a record update. -/

namespace Sys2Proof.Machine

open Sys2Proof

variable (s : State)

/-! ### State.extend -/

@[simp] theorem State.extend_geometry (es : List Event) : (s.extend es).geometry = s.geometry := rfl
@[simp] theorem State.extend_row (es : List Event) : (s.extend es).row = s.row := rfl
@[simp] theorem State.extend_col (es : List Event) : (s.extend es).col = s.col := rfl
@[simp] theorem State.extend_inEscape (es : List Event) : (s.extend es).inEscape = s.inEscape := rfl
@[simp] theorem State.extend_esc (es : List Event) : (s.extend es).esc = s.esc := rfl
@[simp] theorem State.extend_dirty (es : List Event) : (s.extend es).dirty = s.dirty := rfl
@[simp] theorem State.extend_newlinePending (es : List Event) : (s.extend es).newlinePending = s.newlinePending := rfl
@[simp] theorem State.extend_backlight (es : List Event) : (s.extend es).backlight = s.backlight := rfl
@[simp] theorem State.extend_cursorVisible (es : List Event) : (s.extend es).cursorVisible = s.cursorVisible := rfl
@[simp] theorem State.extend_cursorBlink (es : List Event) : (s.extend es).cursorBlink = s.cursorBlink := rfl
@[simp] theorem State.extend_running (es : List Event) : (s.extend es).running = s.running := rfl
@[simp] theorem State.extend_cfg (es : List Event) : (s.extend es).cfg = s.cfg := rfl
@[simp] theorem State.extend_wire (es : List Event) : (s.extend es).wire = s.wire.extend es := rfl
@[simp] theorem State.extend_result (es : List Event) : (s.extend es).result = s.result := rfl
@[simp] theorem State.extend_inbox (es : List Event) : (s.extend es).inbox = s.inbox := rfl

/-! ### State.hang -/

@[simp] theorem State.hang_geometry : (s.hang).geometry = s.geometry := rfl
@[simp] theorem State.hang_row : (s.hang).row = s.row := rfl
@[simp] theorem State.hang_col : (s.hang).col = s.col := rfl
@[simp] theorem State.hang_inEscape : (s.hang).inEscape = s.inEscape := rfl
@[simp] theorem State.hang_esc : (s.hang).esc = s.esc := rfl
@[simp] theorem State.hang_dirty : (s.hang).dirty = s.dirty := rfl
@[simp] theorem State.hang_newlinePending : (s.hang).newlinePending = s.newlinePending := rfl
@[simp] theorem State.hang_backlight : (s.hang).backlight = s.backlight := rfl
@[simp] theorem State.hang_cursorVisible : (s.hang).cursorVisible = s.cursorVisible := rfl
@[simp] theorem State.hang_cursorBlink : (s.hang).cursorBlink = s.cursorBlink := rfl
@[simp] theorem State.hang_running : (s.hang).running = s.running := rfl
@[simp] theorem State.hang_cfg : (s.hang).cfg = s.cfg := rfl
@[simp] theorem State.hang_wire : (s.hang).wire = { s.wire with hung := true } := rfl
@[simp] theorem State.hang_result : (s.hang).result = s.result := rfl
@[simp] theorem State.hang_inbox : (s.hang).inbox = s.inbox := rfl

/-! ### State.moveTo -/

@[simp] theorem State.moveTo_geometry (r c : Nat) : (s.moveTo r c).geometry = s.geometry := rfl
@[simp] theorem State.moveTo_row (r c : Nat) : (s.moveTo r c).row = r := rfl
@[simp] theorem State.moveTo_col (r c : Nat) : (s.moveTo r c).col = c := rfl
@[simp] theorem State.moveTo_inEscape (r c : Nat) : (s.moveTo r c).inEscape = s.inEscape := rfl
@[simp] theorem State.moveTo_esc (r c : Nat) : (s.moveTo r c).esc = s.esc := rfl
@[simp] theorem State.moveTo_dirty (r c : Nat) : (s.moveTo r c).dirty = s.dirty := rfl
@[simp] theorem State.moveTo_newlinePending (r c : Nat) : (s.moveTo r c).newlinePending = s.newlinePending := rfl
@[simp] theorem State.moveTo_backlight (r c : Nat) : (s.moveTo r c).backlight = s.backlight := rfl
@[simp] theorem State.moveTo_cursorVisible (r c : Nat) : (s.moveTo r c).cursorVisible = s.cursorVisible := rfl
@[simp] theorem State.moveTo_cursorBlink (r c : Nat) : (s.moveTo r c).cursorBlink = s.cursorBlink := rfl
@[simp] theorem State.moveTo_running (r c : Nat) : (s.moveTo r c).running = s.running := rfl
@[simp] theorem State.moveTo_cfg (r c : Nat) : (s.moveTo r c).cfg = s.cfg := rfl
@[simp] theorem State.moveTo_wire (r c : Nat) : (s.moveTo r c).wire = s.wire := rfl
@[simp] theorem State.moveTo_result (r c : Nat) : (s.moveTo r c).result = s.result := rfl
@[simp] theorem State.moveTo_inbox (r c : Nat) : (s.moveTo r c).inbox = s.inbox := rfl

/-! ### State.escReset -/

@[simp] theorem State.escReset_geometry : (s.escReset).geometry = s.geometry := rfl
@[simp] theorem State.escReset_row : (s.escReset).row = s.row := rfl
@[simp] theorem State.escReset_col : (s.escReset).col = s.col := rfl
@[simp] theorem State.escReset_inEscape : (s.escReset).inEscape = s.inEscape := rfl
@[simp] theorem State.escReset_esc : (s.escReset).esc = escFresh s.cfg.maxParams := rfl
@[simp] theorem State.escReset_dirty : (s.escReset).dirty = s.dirty := rfl
@[simp] theorem State.escReset_newlinePending : (s.escReset).newlinePending = s.newlinePending := rfl
@[simp] theorem State.escReset_backlight : (s.escReset).backlight = s.backlight := rfl
@[simp] theorem State.escReset_cursorVisible : (s.escReset).cursorVisible = s.cursorVisible := rfl
@[simp] theorem State.escReset_cursorBlink : (s.escReset).cursorBlink = s.cursorBlink := rfl
@[simp] theorem State.escReset_running : (s.escReset).running = s.running := rfl
@[simp] theorem State.escReset_cfg : (s.escReset).cfg = s.cfg := rfl
@[simp] theorem State.escReset_wire : (s.escReset).wire = s.wire := rfl
@[simp] theorem State.escReset_result : (s.escReset).result = s.result := rfl
@[simp] theorem State.escReset_inbox : (s.escReset).inbox = s.inbox := rfl

/-! ### State.parserIdle -/

@[simp] theorem State.parserIdle_geometry : (s.parserIdle).geometry = s.geometry := rfl
@[simp] theorem State.parserIdle_row : (s.parserIdle).row = s.row := rfl
@[simp] theorem State.parserIdle_col : (s.parserIdle).col = s.col := rfl
@[simp] theorem State.parserIdle_inEscape : (s.parserIdle).inEscape = false := rfl
@[simp] theorem State.parserIdle_esc : (s.parserIdle).esc = escFresh s.cfg.maxParams := rfl
@[simp] theorem State.parserIdle_dirty : (s.parserIdle).dirty = s.dirty := rfl
@[simp] theorem State.parserIdle_newlinePending : (s.parserIdle).newlinePending = s.newlinePending := rfl
@[simp] theorem State.parserIdle_backlight : (s.parserIdle).backlight = s.backlight := rfl
@[simp] theorem State.parserIdle_cursorVisible : (s.parserIdle).cursorVisible = s.cursorVisible := rfl
@[simp] theorem State.parserIdle_cursorBlink : (s.parserIdle).cursorBlink = s.cursorBlink := rfl
@[simp] theorem State.parserIdle_running : (s.parserIdle).running = s.running := rfl
@[simp] theorem State.parserIdle_cfg : (s.parserIdle).cfg = s.cfg := rfl
@[simp] theorem State.parserIdle_wire : (s.parserIdle).wire = s.wire := rfl
@[simp] theorem State.parserIdle_result : (s.parserIdle).result = s.result := rfl
@[simp] theorem State.parserIdle_inbox : (s.parserIdle).inbox = s.inbox := rfl

/-! ### State.beginLoop -/

@[simp] theorem State.beginLoop_geometry (buf : List Byte) : (s.beginLoop buf).geometry = s.geometry := rfl
@[simp] theorem State.beginLoop_row (buf : List Byte) : (s.beginLoop buf).row = s.row := rfl
@[simp] theorem State.beginLoop_col (buf : List Byte) : (s.beginLoop buf).col = s.col := rfl
@[simp] theorem State.beginLoop_inEscape (buf : List Byte) : (s.beginLoop buf).inEscape = s.inEscape := rfl
@[simp] theorem State.beginLoop_esc (buf : List Byte) : (s.beginLoop buf).esc = s.esc := rfl
@[simp] theorem State.beginLoop_dirty (buf : List Byte) : (s.beginLoop buf).dirty = s.dirty := rfl
@[simp] theorem State.beginLoop_newlinePending (buf : List Byte) : (s.beginLoop buf).newlinePending = s.newlinePending := rfl
@[simp] theorem State.beginLoop_backlight (buf : List Byte) : (s.beginLoop buf).backlight = s.backlight := rfl
@[simp] theorem State.beginLoop_cursorVisible (buf : List Byte) : (s.beginLoop buf).cursorVisible = s.cursorVisible := rfl
@[simp] theorem State.beginLoop_cursorBlink (buf : List Byte) : (s.beginLoop buf).cursorBlink = s.cursorBlink := rfl
@[simp] theorem State.beginLoop_running (buf : List Byte) : (s.beginLoop buf).running = some ⟨buf, 0⟩ := rfl
@[simp] theorem State.beginLoop_cfg (buf : List Byte) : (s.beginLoop buf).cfg = s.cfg := rfl
@[simp] theorem State.beginLoop_wire (buf : List Byte) : (s.beginLoop buf).wire = s.wire := rfl
@[simp] theorem State.beginLoop_result (buf : List Byte) : (s.beginLoop buf).result = s.result := rfl
@[simp] theorem State.beginLoop_inbox (buf : List Byte) : (s.beginLoop buf).inbox = s.inbox := rfl

/-! ### State.advanceIndex -/

@[simp] theorem State.advanceIndex_geometry : (s.advanceIndex).geometry = s.geometry := rfl
@[simp] theorem State.advanceIndex_row : (s.advanceIndex).row = s.row := rfl
@[simp] theorem State.advanceIndex_col : (s.advanceIndex).col = s.col := rfl
@[simp] theorem State.advanceIndex_inEscape : (s.advanceIndex).inEscape = s.inEscape := rfl
@[simp] theorem State.advanceIndex_esc : (s.advanceIndex).esc = s.esc := rfl
@[simp] theorem State.advanceIndex_dirty : (s.advanceIndex).dirty = s.dirty := rfl
@[simp] theorem State.advanceIndex_newlinePending : (s.advanceIndex).newlinePending = s.newlinePending := rfl
@[simp] theorem State.advanceIndex_backlight : (s.advanceIndex).backlight = s.backlight := rfl
@[simp] theorem State.advanceIndex_cursorVisible : (s.advanceIndex).cursorVisible = s.cursorVisible := rfl
@[simp] theorem State.advanceIndex_cursorBlink : (s.advanceIndex).cursorBlink = s.cursorBlink := rfl
@[simp] theorem State.advanceIndex_running : (s.advanceIndex).running = s.running.map fun w => { w with index := w.index + 1 } := rfl
@[simp] theorem State.advanceIndex_cfg : (s.advanceIndex).cfg = s.cfg := rfl
@[simp] theorem State.advanceIndex_wire : (s.advanceIndex).wire = s.wire := rfl
@[simp] theorem State.advanceIndex_result : (s.advanceIndex).result = s.result := rfl
@[simp] theorem State.advanceIndex_inbox : (s.advanceIndex).inbox = s.inbox := rfl

/-! ### State.initialized -/

@[simp] theorem State.initialized_geometry : (s.initialized).geometry = s.geometry := rfl
@[simp] theorem State.initialized_row : (s.initialized).row = s.row := rfl
@[simp] theorem State.initialized_col : (s.initialized).col = s.col := rfl
@[simp] theorem State.initialized_inEscape : (s.initialized).inEscape = false := rfl
@[simp] theorem State.initialized_esc : (s.initialized).esc = escFresh s.cfg.maxParams := rfl
@[simp] theorem State.initialized_dirty : (s.initialized).dirty = false := rfl
@[simp] theorem State.initialized_newlinePending : (s.initialized).newlinePending = false := rfl
@[simp] theorem State.initialized_backlight : (s.initialized).backlight = s.backlight := rfl
@[simp] theorem State.initialized_cursorVisible : (s.initialized).cursorVisible = true := rfl
@[simp] theorem State.initialized_cursorBlink : (s.initialized).cursorBlink = true := rfl
@[simp] theorem State.initialized_running : (s.initialized).running = s.running := rfl
@[simp] theorem State.initialized_cfg : (s.initialized).cfg = s.cfg := rfl
@[simp] theorem State.initialized_wire : (s.initialized).wire = s.wire := rfl
@[simp] theorem State.initialized_result : (s.initialized).result = s.result := rfl
@[simp] theorem State.initialized_inbox : (s.initialized).inbox = s.inbox := rfl

/-! ### State.withGeometry -/

@[simp] theorem State.withGeometry_geometry (g : Geometry) : (s.withGeometry g).geometry = g := rfl
@[simp] theorem State.withGeometry_row (g : Geometry) : (s.withGeometry g).row = 0 := rfl
@[simp] theorem State.withGeometry_col (g : Geometry) : (s.withGeometry g).col = 0 := rfl
@[simp] theorem State.withGeometry_inEscape (g : Geometry) : (s.withGeometry g).inEscape = false := rfl
@[simp] theorem State.withGeometry_esc (g : Geometry) : (s.withGeometry g).esc = escFresh s.cfg.maxParams := rfl
@[simp] theorem State.withGeometry_dirty (g : Geometry) : (s.withGeometry g).dirty = true := rfl
@[simp] theorem State.withGeometry_newlinePending (g : Geometry) : (s.withGeometry g).newlinePending = false := rfl
@[simp] theorem State.withGeometry_backlight (g : Geometry) : (s.withGeometry g).backlight = s.backlight := rfl
@[simp] theorem State.withGeometry_cursorVisible (g : Geometry) : (s.withGeometry g).cursorVisible = s.cursorVisible := rfl
@[simp] theorem State.withGeometry_cursorBlink (g : Geometry) : (s.withGeometry g).cursorBlink = s.cursorBlink := rfl
@[simp] theorem State.withGeometry_running (g : Geometry) : (s.withGeometry g).running = s.running := rfl
@[simp] theorem State.withGeometry_cfg (g : Geometry) : (s.withGeometry g).cfg = s.cfg := rfl
@[simp] theorem State.withGeometry_wire (g : Geometry) : (s.withGeometry g).wire = s.wire := rfl
@[simp] theorem State.withGeometry_result (g : Geometry) : (s.withGeometry g).result = s.result := rfl
@[simp] theorem State.withGeometry_inbox (g : Geometry) : (s.withGeometry g).inbox = s.inbox := rfl

/-! ### State.takeBusError -/

@[simp] theorem State.takeBusError_geometry : (s.takeBusError).geometry = s.geometry := rfl
@[simp] theorem State.takeBusError_row : (s.takeBusError).row = s.row := rfl
@[simp] theorem State.takeBusError_col : (s.takeBusError).col = s.col := rfl
@[simp] theorem State.takeBusError_inEscape : (s.takeBusError).inEscape = s.inEscape := rfl
@[simp] theorem State.takeBusError_esc : (s.takeBusError).esc = s.esc := rfl
@[simp] theorem State.takeBusError_dirty : (s.takeBusError).dirty = s.dirty := rfl
@[simp] theorem State.takeBusError_newlinePending : (s.takeBusError).newlinePending = s.newlinePending := rfl
@[simp] theorem State.takeBusError_backlight : (s.takeBusError).backlight = s.backlight := rfl
@[simp] theorem State.takeBusError_cursorVisible : (s.takeBusError).cursorVisible = s.cursorVisible := rfl
@[simp] theorem State.takeBusError_cursorBlink : (s.takeBusError).cursorBlink = s.cursorBlink := rfl
@[simp] theorem State.takeBusError_running : (s.takeBusError).running = none := rfl
@[simp] theorem State.takeBusError_cfg : (s.takeBusError).cfg = s.cfg := rfl
@[simp] theorem State.takeBusError_wire : (s.takeBusError).wire = s.wire := rfl
@[simp] theorem State.takeBusError_result : (s.takeBusError).result = some .busError := rfl
@[simp] theorem State.takeBusError_inbox : (s.takeBusError).inbox = s.inbox := rfl

/-! ### State.returnOk -/

@[simp] theorem State.returnOk_geometry : (s.returnOk).geometry = s.geometry := rfl
@[simp] theorem State.returnOk_row : (s.returnOk).row = s.row := rfl
@[simp] theorem State.returnOk_col : (s.returnOk).col = s.col := rfl
@[simp] theorem State.returnOk_inEscape : (s.returnOk).inEscape = s.inEscape := rfl
@[simp] theorem State.returnOk_esc : (s.returnOk).esc = s.esc := rfl
@[simp] theorem State.returnOk_dirty : (s.returnOk).dirty = s.dirty := rfl
@[simp] theorem State.returnOk_newlinePending : (s.returnOk).newlinePending = s.newlinePending := rfl
@[simp] theorem State.returnOk_backlight : (s.returnOk).backlight = s.backlight := rfl
@[simp] theorem State.returnOk_cursorVisible : (s.returnOk).cursorVisible = s.cursorVisible := rfl
@[simp] theorem State.returnOk_cursorBlink : (s.returnOk).cursorBlink = s.cursorBlink := rfl
@[simp] theorem State.returnOk_running : (s.returnOk).running = none := rfl
@[simp] theorem State.returnOk_cfg : (s.returnOk).cfg = s.cfg := rfl
@[simp] theorem State.returnOk_wire : (s.returnOk).wire = s.wire := rfl
@[simp] theorem State.returnOk_result : (s.returnOk).result = some .ok := rfl
@[simp] theorem State.returnOk_inbox : (s.returnOk).inbox = s.inbox := rfl

/-! ### escEnter -/

@[simp] theorem escEnter_geometry : (escEnter s).geometry = s.geometry := rfl
@[simp] theorem escEnter_row : (escEnter s).row = s.row := rfl
@[simp] theorem escEnter_col : (escEnter s).col = s.col := rfl
@[simp] theorem escEnter_inEscape : (escEnter s).inEscape = true := rfl
@[simp] theorem escEnter_esc : (escEnter s).esc = replayAppend s.cfg.replayCap chEsc (escFresh s.cfg.maxParams) := rfl
@[simp] theorem escEnter_dirty : (escEnter s).dirty = s.dirty := rfl
@[simp] theorem escEnter_newlinePending : (escEnter s).newlinePending = s.newlinePending := rfl
@[simp] theorem escEnter_backlight : (escEnter s).backlight = s.backlight := rfl
@[simp] theorem escEnter_cursorVisible : (escEnter s).cursorVisible = s.cursorVisible := rfl
@[simp] theorem escEnter_cursorBlink : (escEnter s).cursorBlink = s.cursorBlink := rfl
@[simp] theorem escEnter_running : (escEnter s).running = s.running := rfl
@[simp] theorem escEnter_cfg : (escEnter s).cfg = s.cfg := rfl
@[simp] theorem escEnter_wire : (escEnter s).wire = s.wire := rfl
@[simp] theorem escEnter_result : (escEnter s).result = s.result := rfl
@[simp] theorem escEnter_inbox : (escEnter s).inbox = s.inbox := rfl

/-! ### escBracket -/

@[simp] theorem escBracket_geometry : (escBracket s).geometry = s.geometry := rfl
@[simp] theorem escBracket_row : (escBracket s).row = s.row := rfl
@[simp] theorem escBracket_col : (escBracket s).col = s.col := rfl
@[simp] theorem escBracket_inEscape : (escBracket s).inEscape = s.inEscape := rfl
@[simp] theorem escBracket_esc : (escBracket s).esc = bracketStep s.cfg s.esc := rfl
@[simp] theorem escBracket_dirty : (escBracket s).dirty = s.dirty := rfl
@[simp] theorem escBracket_newlinePending : (escBracket s).newlinePending = s.newlinePending := rfl
@[simp] theorem escBracket_backlight : (escBracket s).backlight = s.backlight := rfl
@[simp] theorem escBracket_cursorVisible : (escBracket s).cursorVisible = s.cursorVisible := rfl
@[simp] theorem escBracket_cursorBlink : (escBracket s).cursorBlink = s.cursorBlink := rfl
@[simp] theorem escBracket_running : (escBracket s).running = s.running := rfl
@[simp] theorem escBracket_cfg : (escBracket s).cfg = s.cfg := rfl
@[simp] theorem escBracket_wire : (escBracket s).wire = s.wire := rfl
@[simp] theorem escBracket_result : (escBracket s).result = s.result := rfl
@[simp] theorem escBracket_inbox : (escBracket s).inbox = s.inbox := rfl

/-! ### escDigitOp -/

@[simp] theorem escDigitOp_geometry (b : Byte) : (escDigitOp b s).geometry = s.geometry := rfl
@[simp] theorem escDigitOp_row (b : Byte) : (escDigitOp b s).row = s.row := rfl
@[simp] theorem escDigitOp_col (b : Byte) : (escDigitOp b s).col = s.col := rfl
@[simp] theorem escDigitOp_inEscape (b : Byte) : (escDigitOp b s).inEscape = s.inEscape := rfl
@[simp] theorem escDigitOp_esc (b : Byte) : (escDigitOp b s).esc = digitStep s.cfg b s.esc := rfl
@[simp] theorem escDigitOp_dirty (b : Byte) : (escDigitOp b s).dirty = s.dirty := rfl
@[simp] theorem escDigitOp_newlinePending (b : Byte) : (escDigitOp b s).newlinePending = s.newlinePending := rfl
@[simp] theorem escDigitOp_backlight (b : Byte) : (escDigitOp b s).backlight = s.backlight := rfl
@[simp] theorem escDigitOp_cursorVisible (b : Byte) : (escDigitOp b s).cursorVisible = s.cursorVisible := rfl
@[simp] theorem escDigitOp_cursorBlink (b : Byte) : (escDigitOp b s).cursorBlink = s.cursorBlink := rfl
@[simp] theorem escDigitOp_running (b : Byte) : (escDigitOp b s).running = s.running := rfl
@[simp] theorem escDigitOp_cfg (b : Byte) : (escDigitOp b s).cfg = s.cfg := rfl
@[simp] theorem escDigitOp_wire (b : Byte) : (escDigitOp b s).wire = s.wire := rfl
@[simp] theorem escDigitOp_result (b : Byte) : (escDigitOp b s).result = s.result := rfl
@[simp] theorem escDigitOp_inbox (b : Byte) : (escDigitOp b s).inbox = s.inbox := rfl

/-! ### escSemiOp -/

@[simp] theorem escSemiOp_geometry : (escSemiOp s).geometry = s.geometry := rfl
@[simp] theorem escSemiOp_row : (escSemiOp s).row = s.row := rfl
@[simp] theorem escSemiOp_col : (escSemiOp s).col = s.col := rfl
@[simp] theorem escSemiOp_inEscape : (escSemiOp s).inEscape = s.inEscape := rfl
@[simp] theorem escSemiOp_esc : (escSemiOp s).esc = semiStep s.cfg s.esc := rfl
@[simp] theorem escSemiOp_dirty : (escSemiOp s).dirty = s.dirty := rfl
@[simp] theorem escSemiOp_newlinePending : (escSemiOp s).newlinePending = s.newlinePending := rfl
@[simp] theorem escSemiOp_backlight : (escSemiOp s).backlight = s.backlight := rfl
@[simp] theorem escSemiOp_cursorVisible : (escSemiOp s).cursorVisible = s.cursorVisible := rfl
@[simp] theorem escSemiOp_cursorBlink : (escSemiOp s).cursorBlink = s.cursorBlink := rfl
@[simp] theorem escSemiOp_running : (escSemiOp s).running = s.running := rfl
@[simp] theorem escSemiOp_cfg : (escSemiOp s).cfg = s.cfg := rfl
@[simp] theorem escSemiOp_wire : (escSemiOp s).wire = s.wire := rfl
@[simp] theorem escSemiOp_result : (escSemiOp s).result = s.result := rfl
@[simp] theorem escSemiOp_inbox : (escSemiOp s).inbox = s.inbox := rfl

/-! ### Bytes and events computed from the state

They read only the latch map, the backlight, the geometry and the cursor flags. -/

@[simp] theorem latch_extend (es : List Event) : (s.extend es).latch = s.latch := rfl
@[simp] theorem latch_moveTo (r c : Nat) : (s.moveTo r c).latch = s.latch := rfl
@[simp] theorem nibbleEvents_extend (es : List Event) : nibbleEvents (s.extend es) = nibbleEvents s := rfl
@[simp] theorem nibbleEvents_moveTo (r c : Nat) : nibbleEvents (s.moveTo r c) = nibbleEvents s := rfl
@[simp] theorem instructionEvents_extend (es : List Event) :
    instructionEvents (s.extend es) = instructionEvents s := rfl
@[simp] theorem instructionEvents_moveTo (r c : Nat) :
    instructionEvents (s.moveTo r c) = instructionEvents s := rfl
@[simp] theorem dataEvents_extend (es : List Event) : dataEvents (s.extend es) = dataEvents s := rfl
@[simp] theorem dataEvents_moveTo (r c : Nat) : dataEvents (s.moveTo r c) = dataEvents s := rfl
@[simp] theorem highNibbleEvents_extend (es : List Event) :
    highNibbleEvents (s.extend es) = highNibbleEvents s := rfl
@[simp] theorem highNibbleEvents_moveTo (r c : Nat) :
    highNibbleEvents (s.moveTo r c) = highNibbleEvents s := rfl
@[simp] theorem setAddrEvents_extend (es : List Event) : setAddrEvents (s.extend es) = setAddrEvents s := rfl
@[simp] theorem setAddrEvents_moveTo (r c : Nat) : setAddrEvents (s.moveTo r c) = setAddrEvents s := rfl
@[simp] theorem eraseEvents_extend (es : List Event) : eraseEvents (s.extend es) = eraseEvents s := rfl
@[simp] theorem eraseEvents_moveTo (r c : Nat) : eraseEvents (s.moveTo r c) = eraseEvents s := rfl
@[simp] theorem displayCtrl_extend (es : List Event) : (s.extend es).displayCtrl = s.displayCtrl := rfl
@[simp] theorem displayCtrl_moveTo (r c : Nat) : (s.moveTo r c).displayCtrl = s.displayCtrl := rfl
@[simp] theorem nextRow_extend (es : List Event) : (s.extend es).nextRow = s.nextRow := rfl
@[simp] theorem moveTo_extend (es : List Event) (r c : Nat) :
    (s.extend es).moveTo r c = (s.moveTo r c).extend es := rfl
@[simp] theorem moveTo_moveTo (r c r' c' : Nat) : (s.moveTo r c).moveTo r' c' = s.moveTo r' c' := rfl
@[simp] theorem moveTo_self : s.moveTo s.row s.col = s := rfl

end Sys2Proof.Machine
end

