-- ==== Sys2Proof/Laws/Wire.lean ====
section
/-! SUPPORT. What a bus write, a wait and a list of them can do, said once: `emitAll` either adds all its
events, or stops at the first bus write that is not answered ok, or hangs. -/

namespace Sys2Proof.Machine

open Sys2Proof

/-! ### Counting bus writes -/

@[simp] theorem busWrites_nil : busWrites [] = 0 := rfl

@[simp] theorem busWrites_write (b : Byte) (es : List Event) :
    busWrites (.write b :: es) = busWrites es + 1 := by simp [busWrites, List.countP_cons, Event.isWrite]

@[simp] theorem busWrites_delay (t : Nat) (es : List Event) :
    busWrites (.delay t :: es) = busWrites es := by simp [busWrites, Event.isWrite]

@[simp] theorem busWrites_append (es fs : List Event) :
    busWrites (es ++ fs) = busWrites es + busWrites fs := by simp [busWrites]

@[simp] theorem busWrites_nibbleEvents (s : State) (n : Nibble) (rs : Bool) :
    busWrites (nibbleEvents s n rs) = 3 := rfl

@[simp] theorem busWrites_instructionEvents (s : State) (v : Byte) (t : Nat) :
    busWrites (instructionEvents s v t) = 6 := rfl

@[simp] theorem busWrites_dataEvents (s : State) (v : Byte) : busWrites (dataEvents s v) = 6 := rfl

@[simp] theorem busWrites_highNibbleEvents (s : State) (v : Byte) (t : Nat) :
    busWrites (highNibbleEvents s v t) = 3 := rfl

@[simp] theorem busWrites_setAddrEvents (s : State) (r c : Nat) : busWrites (setAddrEvents s r c) = 6 := rfl

theorem busWrites_flatten_replicate (n : Nat) (es : List Event) :
    busWrites (List.replicate n es).flatten = n * busWrites es := by
  induction n with
  | zero => simp
  | succ n ih => simp [List.replicate_succ, ih, Nat.succ_mul, Nat.add_comm]

@[simp] theorem busWrites_eraseEvents (s : State) : busWrites (eraseEvents s) = s.geometry.cols * 6 := by
  simp [eraseEvents, busWrites_flatten_replicate]

/-! ### Summing waits -/

@[simp] theorem minDuration_nil : minDuration [] = 0 := rfl
@[simp] theorem minDuration_write (b : Byte) (es : List Event) :
    minDuration (.write b :: es) = minDuration es := rfl
@[simp] theorem minDuration_delay (t : Nat) (es : List Event) :
    minDuration (.delay t :: es) = t + minDuration es := rfl

@[simp] theorem minDuration_append (es fs : List Event) :
    minDuration (es ++ fs) = minDuration es + minDuration fs := by
  induction es with
  | nil => simp
  | cons e es ih => cases e <;> simp [ih, Nat.add_assoc]

theorem minDuration_flatten_replicate (n : Nat) (es : List Event) :
    minDuration (List.replicate n es).flatten = n * minDuration es := by
  induction n with
  | zero => simp
  | succ n ih => simp [List.replicate_succ, ih, Nat.succ_mul, Nat.add_comm]

/-! ### Adding events -/

@[simp] theorem Wire.extend_nil (w : Wire) : w.extend [] = w := by simp [Wire.extend]

@[simp] theorem Wire.extend_extend (w : Wire) (es fs : List Event) :
    (w.extend es).extend fs = w.extend (es ++ fs) := by
  simp [Wire.extend, Nat.add_assoc]

@[simp] theorem Wire.extend_hangAt (w : Wire) (es : List Event) : (w.extend es).hangAt = w.hangAt := rfl
@[simp] theorem Wire.extend_hung (w : Wire) (es : List Event) : (w.extend es).hung = w.hung := rfl
@[simp] theorem Wire.extend_trace (w : Wire) (es : List Event) :
    (w.extend es).trace = w.trace ++ es := rfl

@[simp] theorem Wire.extend_answerAt (w : Wire) (es : List Event) (k : Nat) :
    (w.extend es).answerAt k = w.answerAt (busWrites es + k) := by
  simp [Wire.answerAt, Wire.extend, Nat.add_assoc]

@[simp] theorem State.extend_nil (s : State) : s.extend [] = s := by simp [State.extend]

@[simp] theorem State.extend_extend (s : State) (es fs : List Event) :
    (s.extend es).extend fs = s.extend (es ++ fs) := by simp [State.extend]

/-! ### The environment's grant -/

theorem State.busReady.mono {s : State} {m n : Nat} (h : s.busReady n) (hm : m ≤ n) : s.busReady m :=
  ⟨h.1, fun k hk => h.2 k (by omega)⟩

theorem State.busReady.extend {s : State} {n : Nat} {es : List Event}
    (h : s.busReady (busWrites es + n)) : (s.extend es).busReady n :=
  ⟨h.1, fun k hk => by simpa using h.2 (busWrites es + k) (by omega)⟩

/-- `busReady` looks at the wire only. -/
theorem State.busReady.of_wire {s t : State} {n : Nat} (h : s.busReady n) (ht : t.wire = s.wire) :
    t.busReady n := by
  simpa [State.busReady, ht] using h

/-! ### One event -/

/-- A wait that does not hang. -/
theorem emit_delay {s : State} (t : Nat) (h : s.neverHangs) :
    emit (.delay t) s = .done (s.extend [.delay t]) := by
  simp [emit, h, Event.isWrite]

/-- A bus write that does not hang ends as it is answered. -/
theorem emit_write {s : State} (b : Byte) (h : s.neverHangs) :
    emit (.write b) s =
      if s.wire.answerAt 0 = .busError then .busError (s.extend [.write b])
      else .done (s.extend [.write b]) := by
  simp [emit, h, Event.isWrite]

/-! ### Runs -/

@[simp] theorem Run.andThen_done (s : State) (f : State → Run) : (Run.done s).andThen f = f s := rfl
@[simp] theorem Run.andThen_busError (s : State) (f : State → Run) :
    (Run.busError s).andThen f = .busError s := rfl
@[simp] theorem Run.andThen_hung (s : State) (f : State → Run) : (Run.hung s).andThen f = .hung s := rfl
@[simp] theorem Run.andThen_pure (r : Run) : r.andThen .done = r := by cases r <;> rfl

theorem Run.andThen_assoc (r : Run) (f g : State → Run) :
    (r.andThen f).andThen g = r.andThen fun s => (f s).andThen g := by cases r <;> rfl

@[simp] theorem Run.state_done (s : State) : (Run.done s).state = s := rfl
@[simp] theorem Run.state_busError (s : State) : (Run.busError s).state = s := rfl
@[simp] theorem Run.state_hung (s : State) : (Run.hung s).state = s := rfl

@[simp] theorem Run.returned_done (s : State) : (Run.done s).returned = s.returnOk := rfl
@[simp] theorem Run.returned_busError (s : State) : (Run.busError s).returned = s.takeBusError := rfl
@[simp] theorem Run.returned_hung (s : State) : (Run.hung s).returned = s := rfl
@[simp] theorem Run.resumed_done (s : State) : (Run.done s).resumed = s := rfl
@[simp] theorem Run.resumed_busError (s : State) : (Run.busError s).resumed = s.takeBusError := rfl
@[simp] theorem Run.resumed_hung (s : State) : (Run.hung s).resumed = s := rfl

/-! The position, the pending work and the wire an operation leaves do not depend on how it ended. -/

@[simp] theorem Run.returned_row (r : Run) : r.returned.row = r.state.row := by cases r <;> rfl
@[simp] theorem Run.returned_col (r : Run) : r.returned.col = r.state.col := by cases r <;> rfl
@[simp] theorem Run.returned_dirty (r : Run) : r.returned.dirty = r.state.dirty := by cases r <;> rfl
@[simp] theorem Run.returned_newlinePending (r : Run) :
    r.returned.newlinePending = r.state.newlinePending := by cases r <;> rfl
@[simp] theorem Run.returned_wire (r : Run) : r.returned.wire = r.state.wire := by cases r <;> rfl
@[simp] theorem Run.resumed_row (r : Run) : r.resumed.row = r.state.row := by cases r <;> rfl
@[simp] theorem Run.resumed_col (r : Run) : r.resumed.col = r.state.col := by cases r <;> rfl
@[simp] theorem Run.resumed_dirty (r : Run) : r.resumed.dirty = r.state.dirty := by cases r <;> rfl
@[simp] theorem Run.resumed_newlinePending (r : Run) :
    r.resumed.newlinePending = r.state.newlinePending := by cases r <;> rfl
@[simp] theorem Run.resumed_wire (r : Run) : r.resumed.wire = r.state.wire := by cases r <;> rfl

/-! ### Lists of events -/

@[simp] theorem emitAll_nil (s : State) : emitAll [] s = .done s := rfl

theorem emitAll_cons (e : Event) (es : List Event) (s : State) :
    emitAll (e :: es) s = (emit e s).andThen (emitAll es) := rfl

theorem emitAll_append (es fs : List Event) (s : State) :
    emitAll (es ++ fs) s = (emitAll es s).andThen (emitAll fs) := by
  induction es generalizing s with
  | nil => rfl
  | cons e es ih =>
    simp only [List.cons_append, emitAll_cons, Run.andThen_assoc]
    congr 1; funext t; exact ih t

/-- If nothing hangs and every bus write is answered ok, all the events are added. -/
theorem emitAll_done {es : List Event} {s : State} (h : s.busReady (busWrites es)) :
    emitAll es s = .done (s.extend es) := by
  induction es generalizing s with
  | nil => simp
  | cons e es ih =>
    rw [emitAll_cons]
    cases e with
    | delay t =>
      rw [emit_delay t h.1, Run.andThen_done, ih]
      · simp
      · exact State.busReady.extend (by simpa using h)
    | write b =>
      have h0 : s.wire.answerAt 0 = .ok := h.2 0 (by simp)
      rw [emit_write b h.1, if_neg (by simp [h0]), Run.andThen_done, ih]
      · simp
      · exact State.busReady.extend (by rw [busWrites_write] at h; simpa [Nat.add_comm] using h)

/-- Everything a list of events can do: all are added; or the run ends with `BusError` right after some
bus write, or hangs right after some event. -/
theorem emitAll_cases (es : List Event) (s : State) :
    emitAll es s = .done (s.extend es)
    ∨ (∃ pre b post, es = pre ++ .write b :: post
        ∧ emitAll es s = .busError (s.extend (pre ++ [.write b])))
    ∨ (∃ pre e post, es = pre ++ e :: post ∧ s.wire.hangAt ≠ none
        ∧ emitAll es s = .hung (s.extend (pre ++ [e])).hang) := by
  induction es generalizing s with
  | nil => simp
  | cons e es ih =>
    rw [emitAll_cons]
    unfold emit
    split_ifs with h1 h2
    · exact .inr (.inr ⟨[], e, es, rfl, by simp [h1], rfl⟩)
    · cases e with
      | delay t => simp [Event.isWrite] at h2
      | write b => exact .inr (.inl ⟨[], b, es, rfl, rfl⟩)
    · rw [Run.andThen_done]
      rcases ih (s.extend [e]) with h | ⟨pre, b, post, rfl, h⟩ | ⟨pre, f, post, rfl, hh, h⟩
      · exact .inl (by simp [h])
      · exact .inr (.inl ⟨e :: pre, b, post, rfl, by simp [h]⟩)
      · exact .inr (.inr ⟨e :: pre, f, post, rfl, by simpa using hh, by simp [h]⟩)

/-- A list of events that runs to its end adds them all. -/
theorem emitAll_eq_done {es : List Event} {s u : State} (h : emitAll es s = .done u) :
    u = s.extend es := by
  rcases emitAll_cases es s with k | ⟨_, _, _, _, k⟩ | ⟨_, _, _, _, _, k⟩ <;> rw [k] at h <;> cases h
  rfl

/-- What follows a list of events is seen at the state with all of them added. -/
theorem emitAll_andThen_congr {es : List Event} {s : State} {f g : State → Run}
    (h : f (s.extend es) = g (s.extend es)) :
    (emitAll es s).andThen f = (emitAll es s).andThen g := by
  cases k : emitAll es s with
  | done u => cases emitAll_eq_done k; exact h
  | busError u => rfl
  | hung u => rfl

/-- Where nothing hangs and one of the bus writes is answered `BusError`, the run ends with `BusError`,
right after a bus write. -/
theorem emitAll_busError {es : List Event} {s : State} (hn : s.neverHangs)
    (h : ∃ k < busWrites es, s.wire.answerAt k = .busError) :
    ∃ pre b post, es = pre ++ .write b :: post
      ∧ emitAll es s = .busError (s.extend (pre ++ [.write b])) := by
  induction es generalizing s with
  | nil => simp at h
  | cons e es ih =>
    obtain ⟨k, hk, ha⟩ := h
    cases e with
    | delay t =>
      obtain ⟨pre, b, post, rfl, h⟩ := ih (s := s.extend [.delay t]) hn
        ⟨k, by simpa using hk, by simpa using ha⟩
      exact ⟨.delay t :: pre, b, post, rfl, by simp [emitAll_cons, emit_delay t hn, h]⟩
    | write b =>
      by_cases h0 : s.wire.answerAt 0 = .busError
      · exact ⟨[], b, es, rfl, by simp [emitAll_cons, emit_write b hn, h0]⟩
      · obtain ⟨j, rfl⟩ : ∃ j, k = j + 1 := ⟨k - 1, by
          have : k ≠ 0 := fun h => h0 (h ▸ ha)
          omega⟩
        obtain ⟨pre, c, post, rfl, h⟩ := ih (s := s.extend [.write b]) hn
          ⟨j, by simpa using hk, by simpa [Nat.add_comm] using ha⟩
        exact ⟨.write b :: pre, c, post, rfl, by simp [emitAll_cons, emit_write b hn, h0, h]⟩

end Sys2Proof.Machine
end

