-- ==== Sys2Proof/Laws/Ops.lean ====
section
/-! SUPPORT. For each shared operation of Machine/Ops.lean: what it answers when the bus answers ok
(`…_done`), and what it can change whatever the bus answers (`…_frame`). -/

namespace Sys2Proof.Machine

open Sys2Proof

/-! ### Transfers are the spec's traces -/

theorem transferEvents_nil (m : LatchMap) (bl : Bool) : transferEvents m bl [] = [] := rfl

theorem transferEvents_cons (m : LatchMap) (bl : Bool) (x : Transfer) (ts : List Transfer) :
    transferEvents m bl (x :: ts) = x.events m bl ++ transferEvents m bl ts := by simp [transferEvents]

theorem transferEvents_append (m : LatchMap) (bl : Bool) (ts us : List Transfer) :
    transferEvents m bl (ts ++ us) = transferEvents m bl ts ++ transferEvents m bl us := by
  simp [transferEvents]

theorem transferEvents_singleton (m : LatchMap) (bl : Bool) (x : Transfer) :
    transferEvents m bl [x] = x.events m bl := by simp [transferEvents]

/-! Bus writes and waits of a transfer (R286). -/

@[simp] theorem busWrites_twoNibbles (m : LatchMap) (bl rs : Bool) (v : Byte) (t : Nat) :
    busWrites (twoNibbles m bl rs v t) = 6 := rfl

@[simp] theorem busWrites_oneNibble (m : LatchMap) (bl : Bool) (v : Byte) (t : Nat) :
    busWrites (oneNibble m bl v t) = 3 := rfl

@[simp] theorem minDuration_twoNibbles (m : LatchMap) (bl rs : Bool) (v : Byte) (t : Nat) :
    minDuration (twoNibbles m bl rs v t) = 1080 + t := by
  simp [twoNibbles, strobe]; omega

@[simp] theorem minDuration_oneNibble (m : LatchMap) (bl : Bool) (v : Byte) (t : Nat) :
    minDuration (oneNibble m bl v t) = 540 + t := by
  simp [oneNibble, strobe]; omega

/-- The display-control code of the session is the one of its flags (R129, R92). -/
theorem displayCtrl_eq (s : State) : s.displayCtrl = displayCode s.cursorVisible s.cursorBlink := by
  unfold State.displayCtrl displayCode
  cases s.cursorVisible <;> cases s.cursorBlink <;> rfl

theorem clear_events (s : State) :
    instructionEvents s codeClear Config.tClear = transferEvents s.cfg.latchMap s.backlight [.clear] := rfl

theorem home_events (s : State) :
    instructionEvents s codeHome Config.tClear = transferEvents s.cfg.latchMap s.backlight [.home] := rfl

theorem entryInc_events (s : State) :
    instructionEvents s codeEntryInc Config.tInstr
      = transferEvents s.cfg.latchMap s.backlight [.entryInc] := rfl

theorem fset4Bit2Line_events (s : State) :
    instructionEvents s codeFset4Bit2Line Config.tInstr
      = transferEvents s.cfg.latchMap s.backlight [.fset4Bit2Line] := rfl

theorem displayCtrl_events (s : State) :
    instructionEvents s s.displayCtrl Config.tInstr
      = transferEvents s.cfg.latchMap s.backlight [.displayCtrl s.cursorVisible s.cursorBlink] := by
  rw [displayCtrl_eq]; rfl

theorem setDdram_events (s : State) (a : BitVec 7) :
    instructionEvents s (codeSetDdram a) Config.tInstr
      = transferEvents s.cfg.latchMap s.backlight [.setDdram a] := rfl

theorem data_events (s : State) (v : Byte) :
    dataEvents s v = transferEvents s.cfg.latchMap s.backlight [.data v] := rfl

theorem fset8Bit_events (s : State) (w : BootWrite) :
    highNibbleEvents s codeFset8Bit (bootWait w)
      = transferEvents s.cfg.latchMap s.backlight [.fset8Bit w] := by cases w <;> rfl

theorem fset4Bit_events (s : State) :
    highNibbleEvents s codeFset4Bit Config.tInstr
      = transferEvents s.cfg.latchMap s.backlight [.fset4Bit] := rfl

theorem setAddr_events (s : State) (r c : Nat) :
    setAddrEvents s r c
      = transferEvents s.cfg.latchMap s.backlight [cellTransfer s.geometry r c] := rfl

theorem control_events (s : State) (b : Bool) :
    [Event.write (backlightByte s.cfg.latchMap b)]
      = transferEvents s.cfg.latchMap s.backlight [.control b] := rfl

theorem erase_events (s : State) :
    eraseEvents s
      = transferEvents s.cfg.latchMap s.backlight (List.replicate s.geometry.cols (.data chSpace)) := by
  simp [eraseEvents, transferEvents, data_events]

/-! ### What the operations answer when the bus answers ok -/

theorem writeInstruction_done {s : State} (v : Byte) (t : Nat) (h : s.busReady 6) :
    writeInstruction v t s = .done (s.extend (instructionEvents s v t)) := emitAll_done (by simpa using h)

theorem writeData_done {s : State} (v : Byte) (h : s.busReady 6) :
    writeData v s = .done (s.extend (dataEvents s v)) := emitAll_done (by simpa using h)

theorem writeHighNibble_done {s : State} (v : Byte) (t : Nat) (h : s.busReady 3) :
    writeHighNibble v t s = .done (s.extend (highNibbleEvents s v t)) := emitAll_done (by simpa using h)

theorem setAddr_done {s : State} (r c : Nat) (h : s.busReady 6) :
    setAddr r c s = .done (s.extend (setAddrEvents s r c)) := emitAll_done (by simpa using h)

theorem clearDisplay_done {s : State} (h : s.busReady 6) :
    clearDisplay s = .done ((s.moveTo 0 0).sent [.clear]) := by
  simp [clearDisplay, writeInstruction_done _ _ h, State.sent, clear_events]

theorem returnHome_done {s : State} (h : s.busReady 6) :
    returnHome s = .done ((s.moveTo 0 0).sent [.home]) := by
  simp [returnHome, writeInstruction_done _ _ h, State.sent, home_events]

theorem State.busReady.sent {s : State} {n : Nat} {ts : List Transfer}
    (h : s.busReady (busWrites (transferEvents s.cfg.latchMap s.backlight ts) + n)) :
    (s.sent ts).busReady n := h.extend

theorem eraseDisplay_done {s : State} (h : s.busReady 12) :
    eraseDisplay s = .done ((s.moveTo 0 0).sent [.clear, .home]) := by
  rw [eraseDisplay, clearDisplay_done (h.mono (by omega)), Run.andThen_done, returnHome_done]
  · simp [State.sent, ← transferEvents_append]
  · exact State.busReady.sent (h.of_wire rfl)

theorem carriageReturn_done {s : State} (h : s.busReady 6) :
    carriageReturn s = .done ((s.moveTo s.row 0).sent [cellTransfer s.geometry s.row 0]) :=
  setAddr_done _ _ (h.of_wire rfl)

theorem setCursor_done {s : State} (r c : Nat) (h : s.busReady 6) :
    setCursor r c s = .done
      ((s.moveTo (clampCursor s.geometry r c).1 (clampCursor s.geometry r c).2).sent
        [cellTransfer s.geometry (clampCursor s.geometry r c).1 (clampCursor s.geometry r c).2]) :=
  setAddr_done _ _ (h.of_wire rfl)

theorem tabOp_done {s : State} (h : s.busReady 6) :
    tabOp s = .done ((s.moveTo s.tabTarget.1 s.tabTarget.2).sent
      [cellTransfer s.geometry s.tabTarget.1 s.tabTarget.2]) :=
  setAddr_done _ _ (h.of_wire rfl)

theorem writeChar_done {s : State} (ch : Byte) (h : s.busReady 6) (hc : s.col + 1 ≠ s.geometry.cols) :
    writeChar ch s = .done ((s.moveTo s.row (s.col + 1)).sent [.data ch]) := by
  simp [writeChar, writeData_done ch h, hc, State.sent, data_events]

theorem writeChar_wrap {s : State} (ch : Byte) (h : s.busReady 12) (hc : s.col + 1 = s.geometry.cols) :
    writeChar ch s = .done ((s.moveTo s.nextRow 0).sent
      [.data ch, cellTransfer s.geometry s.nextRow 0]) := by
  rw [writeChar, writeData_done ch (h.mono (by omega)), Run.andThen_done, if_pos (by simpa using hc),
    setAddr_done]
  · simp [State.sent, data_events, setAddr_events, ← transferEvents_append]
  · exact State.busReady.extend (n := 6) (es := dataEvents s ch) (h.of_wire rfl)

/-- Bytes that fit on the row are sent as data in order (R160). -/
theorem writeChars_done {s : State} (bs : List Byte) (h : s.busReady (6 * bs.length))
    (hc : s.col + bs.length < s.geometry.cols) :
    writeChars bs s = .done ((s.moveTo s.row (s.col + bs.length)).sent (bs.map .data)) := by
  induction bs generalizing s with
  | nil => simp [writeChars, State.sent, transferEvents_nil, State.moveTo]
  | cons b bs ih =>
    simp only [List.length_cons] at h hc
    have h1 : ((s.moveTo s.row (s.col + 1)).sent [.data b]).busReady (6 * bs.length) :=
      State.busReady.sent (State.busReady.of_wire (h.mono (by simp [← data_events]; omega)) rfl)
    rw [writeChars, writeChar_done b (h.mono (by omega)) (by omega), Run.andThen_done, ih h1]
    · simp [State.sent, transferEvents_cons _ _ _ (bs.map _), transferEvents_singleton, State.moveTo,
        State.extend, Nat.add_assoc, Nat.add_comm 1]
    · simp [State.sent]; omega

theorem newLine_done {s : State} (h : s.busReady (12 + 6 * s.geometry.cols)) :
    newLine s = .done ((s.moveTo s.nextRow 0).sent (newLineTransfers s.geometry s.nextRow)) := by
  have h1 : (s.moveTo s.nextRow 0).busReady 6 := (h.mono (by omega)).of_wire rfl
  have h2 : ((s.moveTo s.nextRow 0).extend (setAddrEvents s s.nextRow 0)).busReady
      (6 + 6 * s.geometry.cols) :=
    State.busReady.extend (by
      rw [busWrites_setAddrEvents]; exact (h.mono (by omega)).of_wire rfl)
  have h3 : (((s.moveTo s.nextRow 0).extend (setAddrEvents s s.nextRow 0)).extend
      (eraseEvents s)).busReady 6 :=
    State.busReady.extend (by rw [busWrites_eraseEvents]; exact h2.mono (by omega))
  unfold newLine
  dsimp only
  rw [State.moveTo_row, setAddr_done _ _ h1, Run.andThen_done, setAddrEvents_moveTo,
    eraseEvents_extend, eraseEvents_moveTo, emitAll_done, Run.andThen_done, setAddr_done _ _ h3]
  · simp only [State.extend_extend, State.sent, State.extend_row, State.moveTo_row, State.extend_cfg,
      State.moveTo_cfg, State.extend_backlight, State.moveTo_backlight, State.extend_geometry,
      State.moveTo_geometry, setAddr_events, erase_events, ← transferEvents_append]
    rfl
  · rw [busWrites_eraseEvents]; exact h2.mono (by omega)

theorem State.sent_sent (s : State) (ts us : List Transfer) : (s.sent ts).sent us = s.sent (ts ++ us) := by
  simp [State.sent, transferEvents_append]

/-- `initializeDisplay` makes its session updates, sends its transfers up to and including the clear, resets
the position, and then sends the last one (R130). -/
theorem initializeOp_eq (s : State) :
    initializeOp s
      = (emitAll (transferEvents s.cfg.latchMap s.backlight (initTransfers.take 7)) s.initialized).andThen
          fun u => emitAll (transferEvents s.cfg.latchMap s.backlight [.entryInc]) (u.moveTo 0 0) := by
  have hi : ∀ x v t es, highNibbleEvents s v t = Transfer.events s.cfg.latchMap s.backlight x →
      writeHighNibble v t (s.initialized.extend es)
        = emitAll (Transfer.events s.cfg.latchMap s.backlight x) (s.initialized.extend es) :=
    fun x v t es h => congrArg (fun fs => emitAll fs (s.initialized.extend es)) h
  have fu : ∀ x v t es, instructionEvents s v t = Transfer.events s.cfg.latchMap s.backlight x →
      writeInstruction v t (s.initialized.extend es)
        = emitAll (Transfer.events s.cfg.latchMap s.backlight x) (s.initialized.extend es) :=
    fun x v t es h => congrArg (fun fs => emitAll fs (s.initialized.extend es)) h
  have h1 := hi (.fset8Bit .first) codeFset8Bit Config.tBoot1 [] rfl
  rw [State.extend_nil] at h1
  have hd : ∀ es, (s.initialized.extend es).displayCtrl = displayCode true true := fun _ => displayCtrl_eq _
  simp only [initTransfers, List.take_succ_cons, List.take_zero, transferEvents_cons, transferEvents_nil,
    emitAll_append, emitAll_nil, Run.andThen_assoc, Run.andThen_done, initializeOp, h1]
  refine emitAll_andThen_congr ?_
  rw [hi (.fset8Bit .second) codeFset8Bit Config.tBoot2 _ rfl]
  refine emitAll_andThen_congr ?_
  rw [State.extend_extend, hi (.fset8Bit .third) codeFset8Bit Config.tInstr _ rfl]
  refine emitAll_andThen_congr ?_
  rw [State.extend_extend, hi .fset4Bit codeFset4Bit Config.tInstr _ rfl]
  refine emitAll_andThen_congr ?_
  rw [State.extend_extend, fu .fset4Bit2Line codeFset4Bit2Line Config.tInstr _ rfl]
  refine emitAll_andThen_congr ?_
  rw [State.extend_extend, hd, fu (.displayCtrl true true) (displayCode true true) Config.tInstr _ rfl]
  refine emitAll_andThen_congr ?_
  rw [State.extend_extend, clearDisplay, Run.andThen_assoc, fu .clear codeClear Config.tClear _ rfl]
  exact emitAll_andThen_congr (Run.andThen_pure _).symm

theorem busWrites_initTransfers_take (m : LatchMap) (bl : Bool) :
    busWrites (transferEvents m bl (initTransfers.take 7)) = 30 := by
  simp [initTransfers, transferEvents, Transfer.events]

/-- The eight transfers of `initializeDisplay`, in order (R130). -/
theorem initializeOp_done {s : State} (h : s.busReady 36) :
    initializeOp s = .done ((s.initialized.moveTo 0 0).sent initTransfers) := by
  have h0 : s.initialized.busReady 36 := h.of_wire rfl
  rw [initializeOp_eq, emitAll_done (by rw [busWrites_initTransfers_take]; exact h0.mono (by omega)),
    Run.andThen_done, emitAll_done]
  · rw [← moveTo_extend, State.extend_extend, ← transferEvents_append]; rfl
  · exact State.busReady.of_wire (s := s.initialized.extend _) (State.busReady.extend
      (by rw [busWrites_initTransfers_take]; exact h0)) rfl

/-! ### Where the operations leave the position when a bus write fails -/

/-- `newLine` moves first and then sends its transfers (R163). -/
theorem newLine_eq (s : State) :
    newLine s = emitAll (transferEvents s.cfg.latchMap s.backlight (newLineTransfers s.geometry s.nextRow))
      (s.moveTo s.nextRow 0) := by
  simp only [newLineTransfers, transferEvents_append, emitAll_append, Run.andThen_assoc]
  refine emitAll_andThen_congr ?_
  show (emitAll (eraseEvents s) _).andThen _ = _
  rw [erase_events]
  exact emitAll_andThen_congr rfl

/-- The position `newLine` leaves does not depend on the bus (R163). -/
theorem newLine_position (s : State) :
    (newLine s).state.row = s.nextRow ∧ (newLine s).state.col = 0 := by
  rw [newLine_eq]
  rcases emitAll_cases (transferEvents s.cfg.latchMap s.backlight (newLineTransfers s.geometry s.nextRow))
    (s.moveTo s.nextRow 0) with h | ⟨_, _, _, _, h⟩ | ⟨_, _, _, _, _, h⟩ <;> rw [h] <;> exact ⟨rfl, rfl⟩

/-- The position that a move followed by a set-address leaves does not depend on the bus (R153). -/
theorem setAddr_position (r c : Nat) (s : State) :
    (setAddr r c s).state.row = s.row ∧ (setAddr r c s).state.col = s.col := by
  rcases emitAll_cases (setAddrEvents s r c) s with h | ⟨_, _, _, _, h⟩ | ⟨_, _, _, _, _, h⟩ <;>
    rw [setAddr, h] <;> exact ⟨rfl, rfl⟩

theorem busWrites_newLineTransfers (m : LatchMap) (bl : Bool) (g : Geometry) (r : Nat) :
    busWrites (transferEvents m bl (newLineTransfers g r)) = 12 + 6 * g.cols := by
  simp [transferEvents, newLineTransfers, busWrites_flatten_replicate, cellTransfer, Transfer.events]
  omega

theorem minDuration_newLineTransfers (m : LatchMap) (bl : Bool) (g : Geometry) (r : Nat) :
    minDuration (transferEvents m bl (newLineTransfers g r)) = 76160 + 42080 * g.cols := by
  simp [transferEvents, newLineTransfers, minDuration_flatten_replicate, cellTransfer, Transfer.events]
  omega

/-- A `newLine` that fails has moved already (R163). -/
theorem newLine_busError {s : State} (hn : s.neverHangs)
    (h : ∃ k < 12 + 6 * s.geometry.cols, s.wire.answerAt k = .busError) :
    ∃ es, newLine s = .busError ((s.moveTo s.nextRow 0).extend es) := by
  obtain ⟨pre, b, -, -, h⟩ := emitAll_busError (s := s.moveTo s.nextRow 0) hn
    (by rw [busWrites_newLineTransfers s.cfg.latchMap s.backlight s.geometry s.nextRow]; exact h)
  exact ⟨_, (newLine_eq s).trans h⟩

/-- A clear that fails leaves the position as it was (R165). -/
theorem clearDisplay_busError {s : State} (hn : s.neverHangs)
    (h : ∃ k < 6, s.wire.answerAt k = .busError) : ∃ es, clearDisplay s = .busError (s.extend es) := by
  obtain ⟨pre, b, -, -, h⟩ := emitAll_busError (es := instructionEvents s codeClear Config.tClear) hn h
  exact ⟨_, by rw [clearDisplay, writeInstruction, h, Run.andThen_busError]⟩

/-- A return-home that fails leaves the position as it was (R188). -/
theorem returnHome_busError {s : State} (hn : s.neverHangs)
    (h : ∃ k < 6, s.wire.answerAt k = .busError) : ∃ es, returnHome s = .busError (s.extend es) := by
  obtain ⟨pre, b, -, -, h⟩ := emitAll_busError (es := instructionEvents s codeHome Config.tClear) hn h
  exact ⟨_, by rw [returnHome, writeInstruction, h, Run.andThen_busError]⟩

/-- An `initializeDisplay` that fails up to its clear leaves the position as it was (R130). -/
theorem initializeOp_busError {s : State} (hn : s.neverHangs)
    (h : ∃ k < 30, s.wire.answerAt k = .busError) :
    ∃ es, initializeOp s = .busError (s.initialized.extend es) := by
  obtain ⟨pre, b, -, -, h⟩ := emitAll_busError (s := s.initialized) hn
    (by rw [busWrites_initTransfers_take s.cfg.latchMap s.backlight]; exact h)
  exact ⟨_, by rw [initializeOp_eq, h, Run.andThen_busError]⟩

/-- An `initializeDisplay` that fails after its clear has reset the position (R130). -/
theorem initializeOp_busError_last {s : State} (hn : s.neverHangs)
    (ho : ∀ k < 30, s.wire.answerAt k = .ok) (h : ∃ k < 6, s.wire.answerAt (30 + k) = .busError) :
    ∃ es, initializeOp s = .busError ((s.initialized.moveTo 0 0).extend es) := by
  have hc : s.initialized.busReady 30 := ⟨hn, ho⟩
  rw [initializeOp_eq, emitAll_done (by rw [busWrites_initTransfers_take]; exact hc), Run.andThen_done,
    moveTo_extend]
  obtain ⟨pre, b, -, -, h⟩ := emitAll_busError
    (es := transferEvents s.cfg.latchMap s.backlight [.entryInc])
    (s := (s.initialized.moveTo 0 0).extend
      (transferEvents s.cfg.latchMap s.backlight (initTransfers.take 7))) hn (by
    obtain ⟨k, hk, hb⟩ := h
    refine ⟨k, hk, ?_⟩
    rw [State.extend_wire, Wire.extend_answerAt, busWrites_initTransfers_take]
    exact hb)
  exact ⟨_, by rw [h, State.extend_extend]⟩

/-! ### What the operations can change, whatever the bus answers -/

/-- A reflexive and transitive relation that each of two pieces of pseudocode keeps is kept by the two in
order. -/
theorem Run.andThen_rel {R : State → State → Prop} (htr : ∀ a b c, R a b → R b c → R a c)
    {s : State} {r : Run} {f : State → Run} (h : R s r.state)
    (hf : ∀ u, r = .done u → R u (f u).state) : R s (r.andThen f).state := by
  cases r with
  | done u => exact htr _ _ _ h (hf u rfl)
  | busError u => exact h
  | hung u => exact h

/-- Nothing but the wire is different. -/
def WireFrame (s t : State) : Prop := t = { s with wire := t.wire }

/-- Nothing but the position and the wire is different. -/
def PositionFrame (s t : State) : Prop := t = { s with row := t.row, col := t.col, wire := t.wire }

/-- Nothing but the position, `newline_pending` and the wire is different. -/
def LineFrame (s t : State) : Prop :=
  t = { s with row := t.row, col := t.col, newlinePending := t.newlinePending, wire := t.wire }

/-- Nothing but what one byte of a `write` may write is different (R210, R212, R193). -/
def ByteFrame (s t : State) : Prop :=
  t = { s with
    row := t.row, col := t.col, inEscape := t.inEscape, esc := t.esc,
    newlinePending := t.newlinePending, wire := t.wire }

/-- Nothing but what a `write` may write is different (R210). -/
def WriteRunFrame (s t : State) : Prop :=
  t = { s with
    row := t.row, col := t.col, inEscape := t.inEscape, esc := t.esc, dirty := t.dirty,
    newlinePending := t.newlinePending, wire := t.wire, running := t.running }

theorem WireFrame.position {s t : State} (h : WireFrame s t) : PositionFrame s t := by
  unfold PositionFrame; rw [h]

theorem PositionFrame.line {s t : State} (h : PositionFrame s t) : LineFrame s t := by
  unfold LineFrame; rw [h]

theorem LineFrame.byte {s t : State} (h : LineFrame s t) : ByteFrame s t := by
  unfold ByteFrame; rw [h]

theorem ByteFrame.write {s t : State} (h : ByteFrame s t) : WriteRunFrame s t := by
  unfold WriteRunFrame; rw [h]

theorem LineFrame.write {s t : State} (h : LineFrame s t) : WriteRunFrame s t := h.byte.write

theorem WireFrame.trans {a b c : State} (h : WireFrame a b) (k : WireFrame b c) : WireFrame a c := by
  unfold WireFrame at *; rw [k, h]

theorem PositionFrame.trans {a b c : State} (h : PositionFrame a b) (k : PositionFrame b c) :
    PositionFrame a c := by
  unfold PositionFrame at *; rw [k, h]

theorem LineFrame.trans {a b c : State} (h : LineFrame a b) (k : LineFrame b c) : LineFrame a c := by
  unfold LineFrame at *; rw [k, h]

theorem ByteFrame.trans {a b c : State} (h : ByteFrame a b) (k : ByteFrame b c) : ByteFrame a c := by
  unfold ByteFrame at *; rw [k, h]

theorem WriteRunFrame.trans {a b c : State} (h : WriteRunFrame a b) (k : WriteRunFrame b c) :
    WriteRunFrame a c := by
  unfold WriteRunFrame at *; rw [k, h]

theorem PositionFrame.andThen {s : State} {r : Run} {f : State → Run} (h : PositionFrame s r.state)
    (hf : ∀ u, PositionFrame u (f u).state) : PositionFrame s (r.andThen f).state :=
  Run.andThen_rel (R := PositionFrame) (fun _ _ _ => PositionFrame.trans) h fun u _ => hf u

theorem ByteFrame.andThen {s : State} {r : Run} {f : State → Run} (h : ByteFrame s r.state)
    (hf : ∀ u, ByteFrame u (f u).state) : ByteFrame s (r.andThen f).state :=
  Run.andThen_rel (R := ByteFrame) (fun _ _ _ => ByteFrame.trans) h fun u _ => hf u

theorem WriteRunFrame.andThen {s : State} {r : Run} {f : State → Run} (h : WriteRunFrame s r.state)
    (hf : ∀ u, WriteRunFrame u (f u).state) : WriteRunFrame s (r.andThen f).state :=
  Run.andThen_rel (R := WriteRunFrame) (fun _ _ _ => WriteRunFrame.trans) h fun u _ => hf u

theorem emitAll_frame (es : List Event) (s : State) : WireFrame s (emitAll es s).state := by
  rcases emitAll_cases es s with h | ⟨_, _, _, _, h⟩ | ⟨_, _, _, _, _, h⟩ <;> rw [h] <;> rfl

theorem setAddr_frame (r c : Nat) (s : State) : WireFrame s (setAddr r c s).state := emitAll_frame _ s

theorem moveTo_setAddr_frame (r c r' c' : Nat) (s : State) :
    PositionFrame s (setAddr r c (s.moveTo r' c')).state :=
  PositionFrame.trans (b := s.moveTo r' c') rfl (setAddr_frame r c _).position

theorem clearDisplay_frame (s : State) : PositionFrame s (clearDisplay s).state :=
  PositionFrame.andThen (emitAll_frame _ s).position fun _ => rfl

theorem returnHome_frame (s : State) : PositionFrame s (returnHome s).state :=
  PositionFrame.andThen (emitAll_frame _ s).position fun _ => rfl

theorem eraseDisplay_frame (s : State) : PositionFrame s (eraseDisplay s).state :=
  PositionFrame.andThen (clearDisplay_frame s)
    fun u => returnHome_frame u

theorem writeChar_frame (ch : Byte) (s : State) : PositionFrame s (writeChar ch s).state := by
  refine PositionFrame.andThen (emitAll_frame _ s).position fun u => ?_
  split
  · exact moveTo_setAddr_frame _ _ _ _ u
  · rfl

theorem setCursor_frame (r c : Nat) (s : State) : PositionFrame s (setCursor r c s).state :=
  moveTo_setAddr_frame _ _ _ _ s

theorem tabOp_frame (s : State) : PositionFrame s (tabOp s).state := moveTo_setAddr_frame _ _ _ _ s

theorem carriageReturn_frame (s : State) : PositionFrame s (carriageReturn s).state :=
  moveTo_setAddr_frame _ _ _ _ s

theorem newLine_frame (s : State) : PositionFrame s (newLine s).state := by
  refine PositionFrame.andThen (moveTo_setAddr_frame _ _ _ _ s) fun u => ?_
  exact PositionFrame.andThen (emitAll_frame _ u).position
    fun v => (setAddr_frame _ _ v).position

theorem writeChars_frame (bs : List Byte) (s : State) : PositionFrame s (writeChars bs s).state := by
  induction bs generalizing s with
  | nil => rfl
  | cons b bs ih =>
    exact PositionFrame.andThen (writeChar_frame b s) fun u => ih u

theorem lineFeed_frame (s : State) : LineFrame s (lineFeed s).state := by
  unfold lineFeed; split
  · rfl
  · exact (newLine_frame s).line

theorem pendingNewline_frame (s : State) : LineFrame s (pendingNewline s).state := by
  unfold pendingNewline; split
  · exact LineFrame.trans (b := { s with newlinePending := false }) rfl (newLine_frame _).line
  · rfl

theorem runCommand_frame (c : Command) (s : State) : PositionFrame s (runCommand c s).state := by
  cases c with
  | ed2 => exact eraseDisplay_frame s
  | cup r c => exact setCursor_frame r c s
  | noop => rfl

theorem escFinalOp_frame (b : Byte) (s : State) :
    PositionFrame s.parserIdle (escFinalOp b s).state := runCommand_frame _ _

theorem escFeed_frame (b : Byte) (s : State) : ByteFrame s (escFeed b s).state := by
  unfold escFeed
  split
  · split <;> rfl
  · split
    · rfl
    · split
      · rfl
      · exact ByteFrame.trans (b := s.parserIdle) rfl (escFinalOp_frame b s).line.byte

theorem dispatchByte_frame (b : Byte) (s : State) : ByteFrame s (dispatchByte b s).state := by
  unfold dispatchByte
  split_ifs
  · exact (carriageReturn_frame s).line.byte
  · exact (lineFeed_frame s).byte
  · rfl
  · exact (tabOp_frame s).line.byte
  · exact (writeChar_frame b s).line.byte

theorem writeByte_frame (b : Byte) (s : State) : ByteFrame s (writeByte b s).state := by
  refine ByteFrame.andThen (pendingNewline_frame s).byte fun u => ?_
  split
  · exact escFeed_frame b u
  · exact dispatchByte_frame b u

theorem dirtyClear_frame (s : State) : WriteRunFrame s (dirtyClear s).state := by
  unfold dirtyClear
  split
  · exact WriteRunFrame.andThen (clearDisplay_frame s).line.write
      fun _ => rfl
  · rfl

theorem writeLoop_frame (n : Nat) (s : State) : WriteRunFrame s (writeLoop n s).state := by
  induction n generalizing s with
  | zero => rfl
  | succ n ih =>
    unfold writeLoop
    split
    · rfl
    · exact WriteRunFrame.andThen (writeByte_frame _ s).write
        fun u => WriteRunFrame.trans (b := u.advanceIndex) rfl (ih _)

theorem writeBuffer_frame (buf : List Byte) (s : State) : WriteRunFrame s (writeBuffer buf s).state := by
  refine WriteRunFrame.andThen
    (WriteRunFrame.andThen (dirtyClear_frame s)
      fun u => (pendingNewline_frame u).write) fun u => ?_
  exact WriteRunFrame.trans (b := u.beginLoop buf) rfl (writeLoop_frame _ _)

theorem escReplay_frame (s : State) : PositionFrame s.parserIdle (escReplay s).state :=
  writeChars_frame _ _

theorem setBacklightOp_frame (b : Bool) (s : State) :
    WireFrame { s with backlight := b } (setBacklightOp b s).state := emitAll_frame _ _

theorem setCursorBlinkOp_frame (b : Bool) (s : State) :
    WireFrame { s with cursorBlink := b } (setCursorBlinkOp b s).state := emitAll_frame _ _

theorem setCursorDisplayOp_frame (b : Bool) (s : State) :
    WireFrame { s with cursorVisible := b } (setCursorDisplayOp b s).state := emitAll_frame _ _

theorem initializeOp_frame (s : State) : PositionFrame s.initialized (initializeOp s).state := by
  refine PositionFrame.andThen (emitAll_frame _ _).position fun u => ?_
  refine PositionFrame.andThen (emitAll_frame _ _).position fun u => ?_
  refine PositionFrame.andThen (emitAll_frame _ _).position fun u => ?_
  refine PositionFrame.andThen (emitAll_frame _ _).position fun u => ?_
  refine PositionFrame.andThen (emitAll_frame _ _).position fun u => ?_
  refine PositionFrame.andThen (emitAll_frame _ _).position fun u => ?_
  exact PositionFrame.andThen (clearDisplay_frame _) fun u => (emitAll_frame _ _).position

theorem flushOp_frame (s : State) : WriteRunFrame s (flushOp s).state := by
  refine WriteRunFrame.andThen (pendingNewline_frame s).write fun u => ?_
  split
  · exact WriteRunFrame.trans (b := u.parserIdle) rfl (escReplay_frame u).line.write
  · rfl

/-- How a run ends, in one line: the state it reached, returned with a code, or left hung. -/
theorem Run.returned_cases (r : Run) :
    r.returned = r.state.returnOk ∨ r.returned = r.state.takeBusError ∨ r.returned = r.state := by
  cases r <;> simp

theorem Run.resumed_cases (r : Run) : r.resumed = r.state.takeBusError ∨ r.resumed = r.state := by
  cases r <;> simp

end Sys2Proof.Machine
end

