-- ==== Sys2Proof/Laws/Sends.lean ====
section
/-! SUPPORT. What every shared operation does to the wire, said once for each: it sends an initial part of
whole transfers from the closed list of spec/30_encoding.md R92; all of them if it runs to its end; up to a
failed bus write if it ends with `BusError`; and it hangs only if the environment says so. -/

namespace Sys2Proof.Machine

open Sys2Proof

/-- How the end of a run shows on the wire, for the events es sent and the rest not sent. -/
def Run.EndsWith (s : State) (es rest : List Event) : Run → Prop
  | .done u => rest = [] ∧ u.wire.hung = s.wire.hung
  | .busError u => (∃ b, es.getLast? = some (.write b)) ∧ u.wire.hung = s.wire.hung
  | .hung u => s.wire.hangAt ≠ none ∧ u.wire.hung = true

/-- From s the run sent an initial part of whole listed transfers, with the session's own latch map and
backlight, and it ended as the wire shows. -/
def Run.Sends (s : State) (r : Run) : Prop :=
  r.state.cfg = s.cfg ∧ r.state.backlight = s.backlight ∧
  ∃ (ts : List Transfer) (es rest : List Event),
    es ++ rest = transferEvents s.cfg.latchMap s.backlight ts
    ∧ r.state.wire = { s.wire.extend es with hung := r.state.wire.hung }
    ∧ r.EndsWith s es rest

/-- A run that sends nothing. -/
theorem Run.Sends.quiet {s u : State} (hc : u.cfg = s.cfg) (hb : u.backlight = s.backlight)
    (hw : u.wire = s.wire) : Run.Sends s (.done u) :=
  ⟨hc, hb, [], [], [], rfl, by simp [hw], rfl, by rw [hw]⟩

/-- Sending from a state with the same latch map, backlight and wire is the same. -/
theorem Run.Sends.start {s u : State} {r : Run} (h : Run.Sends u r) (hc : u.cfg = s.cfg)
    (hb : u.backlight = s.backlight) (hw : u.wire = s.wire) : Run.Sends s r := by
  obtain ⟨h1, h2, ts, es, rest, h3, h4, h5⟩ := h
  refine ⟨h1.trans hc, h2.trans hb, ts, es, rest, by rw [h3, hc, hb], by rw [← hw]; exact h4, ?_⟩
  cases r <;> simpa only [Run.EndsWith, hw] using h5

theorem Run.Sends.andThen {s : State} {r : Run} {f : State → Run} (h : Run.Sends s r)
    (hf : ∀ u, r = .done u → Run.Sends u (f u)) : Run.Sends s (r.andThen f) := by
  cases r with
  | busError u => exact h
  | hung u => exact h
  | done u =>
    obtain ⟨h1, h2, ts, es, rest, h3, h4, rfl, h5⟩ := h
    obtain ⟨k1, k2, us, fs, rest', k3, k4, k5⟩ := hf u rfl
    simp only [Run.state_done] at h1 h2 h4
    refine ⟨k1.trans h1, k2.trans h2, ts ++ us, es ++ fs, rest', ?_, ?_, ?_⟩
    · rw [transferEvents_append, List.append_assoc, k3, ← h3, h1, h2]; simp
    · rw [Run.andThen_done, k4, h4]
      simp [Wire.extend, Nat.add_assoc]
    · rw [Run.andThen_done]
      cases hr : f u with
      | done v => rw [hr] at k5; exact ⟨k5.1, k5.2.trans h5⟩
      | busError v =>
        rw [hr] at k5
        obtain ⟨⟨b, hb⟩, k6⟩ := k5
        exact ⟨⟨b, by rw [List.getLast?_append, hb]; rfl⟩, k6.trans h5⟩
      | hung v =>
        rw [hr] at k5
        refine ⟨?_, k5.2⟩
        have := k5.1
        rw [h4] at this
        exact this

/-- Whole listed transfers, sent by `emitAll`. -/
theorem emitAll_sends {s : State} {es : List Event} (ts : List Transfer)
    (h : es = transferEvents s.cfg.latchMap s.backlight ts) : Run.Sends s (emitAll es s) := by
  rcases emitAll_cases es s with k | ⟨pre, b, post, k1, k⟩ | ⟨pre, e, post, k1, k2, k⟩
  · rw [k]; exact ⟨rfl, rfl, ts, es, [], by simp [h], rfl, rfl, rfl⟩
  · rw [k]
    exact ⟨rfl, rfl, ts, pre ++ [.write b], post, by simp [← h, k1], rfl, ⟨b, by simp⟩, rfl⟩
  · rw [k]
    exact ⟨rfl, rfl, ts, pre ++ [e], post, by simp [← h, k1], rfl, k2, rfl⟩

theorem setAddr_sends (r c : Nat) (s : State) : Run.Sends s (setAddr r c s) :=
  emitAll_sends [_] (setAddr_events s r c)

theorem writeData_sends (v : Byte) (s : State) : Run.Sends s (writeData v s) :=
  emitAll_sends [_] (data_events s v)

theorem moveTo_setAddr_sends (r c r' c' : Nat) (s : State) :
    Run.Sends s (setAddr r c (s.moveTo r' c')) := (setAddr_sends r c _).start rfl rfl rfl

theorem clearDisplay_sends (s : State) : Run.Sends s (clearDisplay s) :=
  (emitAll_sends [_] (clear_events s)).andThen fun _ _ => .quiet rfl rfl rfl

theorem returnHome_sends (s : State) : Run.Sends s (returnHome s) :=
  (emitAll_sends [_] (home_events s)).andThen fun _ _ => .quiet rfl rfl rfl

theorem eraseDisplay_sends (s : State) : Run.Sends s (eraseDisplay s) :=
  (clearDisplay_sends s).andThen fun u _ => returnHome_sends u

theorem writeChar_sends (ch : Byte) (s : State) : Run.Sends s (writeChar ch s) := by
  refine (writeData_sends ch s).andThen fun u _ => ?_
  split
  · exact moveTo_setAddr_sends _ _ _ _ u
  · exact .quiet rfl rfl rfl

theorem setCursor_sends (r c : Nat) (s : State) : Run.Sends s (setCursor r c s) :=
  moveTo_setAddr_sends _ _ _ _ s

theorem tabOp_sends (s : State) : Run.Sends s (tabOp s) := moveTo_setAddr_sends _ _ _ _ s

theorem carriageReturn_sends (s : State) : Run.Sends s (carriageReturn s) :=
  moveTo_setAddr_sends _ _ _ _ s

theorem newLine_sends (s : State) : Run.Sends s (newLine s) := by
  refine (moveTo_setAddr_sends _ _ _ _ s).andThen fun u _ => ?_
  exact (emitAll_sends _ (erase_events u)).andThen fun v _ => setAddr_sends _ _ v

theorem writeChars_sends (bs : List Byte) (s : State) : Run.Sends s (writeChars bs s) := by
  induction bs generalizing s with
  | nil => exact .quiet rfl rfl rfl
  | cons b bs ih => exact (writeChar_sends b s).andThen fun u _ => ih u

theorem lineFeed_sends (s : State) : Run.Sends s (lineFeed s) := by
  unfold lineFeed; split
  · exact .quiet rfl rfl rfl
  · exact newLine_sends s

theorem pendingNewline_sends (s : State) : Run.Sends s (pendingNewline s) := by
  unfold pendingNewline; split
  · exact (newLine_sends _).start rfl rfl rfl
  · exact .quiet rfl rfl rfl

theorem runCommand_sends (c : Command) (s : State) : Run.Sends s (runCommand c s) := by
  cases c with
  | ed2 => exact eraseDisplay_sends s
  | cup r c => exact setCursor_sends r c s
  | noop => exact .quiet rfl rfl rfl

theorem escFinalOp_sends (b : Byte) (s : State) : Run.Sends s (escFinalOp b s) :=
  (runCommand_sends _ _).start rfl rfl rfl

theorem escFeed_sends (b : Byte) (s : State) : Run.Sends s (escFeed b s) := by
  unfold escFeed
  split
  · split <;> exact .quiet rfl rfl rfl
  · split
    · exact .quiet rfl rfl rfl
    · split
      · exact .quiet rfl rfl rfl
      · exact escFinalOp_sends b s

theorem dispatchByte_sends (b : Byte) (s : State) : Run.Sends s (dispatchByte b s) := by
  unfold dispatchByte
  split_ifs
  · exact carriageReturn_sends s
  · exact lineFeed_sends s
  · exact .quiet rfl rfl rfl
  · exact tabOp_sends s
  · exact writeChar_sends b s

theorem writeByte_sends (b : Byte) (s : State) : Run.Sends s (writeByte b s) := by
  refine (pendingNewline_sends s).andThen fun u _ => ?_
  split
  · exact escFeed_sends b u
  · exact dispatchByte_sends b u

theorem dirtyClear_sends (s : State) : Run.Sends s (dirtyClear s) := by
  unfold dirtyClear
  split
  · exact (clearDisplay_sends s).andThen fun _ _ => .quiet rfl rfl rfl
  · exact .quiet rfl rfl rfl

theorem writeLoop_sends (n : Nat) (s : State) : Run.Sends s (writeLoop n s) := by
  induction n generalizing s with
  | zero => exact .quiet rfl rfl rfl
  | succ n ih =>
    unfold writeLoop
    split
    · exact .quiet rfl rfl rfl
    · exact (writeByte_sends _ s).andThen fun u _ => (ih _).start rfl rfl rfl

theorem writeBuffer_sends (buf : List Byte) (s : State) : Run.Sends s (writeBuffer buf s) :=
  ((dirtyClear_sends s).andThen fun u _ => pendingNewline_sends u).andThen
    fun _ _ => (writeLoop_sends _ _).start rfl rfl rfl

theorem initializeOp_sends (s : State) : Run.Sends s (initializeOp s) := by
  refine Run.Sends.start (u := s.initialized) ?_ rfl rfl rfl
  refine (emitAll_sends [_] (fset8Bit_events _ .first)).andThen fun u _ => ?_
  refine (emitAll_sends [_] (fset8Bit_events _ .second)).andThen fun u _ => ?_
  refine (emitAll_sends [_] (fset8Bit_events _ .third)).andThen fun u _ => ?_
  refine (emitAll_sends [_] (fset4Bit_events _)).andThen fun u _ => ?_
  refine (emitAll_sends [_] (fset4Bit2Line_events _)).andThen fun u _ => ?_
  refine (emitAll_sends [_] (displayCtrl_events _)).andThen fun u _ => ?_
  exact (clearDisplay_sends _).andThen fun u _ => emitAll_sends [_] (entryInc_events _)

theorem setGeometryOp_sends (g : Geometry) (s : State) : Run.Sends s (setGeometryOp g s) := by
  refine Run.Sends.start (u := s.withGeometry g) ?_ rfl rfl rfl
  exact (clearDisplay_sends _).andThen fun u _ => .quiet rfl rfl rfl

theorem sendDisplayCtrl_sends (s : State) : Run.Sends s (sendDisplayCtrl s) :=
  emitAll_sends [_] (displayCtrl_events s)

theorem escReplay_sends (s : State) : Run.Sends s (escReplay s) :=
  (writeChars_sends _ _).start rfl rfl rfl

theorem flushOp_sends (s : State) : Run.Sends s (flushOp s) := by
  refine (pendingNewline_sends s).andThen fun u _ => ?_
  split
  · exact escReplay_sends u
  · exact .quiet rfl rfl rfl

/-- `setBacklight`'s one bus write comes after its flag is written (R222). -/
theorem setBacklightOp_sends (b : Bool) (s : State) :
    Run.Sends { s with backlight := b } (setBacklightOp b s) :=
  emitAll_sends [.control b] rfl

end Sys2Proof.Machine
end

