-- ==== Sys2Proof/Laws/Exec.lean ====
section
/-! SUPPORT. `exec` as the run of its shared operation: what an instruction runs, and that `exec` answers
next exactly when it has a run, with the state that run leaves. Provers cite `exec_next` and take the
cases of `instrRun` instead of unfolding `exec`. -/

namespace Sys2Proof.Machine

open Sys2Proof

/-- The run of an instruction; none where it is refused. -/
def instrRun (s : State) : Instr → Option Run
  | .cr => some (carriageReturn s)
  | .lf => some (lineFeed s)
  | .esc => some (.done (escEnter s))
  | .tab => some (tabOp s)
  | .char ch => some (writeChar ch s)
  | .escLbracket => some (.done (escBracket s))
  | .escIgnore _ => some (.done s)
  | .escDigit d => some (.done (escDigitOp (digitByte d) s))
  | .escSemi => some (.done (escSemiOp s))
  | .escFinal b => some (escFinalOp b s)
  | .ed2 => some (eraseDisplay s)
  | .cup r c => some (setCursor r c s)
  | .escNoop _ => some (.done s)
  | .latch d _ en rs => some (emitAll [.write (s.latch d rs en)] s)
  | .backlightCtl b => some (emitAll [.write (backlightByte s.cfg.latchMap b)] s)
  | .clear => some (clearDisplay s)
  | .home => some (returnHome s)
  | .entryInc => some (writeInstruction codeEntryInc Config.tInstr s)
  | .displayCtrl _ _ => some (writeInstruction s.displayCtrl Config.tInstr s)
  | .fset8BitHno w => some (writeHighNibble codeFset8Bit (bootWait w) s)
  | .fset4BitHno => some (writeHighNibble codeFset4Bit Config.tInstr s)
  | .fset4Bit2Line => some (writeInstruction codeFset4Bit2Line Config.tInstr s)
  | .setDdram a => some (writeInstruction (codeSetDdram a) Config.tInstr s)
  | .data v => some (writeData v s)
  | .initializeDisplay => some (initializeOp s)
  | .write buf => some (writeBuffer buf s)
  | .print str => (beforeNul str).map (writeBuffer · s)
  | .setGeometry op => (resolveGeometry s.cfg op).map (setGeometryOp · s)
  | .setBacklight b => (bitOperand b).map (setBacklightOp · s)
  | .setCursorBlink b => (bitOperand b).map (setCursorBlinkOp · s)
  | .setCursorDisplay b => (bitOperand b).map (setCursorDisplayOp · s)
  | .flush => some (flushOp s)
  | .hostReserved _ => none

/-- An input byte's decoded instruction runs what the parser or the dispatcher does with the byte
(spec/43_dispatcher.md R210, spec/30_encoding.md R81 to R83). -/
theorem instrRun_decodeStream (s : State) (b : Byte) :
    instrRun s (decodeStream s.parserMode b)
      = some (if s.inEscape then escFeed b s else dispatchByte b s) := by
  have hd : isDigit b = true ↔ 0x30 ≤ b.toNat ∧ b.toNat ≤ 0x39 := by simp [isDigit]
  unfold State.parserMode
  cases s.inEscape
  · simp only [Bool.false_eq_true, if_false, decodeStream, dispatchByte]
    split_ifs <;> rfl
  · simp only [if_true, escFeed]
    cases s.esc.state
    · simp only [decodeStream]
      split_ifs <;> rfl
    · simp only [decodeStream]
      by_cases h : isDigit b = true
      · have hb : digitByte ⟨b.toNat - 0x30, by have := hd.1 h; omega⟩ = b := by
          apply BitVec.eq_of_toNat_eq
          have := hd.1 h
          simp [digitByte]; omega
        rw [dif_pos (hd.1 h), if_pos h, instrRun, hb]
      · rw [dif_neg (fun k => h (hd.2 k)), if_neg h]
        split_ifs <;> rfl

/-- The state an instruction's run leaves: a host operation returns, a part of one is resumed from. -/
def Run.left (i : Instr) (r : Run) : State := if i.port = .host then r.returned else r.resumed

/-- `exec` answers next exactly when the instruction has a run, with the state it leaves. -/
theorem exec_next {i : Instr} {s t : State} :
    exec i s = .next t ↔ ∃ r, instrRun s i = some r ∧ t = r.left i := by
  cases i <;>
    simp [exec, instrRun, Run.left, Instr.port, execCr, execLf, execEsc, execTab, execChar,
      execEscLbracket, execEscIgnore, execEscDigit, execEscSemi, execEscFinal, execEd2, execCup,
      execEscNoop, execLatch, execBacklightCtl, execClear, execHome, execEntryInc, execDisplayCtrl,
      execFset8BitHno, execFset4BitHno, execFset4Bit2Line, execSetDdram, execData,
      execInitializeDisplay, execWrite, execPrint, execSetGeometry, execSetBacklight,
      execSetCursorBlink, execSetCursorDisplay, execFlush, execHostReserved, Run.part, Run.finish,
      eq_comm]
  case print str => cases beforeNul str <;> simp [eq_comm]
  case setGeometry op => cases resolveGeometry s.cfg op <;> simp [eq_comm]
  case setBacklight b => rcases bitOperand b with _ | _ | _ <;> simp [eq_comm]
  case setCursorBlink b => rcases bitOperand b with _ | _ | _ <;> simp [eq_comm]
  case setCursorDisplay b => rcases bitOperand b with _ | _ | _ <;> simp [eq_comm]

/-- What a run leaves, by how it ended. -/
theorem Run.left_cases (i : Instr) (r : Run) :
    r.left i = { r.state with running := (r.left i).running, result := (r.left i).result } := by
  unfold Run.left
  split <;> cases r <;> rfl

@[simp] theorem Run.left_wire (i : Instr) (r : Run) : (r.left i).wire = r.state.wire := by
  rw [Run.left_cases]

/-- Every run but those of `setBacklight` and of a latch byte sends listed transfers. -/
theorem instrRun_sends {i : Instr} {s : State} {r : Run} (h : instrRun s i = some r)
    (hl : i.port ≠ .latch) (hb : ∀ b, i ≠ .setBacklight b) : Run.Sends s r := by
  cases i <;> simp only [instrRun, Option.some.injEq, Option.map_eq_some_iff, reduceCtorEq] at h
  case latch => exact absurd rfl hl
  case setBacklight b => exact absurd rfl (hb b)
  case cr => exact h ▸ carriageReturn_sends s
  case lf => exact h ▸ lineFeed_sends s
  case esc => exact h ▸ .quiet rfl rfl rfl
  case tab => exact h ▸ tabOp_sends s
  case char ch => exact h ▸ writeChar_sends ch s
  case escLbracket => exact h ▸ .quiet rfl rfl rfl
  case escIgnore => exact h ▸ .quiet rfl rfl rfl
  case escDigit => exact h ▸ .quiet rfl rfl rfl
  case escSemi => exact h ▸ .quiet rfl rfl rfl
  case escFinal b => exact h ▸ escFinalOp_sends b s
  case ed2 => exact h ▸ eraseDisplay_sends s
  case cup r c => exact h ▸ setCursor_sends r c s
  case escNoop => exact h ▸ .quiet rfl rfl rfl
  case backlightCtl b => exact h ▸ emitAll_sends [_] (control_events s b)
  case clear => exact h ▸ clearDisplay_sends s
  case home => exact h ▸ returnHome_sends s
  case entryInc => exact h ▸ emitAll_sends [_] (entryInc_events s)
  case displayCtrl => exact h ▸ emitAll_sends [_] (displayCtrl_events s)
  case fset8BitHno w => exact h ▸ emitAll_sends [_] (fset8Bit_events s w)
  case fset4BitHno => exact h ▸ emitAll_sends [_] (fset4Bit_events s)
  case fset4Bit2Line => exact h ▸ emitAll_sends [_] (fset4Bit2Line_events s)
  case setDdram a => exact h ▸ emitAll_sends [_] (setDdram_events s a)
  case data v => exact h ▸ writeData_sends v s
  case initializeDisplay => exact h ▸ initializeOp_sends s
  case write buf => exact h ▸ writeBuffer_sends buf s
  case print str => obtain ⟨buf, -, rfl⟩ := h; exact writeBuffer_sends buf s
  case setGeometry op => obtain ⟨g, -, rfl⟩ := h; exact setGeometryOp_sends g s
  case setCursorBlink b =>
    obtain ⟨v, -, rfl⟩ := h; exact (sendDisplayCtrl_sends _).start rfl rfl rfl
  case setCursorDisplay b =>
    obtain ⟨v, -, rfl⟩ := h; exact (sendDisplayCtrl_sends _).start rfl rfl rfl
  case flush => exact h ▸ flushOp_sends s

/-- The run of any instruction only appends to the trace and uses up the answers of its bus writes. -/
theorem instrRun_wire {i : Instr} {s : State} {r : Run} (h : instrRun s i = some r) :
    ∃ es, r.state.wire = { s.wire.extend es with hung := r.state.wire.hung } := by
  by_cases hl : i.port = .latch
  · cases i <;> simp only [Instr.port, reduceCtorEq] at hl
    simp only [instrRun, Option.some.injEq] at h
    subst h
    rcases emitAll_cases [.write (s.latch _ _ _)] s with k | ⟨_, _, _, _, k⟩ | ⟨_, _, _, _, _, k⟩ <;>
      rw [k] <;> exact ⟨_, rfl⟩
  by_cases hb : ∃ b, i = .setBacklight b
  · obtain ⟨b, rfl⟩ := hb
    simp only [instrRun, Option.map_eq_some_iff] at h
    obtain ⟨v, -, rfl⟩ := h
    obtain ⟨-, -, -, es, -, -, h4, -⟩ := setBacklightOp_sends v s
    exact ⟨es, h4⟩
  · obtain ⟨-, -, -, es, -, -, h4, -⟩ := instrRun_sends h hl (by simpa using hb)
    exact ⟨es, h4⟩

end Sys2Proof.Machine
end

