-- ==== Sys2Proof/Laws/Skew.lean ====
section
/-! SUPPORT. The operations do not look at some of the state: an update that keeps what they read and
commutes with what they write commutes with them. One lemma per operation, first for any such update of
what the position operations do not touch, then for the byte loop and the result code, which nothing
below `write` touches. -/

namespace Sys2Proof.Machine

open Sys2Proof

/-- A run with its state updated. -/
def Run.map (f : State → State) : Run → Run
  | .done s => .done (f s)
  | .busError s => .busError (f s)
  | .hung s => .hung (f s)

@[simp] theorem Run.map_done (f : State → State) (s : State) : (Run.done s).map f = .done (f s) := rfl
@[simp] theorem Run.map_busError (f : State → State) (s : State) :
    (Run.busError s).map f = .busError (f s) := rfl
@[simp] theorem Run.map_hung (f : State → State) (s : State) : (Run.hung s).map f = .hung (f s) := rfl
@[simp] theorem Run.map_state (f : State → State) (r : Run) : (r.map f).state = f r.state := by
  cases r <;> rfl

/-- An update that a piece of pseudocode and what follows it both commute with. -/
theorem Run.map_andThen {f : State → State} {r r' : Run} {g h : State → Run} (hr : r' = r.map f)
    (hg : ∀ u, g (f u) = (h u).map f) : r'.andThen g = (r.andThen h).map f := by
  subst hr; cases r <;> simp [hg]

/-- The update keeps everything the position operations read, and commutes with what they write. -/
structure Skew (f : State → State) : Prop where
  extend : ∀ s es, f (s.extend es) = (f s).extend es
  hang : ∀ s : State, f s.hang = (f s).hang
  moveTo : ∀ s r c, f (s.moveTo r c) = (f s).moveTo r c
  wire : ∀ s, (f s).wire = s.wire
  geometry : ∀ s, (f s).geometry = s.geometry
  row : ∀ s, (f s).row = s.row
  col : ∀ s, (f s).col = s.col
  backlight : ∀ s, (f s).backlight = s.backlight
  latchMap : ∀ s, (f s).cfg.latchMap = s.cfg.latchMap

namespace Skew

variable {f : State → State}

theorem emit (h : Skew f) (e : Event) (s : State) : emit e (f s) = (emit e s).map f := by
  unfold Machine.emit
  simp only [h.wire, ← h.extend, ← h.hang]
  split_ifs <;> rfl

theorem emitAll (h : Skew f) (es : List Event) (s : State) :
    emitAll es (f s) = (emitAll es s).map f := by
  induction es generalizing s with
  | nil => rfl
  | cons e es ih => exact Run.map_andThen (h.emit e s) ih

theorem nibbleEvents (h : Skew f) (s : State) (n : Nibble) (rs : Bool) :
    nibbleEvents (f s) n rs = nibbleEvents s n rs := by
  simp only [Machine.nibbleEvents, State.latch, State.enBit, h.backlight, h.latchMap]

theorem instructionEvents (h : Skew f) (s : State) (v : Byte) (t : Nat) :
    instructionEvents (f s) v t = instructionEvents s v t := by
  simp only [Machine.instructionEvents, h.nibbleEvents]

theorem dataEvents (h : Skew f) (s : State) (v : Byte) : dataEvents (f s) v = dataEvents s v := by
  simp only [Machine.dataEvents, h.nibbleEvents]

theorem setAddrEvents (h : Skew f) (s : State) (r c : Nat) :
    setAddrEvents (f s) r c = setAddrEvents s r c := by
  simp only [Machine.setAddrEvents, h.instructionEvents, State.addrCode, State.addr, h.geometry]

theorem eraseEvents (h : Skew f) (s : State) : eraseEvents (f s) = eraseEvents s := by
  simp only [Machine.eraseEvents, h.dataEvents, h.geometry]

theorem writeInstruction (h : Skew f) (v : Byte) (t : Nat) (s : State) :
    writeInstruction v t (f s) = (writeInstruction v t s).map f := by
  rw [Machine.writeInstruction, h.instructionEvents]; exact h.emitAll _ s

theorem writeHighNibble (h : Skew f) (v : Byte) (t : Nat) (s : State) :
    writeHighNibble v t (f s) = (writeHighNibble v t s).map f := by
  rw [Machine.writeHighNibble, highNibbleEvents, h.nibbleEvents]; exact h.emitAll _ s

theorem writeData (h : Skew f) (v : Byte) (s : State) : writeData v (f s) = (writeData v s).map f := by
  rw [Machine.writeData, h.dataEvents]; exact h.emitAll _ s

theorem setAddr (h : Skew f) (r c : Nat) (s : State) : setAddr r c (f s) = (setAddr r c s).map f := by
  rw [Machine.setAddr, h.setAddrEvents]; exact h.emitAll _ s

theorem nextRow (h : Skew f) (s : State) : (f s).nextRow = s.nextRow := by
  simp only [State.nextRow, h.row, h.geometry]

theorem writeChar (h : Skew f) (ch : Byte) (s : State) :
    writeChar ch (f s) = (writeChar ch s).map f := by
  refine Run.map_andThen (h.writeData ch s) fun u => ?_
  simp only [h.col, h.geometry, h.nextRow, h.row, ← h.moveTo, h.setAddr]
  split_ifs <;> rfl

theorem writeChars (h : Skew f) (bs : List Byte) (s : State) :
    writeChars bs (f s) = (writeChars bs s).map f := by
  induction bs generalizing s with
  | nil => rfl
  | cons b bs ih => exact Run.map_andThen (h.writeChar b s) ih

theorem setCursor (h : Skew f) (r c : Nat) (s : State) :
    setCursor r c (f s) = (setCursor r c s).map f := by
  simp only [Machine.setCursor, h.geometry, ← h.moveTo, h.setAddr]

theorem tabOp (h : Skew f) (s : State) : tabOp (f s) = (tabOp s).map f := by
  simp only [Machine.tabOp, State.tabTarget, h.geometry, h.col, h.row, h.nextRow, ← h.moveTo, h.setAddr]

theorem carriageReturn (h : Skew f) (s : State) : carriageReturn (f s) = (carriageReturn s).map f := by
  simp only [Machine.carriageReturn, h.row, ← h.moveTo, h.setAddr]

theorem newLine (h : Skew f) (s : State) : newLine (f s) = (newLine s).map f := by
  unfold Machine.newLine
  dsimp only
  rw [h.nextRow, ← h.moveTo, h.row]
  refine Run.map_andThen (h.setAddr _ _ _) fun u => ?_
  rw [h.eraseEvents]
  refine Run.map_andThen (h.emitAll _ u) fun v => ?_
  rw [h.row, h.setAddr]

theorem clearDisplay (h : Skew f) (s : State) : clearDisplay (f s) = (clearDisplay s).map f :=
  Run.map_andThen (h.writeInstruction _ _ s) fun u => by rw [← h.moveTo]; rfl

theorem returnHome (h : Skew f) (s : State) : returnHome (f s) = (returnHome s).map f :=
  Run.map_andThen (h.writeInstruction _ _ s) fun u => by rw [← h.moveTo]; rfl

theorem eraseDisplay (h : Skew f) (s : State) : eraseDisplay (f s) = (eraseDisplay s).map f :=
  Run.map_andThen (h.clearDisplay s) h.returnHome

theorem runCommand (h : Skew f) (c : Command) (s : State) :
    runCommand c (f s) = (runCommand c s).map f := by
  cases c with
  | ed2 => exact h.eraseDisplay s
  | cup r c => exact h.setCursor r c s
  | noop => rfl

end Skew

/-! ### The byte loop and the result code -/

/-- The byte loop and the result code set. -/
def State.withLoop (w : Option WriteLoop) (c : Option ResultCode) (s : State) : State :=
  { s with running := w, result := c }

/-- The position operations neither read nor write the byte loop and the result code. -/
theorem skew_withLoop (w : Option WriteLoop) (c : Option ResultCode) : Skew (State.withLoop w c) := by
  constructor <;> intros <;> rfl

theorem pendingNewline_withLoop (w : Option WriteLoop) (c : Option ResultCode) (s : State) :
    pendingNewline (s.withLoop w c) = (pendingNewline s).map (State.withLoop w c) := by
  unfold pendingNewline
  by_cases h : s.newlinePending = true
  · rw [if_pos h, if_pos (by exact h)]
    exact (skew_withLoop w c).newLine { s with newlinePending := false }
  · rw [if_neg h, if_neg (by exact h)]; rfl

theorem escFeed_withLoop (w : Option WriteLoop) (c : Option ResultCode) (b : Byte) (s : State) :
    escFeed b (s.withLoop w c) = (escFeed b s).map (State.withLoop w c) := by
  unfold escFeed
  rw [show (s.withLoop w c).esc = s.esc from rfl]
  split
  · split_ifs <;> rfl
  · split_ifs
    · rfl
    · rfl
    · exact (skew_withLoop w c).runCommand _ s.parserIdle

theorem dispatchByte_withLoop (w : Option WriteLoop) (c : Option ResultCode) (b : Byte) (s : State) :
    dispatchByte b (s.withLoop w c) = (dispatchByte b s).map (State.withLoop w c) := by
  unfold dispatchByte
  split_ifs
  · exact (skew_withLoop w c).carriageReturn s
  · unfold lineFeed
    by_cases h : s.cursorShown = true
    · rw [if_pos h, if_pos (by exact h)]; rfl
    · rw [if_neg h, if_neg (by exact h)]; exact (skew_withLoop w c).newLine s
  · rfl
  · exact (skew_withLoop w c).tabOp s
  · exact (skew_withLoop w c).writeChar b s

/-- One byte of a `write` does not look at the byte loop or the result code. -/
theorem writeByte_withLoop (w : Option WriteLoop) (c : Option ResultCode) (b : Byte) (s : State) :
    writeByte b (s.withLoop w c) = (writeByte b s).map (State.withLoop w c) := by
  refine Run.map_andThen (pendingNewline_withLoop w c s) fun u => ?_
  by_cases h : u.inEscape = true
  · rw [if_pos h, if_pos (by exact h)]; exact escFeed_withLoop w c b u
  · rw [if_neg h, if_neg (by exact h)]; exact dispatchByte_withLoop w c b u

end Sys2Proof.Machine
end

