-- ==== Sys2Proof/Laws/Loop.lean ====
section
/-! SUPPORT. The byte loop of a `write` (spec/43_dispatcher.md R210) as a recursion over the bytes left:
where no primitive hangs, the index and the buffer are seen in nothing the operation leaves. -/

namespace Sys2Proof.Machine

open Sys2Proof

/-- A run that sends keeps the environment's grant that nothing hangs. -/
theorem Run.Sends.neverHangs {s : State} {r : Run} (h : Run.Sends s r) (hs : s.neverHangs) :
    r.state.neverHangs := by
  obtain ⟨-, -, ts, es, rest, -, h4, -⟩ := h
  show r.state.wire.hangAt = none
  rw [h4]; exact hs

/-- A run that sends hangs only if the environment says so. -/
theorem Run.Sends.not_hung {s u : State} (h : Run.Sends s (.hung u)) (hs : s.neverHangs) : False := by
  obtain ⟨-, -, ts, es, rest, -, -, h5⟩ := h
  exact h5.1 hs

/-- The bytes dispatched one after another. -/
def writeBytes : List Byte → State → Run
  | [], s => .done s
  | b :: bs, s => (writeByte b s).andThen (writeBytes bs)

theorem writeBytes_append (xs ys : List Byte) (s : State) :
    writeBytes (xs ++ ys) s = (writeBytes xs s).andThen (writeBytes ys) := by
  induction xs generalizing s with
  | nil => rfl
  | cons b xs ih =>
    simp only [List.cons_append, writeBytes, Run.andThen_assoc]
    congr 1; funext u; exact ih u

theorem writeBytes_sends (bs : List Byte) (s : State) : Run.Sends s (writeBytes bs s) := by
  induction bs generalizing s with
  | nil => exact .quiet rfl rfl rfl
  | cons b bs ih => exact (writeByte_sends b s).andThen fun u _ => ih u

theorem writeBytes_frame (bs : List Byte) (s : State) : ByteFrame s (writeBytes bs s).state := by
  induction bs generalizing s with
  | nil => rfl
  | cons b bs ih => exact ByteFrame.andThen (writeByte_frame b s) ih

/-- Dispatching bytes does not look at the byte loop or the result code. -/
theorem writeBytes_withLoop (w : Option WriteLoop) (c : Option ResultCode) (bs : List Byte) (s : State) :
    writeBytes bs (s.withLoop w c) = (writeBytes bs s).map (State.withLoop w c) := by
  induction bs generalizing s with
  | nil => rfl
  | cons b bs ih => exact Run.map_andThen (writeByte_withLoop w c b s) ih

/-- What a run returns does not depend on the byte loop and the result code, if it does not hang. -/
theorem Run.returned_withLoop {w : Option WriteLoop} {c : Option ResultCode} {r : Run}
    (h : ∀ u, r ≠ .hung u) : (r.map (State.withLoop w c)).returned = r.returned := by
  cases r with
  | done u => rfl
  | busError u => rfl
  | hung u => exact absurd rfl (h u)

theorem Run.returned_andThen_congr {r : Run} {f g : State → Run}
    (h : ∀ u, r = .done u → (f u).returned = (g u).returned) :
    (r.andThen f).returned = (r.andThen g).returned := by
  cases r with
  | done u => exact h u rfl
  | busError u => rfl
  | hung u => rfl

/-- Where nothing hangs, the byte loop from index k returns what dispatching the bytes from k on does. -/
theorem writeLoop_returned (n : Nat) {s : State} {w : WriteLoop} (hw : s.running = some w)
    (hn : w.buf.length = w.index + n) (hs : s.neverHangs) :
    (writeLoop n s).returned = (writeBytes (w.buf.drop w.index) s).returned := by
  induction n generalizing s w with
  | zero => rw [List.drop_eq_nil_of_le (by omega)]; rfl
  | succ n ih =>
    have hlt : w.index < w.buf.length := by omega
    rw [List.drop_eq_getElem_cons hlt, writeBytes, writeLoop]
    have hb : s.currentByte = some w.buf[w.index] := by
      simp [State.currentByte, hw]
    rw [hb]
    refine Run.returned_andThen_congr fun u hu => ?_
    have hsu : u.neverHangs := by
      have h := (writeByte_sends w.buf[w.index] s).neverHangs hs
      rw [hu] at h; exact h
    have hru : u.running = some w := by
      have h := writeByte_frame w.buf[w.index] s
      rw [hu] at h
      unfold ByteFrame at h
      simp only [Run.state_done] at h
      rw [h]; exact hw
    have hadv : u.advanceIndex.running = some ⟨w.buf, w.index + 1⟩ := by
      simp [State.advanceIndex, hru]
    rw [ih hadv (by simp; omega) (by exact hsu)]
    have hl : u.advanceIndex = u.withLoop u.advanceIndex.running u.result := rfl
    rw [hl, writeBytes_withLoop, Run.returned_withLoop]
    intro v hv
    have h := writeBytes_sends (w.buf.drop (w.index + 1)) u
    rw [hv] at h
    exact h.not_hung hsu

/-- Where nothing hangs, `write` returns what its prologue and then its bytes do (R210). -/
theorem writeBuffer_returned (buf : List Byte) {s : State} (hs : s.neverHangs) :
    (writeBuffer buf s).returned = ((writePrologue s).andThen (writeBytes buf)).returned := by
  refine Run.returned_andThen_congr fun u hu => ?_
  have hsu : u.neverHangs := by
    have h := ((dirtyClear_sends s).andThen fun u _ => pendingNewline_sends u).neverHangs hs
    change (writePrologue s).state.neverHangs at h
    rw [hu] at h; exact h
  rw [writeLoop_returned (s := u.beginLoop buf) (w := ⟨buf, 0⟩) buf.length rfl (by simp) hsu]
  have hl : u.beginLoop buf = u.withLoop (some ⟨buf, 0⟩) u.result := rfl
  rw [hl, List.drop_zero, writeBytes_withLoop, Run.returned_withLoop]
  intro v hv
  have h := writeBytes_sends buf u
  rw [hv] at h
  exact h.not_hung hsu

end Sys2Proof.Machine
end

