-- ==== Sys2Proof/Laws/PerInstr.lean ====
section
/-! SUPPORT. Decode and encode agree, one lemma for each instruction. -/

namespace Sys2Proof

open Machine

/-! ### Bytes and words -/

@[simp] theorem byteOf_toNat (b : Byte) : byteOf b.toNat = some b := by
  have h : b.toNat < 256 := b.isLt
  simp [byteOf, h]

theorem bytesOf_cons (b : Byte) (ws : List Nat) :
    bytesOf (b.toNat :: ws) = (bytesOf ws).map (b :: ·) := by
  rw [bytesOf, byteOf_toNat]; cases bytesOf ws <;> rfl

@[simp] theorem bytesOf_wordsOf (bs : List Byte) : bytesOf (wordsOf bs) = some bs := by
  induction bs with
  | nil => rfl
  | cons b bs ih => simp only [wordsOf, List.map_cons, bytesOf_cons] at ih ⊢; simp [ih]

@[simp] theorem length_wordsOf (bs : List Byte) : (wordsOf bs).length = bs.length := by simp [wordsOf]

@[simp] theorem decodeOneByte_wordsOf (f : Byte → Decoded) (b : Byte) :
    decodeOneByte f (wordsOf [b]) = f b := by simp [decodeOneByte, wordsOf]

@[simp] theorem decodeByteOperand_wordsOf (f : Byte → Instr) (b : Byte) :
    decodeByteOperand f (wordsOf [b]) = .instr (f b) := by simp [decodeByteOperand, wordsOf]

/-! ### Latch bytes -/

/-- The fields of a latch byte, on a latch map of four distinct bits (spec/30_encoding.md R90). -/
theorem latchByte_fields (m : LatchMap) (n : Nibble) (bl en rs : Bool) (h : m.distinct = true) :
    highNibble (latchByte m n bl en rs) = n
    ∧ (latchByte m n bl en rs).getLsbD m.bl = bl
    ∧ (latchByte m n bl en rs).getLsbD m.en = en
    ∧ (latchByte m n bl en rs).getLsbD m.rw = false
    ∧ (latchByte m n bl en rs).getLsbD m.rs = rs := by
  obtain ⟨a, b, c, d⟩ := m
  simp only [LatchMap.distinct, decide_eq_true_eq] at h
  fin_cases a <;> fin_cases b <;> fin_cases c <;> fin_cases d <;> simp_all <;>
    (revert n; cases bl <;> cases en <;> cases rs <;> decide)

/-! ### Parameter text -/

/-- The byte of the last decimal digit of k. -/
theorem toNat_digit (k : Nat) : (BitVec.ofNat 8 (0x30 + k % 10)).toNat = 0x30 + k % 10 := by
  simp; omega

theorem isDigit_digit (k : Nat) : isDigit (BitVec.ofNat 8 (0x30 + k % 10)) = true := by
  rw [isDigit, toNat_digit]; simp; omega

theorem digit_ne_zero (k : Nat) (h : k % 10 ≠ 0) : BitVec.ofNat 8 (0x30 + k % 10) ≠ chZero := by
  intro e
  have := congrArg BitVec.toNat e
  rw [toNat_digit] at this
  simp [chZero] at this
  omega

theorem decimalText_digits (n : Nat) : ∀ b ∈ decimalText n, isDigit b = true := by
  unfold decimalText
  split_ifs <;> simp [isDigit_digit]

theorem length_decimalText (n : Nat) : (decimalText n).length ≤ 4 := by
  unfold decimalText
  split_ifs <;> simp

theorem decimalText_ne_nil (n : Nat) : decimalText n ≠ [] := by
  unfold decimalText
  split_ifs <;> simp

/-- The parser reads back what `decimalText` writes. -/
theorem parseParam_decimalText (n : Nat) (h : n ≤ 9999) : parseParam (decimalText n) = some n := by
  unfold decimalText
  split_ifs
  · simp [parseParam, digitsValue]; omega
  · rw [parseParam, if_neg (fun k => digit_ne_zero _ (by omega) k.1)]
    simp only [digitsValue, List.foldl, toNat_digit]; congr 1; omega
  · rw [parseParam, if_neg (fun k => digit_ne_zero _ (by omega) k.1)]
    simp only [digitsValue, List.foldl, toNat_digit]; congr 1; omega
  · rw [parseParam, if_neg (fun k => digit_ne_zero _ (by omega) k.1)]
    simp only [digitsValue, List.foldl, toNat_digit]; congr 1; omega

/-- A byte appended to the replay record, whether or not there was room, is seen in no other field. -/
theorem replayAppend_eq (cap : Nat) (b : Byte) (e : EscBuffer) :
    ∃ r, replayAppend cap b e = { e with replay := r } := by
  unfold replayAppend; split
  · exact ⟨_, rfl⟩
  · exact ⟨e.replay, rfl⟩

/-- Digits that fit in `raw` join it. -/
theorem scanParams_digits (ds rest : List Byte) (e : EscBuffer) (hd : ∀ b ∈ ds, isDigit b = true)
    (hl : e.raw.length + ds.length ≤ 4) :
    ∃ r, scanParams e (ds ++ rest) = scanParams { e with raw := e.raw ++ ds, replay := r } rest := by
  induction ds generalizing e with
  | nil => exact ⟨e.replay, by simp⟩
  | cons d ds ih =>
    simp only [List.length_cons] at hl
    obtain ⟨r, hr⟩ := replayAppend_eq leastParams.replayCap d e
    have hstep : digitStep leastParams d e = { e with raw := e.raw ++ [d], replay := r } := by
      have : e.raw.length < Config.rawCap := by simp only [Config.rawCap]; omega
      simp [digitStep, hr, this]
    obtain ⟨r', h'⟩ := ih (digitStep leastParams d e) (fun b hb => hd b (by simp [hb]))
      (by simp [hstep]; omega)
    refine ⟨r', ?_⟩
    rw [List.cons_append, scanParams, if_pos (hd d (by simp)), h', hstep]
    simp

/-- The canonical spelling of CUP is recognised as it (R85). -/
theorem recognise_cupBytes (r c : Nat) (hr : r ≤ 9999) (hc : c ≤ 9999) :
    recognise (cupBytes r c) = some (.cup r c) := by
  have key : ∀ e : EscBuffer, e.raw = [] → e.paramCount = 0 → e.params = [0, 0] → e.error = false →
      (scanParams e (decimalText r ++ chSemi :: (decimalText c ++ [chH]))).map
        (fun x => commandOf (finalBuffer 2 x.1) x.2) = some (.cup r c) := by
    intro e h1 h2 h3 h4
    obtain ⟨x, hx⟩ := scanParams_digits (decimalText r) (chSemi :: (decimalText c ++ [chH])) e
      (decimalText_digits r) (by simpa [h1] using length_decimalText r)
    rw [hx, scanParams, if_neg (by decide), if_pos rfl, semiStep]
    obtain ⟨y, hy⟩ := replayAppend_eq leastParams.replayCap chSemi
      { e with raw := e.raw ++ decimalText r, replay := x }
    rw [hy]
    simp only [finalizeParam, h1, List.nil_append, parseParam_decimalText r hr, h2, h3, leastParams,
      show (0 : Nat) < 2 from by decide, if_true, List.set_cons_zero]
    obtain ⟨z, hz⟩ := scanParams_digits (decimalText c) [chH]
      { e with raw := [], params := [r, 0], paramCount := 1, replay := y }
      (decimalText_digits c) (by simpa using length_decimalText c)
    simp only [Nat.zero_add]
    rw [hz, scanParams, if_neg (by decide), if_neg (by decide), if_pos rfl]
    simp [finalBuffer, decimalText_ne_nil, finalizeParam, parseParam_decimalText c hc, commandOf, h4,
      show chH ≠ chJ from by decide]
  have h : cupBytes r c
      = chEsc :: chLbracket :: (decimalText r ++ chSemi :: (decimalText c ++ [chH])) := by
    simp [cupBytes]
  rw [h, recognise, if_pos rfl, scanBracket, if_pos rfl]
  exact key _ rfl rfl rfl rfl

namespace Laws.RoundTrip

/-- The words of a well-formed instruction, in a context they stand for it in, decode to it. -/
def Statement (i : Instr) : Prop :=
  ∀ (ctx : Context) (p : Params), ctx.fits i = true → i.wf p = true →
    decode ctx (encode ctx.map i) = .instr i

/-! #### Input bytes -/

/-- An input byte in the parser state its class belongs to. -/
theorem stream_byte {ctx : Context} {st : Option EscState} {b : Byte} {i : Instr}
    (h : (ctx.port == .stream && ctx.parser == st) = true) (hd : decodeStream st b = i) :
    decode ctx (wordsOf [b]) = .instr i := by
  simp only [Bool.and_eq_true, beq_iff_eq] at h
  simp [decode, h.1, h.2, hd]

theorem cr : Statement .cr := fun _ _ h _ => stream_byte h rfl
theorem lf : Statement .lf := fun _ _ h _ => stream_byte h rfl
theorem esc : Statement .esc := fun _ _ h _ => stream_byte h rfl
theorem tab : Statement .tab := fun _ _ h _ => stream_byte h rfl

theorem char (ch : Byte) : Statement (.char ch) := fun _ _ h hw => stream_byte h (by
  simp only [Instr.wf, decide_eq_true_eq] at hw
  simp [decodeStream, hw])

theorem escLbracket : Statement .escLbracket := fun _ _ h _ => stream_byte h rfl

theorem escIgnore (b : Byte) : Statement (.escIgnore b) := fun _ _ h hw => stream_byte h (by
  simp only [Instr.wf, decide_eq_true_eq] at hw
  simp [decodeStream, hw])

theorem escDigit (d : Fin 10) : Statement (.escDigit d) := fun _ _ h _ => stream_byte h
  ((by decide : ∀ d : Fin 10, decodeStream (some .readingParam) (digitByte d) = .escDigit d) d)

theorem escSemi : Statement .escSemi := fun _ _ h _ => stream_byte h rfl

theorem escFinal (b : Byte) : Statement (.escFinal b) := fun _ _ h hw => stream_byte h (by
  simp only [Instr.wf, isDigit, Bool.and_eq_true, Bool.not_eq_true', decide_eq_true_eq,
    Bool.and_eq_false_iff, decide_eq_false_iff_not] at hw
  rw [decodeStream, dif_neg (by omega), if_neg hw.2])

/-! #### Escape sequences -/

theorem ed2 : Statement .ed2 := by
  intro ctx _ h _
  simp only [Context.fits, Instr.port, beq_iff_eq] at h
  simp [decode, h, encode, decodeSequence, show recognise ed2Bytes = some .ed2 from by decide]

theorem cup (r c : Nat) : Statement (.cup r c) := by
  intro ctx _ h hw
  simp only [Context.fits, Instr.port, beq_iff_eq] at h
  simp only [Instr.wf, Bool.and_eq_true, decide_eq_true_eq] at hw
  simp [decode, h, encode, decodeSequence, recognise_cupBytes r c hw.1 hw.2]

theorem escNoop (bytes : List Byte) : Statement (.escNoop bytes) := by
  intro ctx _ h hw
  simp only [Context.fits, Instr.port, beq_iff_eq] at h
  simp only [Instr.wf, beq_iff_eq] at hw
  simp [decode, h, encode, decodeSequence, hw]

/-! #### Emitted bytes and codes -/

theorem latch (d : Nibble) (bl en rs : Bool) : Statement (.latch d bl en rs) := by
  intro ctx _ h _
  simp only [Context.fits, Bool.and_eq_true, beq_iff_eq] at h
  obtain ⟨h1, h2, h3, h4, h5⟩ := latchByte_fields ctx.map d bl en rs h.2
  simp [decode, h.1.1, encode, decodeLatch, h1, h2, h3, h4, h5, h.1.2]

theorem backlightCtl (b : Bool) : Statement (.backlightCtl b) := by
  intro ctx _ h _
  simp only [Context.fits, Bool.and_eq_true, beq_iff_eq] at h
  simp [decode, h.1, encode, decodeControl, h.2]

/-- An instruction code at its port. -/
theorem code {ctx : Context} {v : Byte} {i : Instr} (h : (ctx.port == .instruction) = true)
    (hd : decodeCode ctx v = .instr i) : decode ctx (wordsOf [v]) = .instr i := by
  simp only [beq_iff_eq] at h
  simp [decode, h, hd]

theorem clear : Statement .clear := fun _ _ h _ => code h rfl
theorem home : Statement .home := fun _ _ h _ => code h rfl
theorem entryInc : Statement .entryInc := fun _ _ h _ => code h rfl

theorem displayCtrl (c b : Bool) : Statement (.displayCtrl c b) := by
  intro ctx _ h _
  simp only [Context.fits, Bool.and_eq_true, beq_iff_eq] at h
  refine code (by simp [h.1.1]) ?_
  simp only [decodeCode, h.1.2, h.2]
  cases c <;> cases b <;> rfl

theorem fset8BitHno (w : BootWrite) : Statement (.fset8BitHno w) := by
  intro ctx _ h _
  simp only [Context.fits, Instr.port, beq_iff_eq] at h
  simp only [decode, h]; rfl

theorem fset4BitHno : Statement .fset4BitHno := by
  intro ctx _ h _
  simp only [Context.fits, Bool.or_eq_true, beq_iff_eq] at h
  rcases h with (h | h) | h <;> simp only [decode, h] <;> rfl

theorem fset4Bit2Line : Statement .fset4Bit2Line := fun _ _ h _ => code h rfl

theorem setDdram (a : BitVec 7) : Statement (.setDdram a) := fun ctx _ h _ => code h (by
  have h1 : ∀ a : BitVec 7, codeSetDdram a ≠ codeClear ∧ codeSetDdram a ≠ codeHome
      ∧ codeSetDdram a ≠ codeEntryInc ∧ (codeSetDdram a).extractLsb' 2 6 ≠ 0b000011#6
      ∧ codeSetDdram a ≠ codeFset4Bit2Line ∧ (codeSetDdram a).getLsbD 7 = true
      ∧ (codeSetDdram a).extractLsb' 0 7 = a := by decide
  obtain ⟨h2, h3, h4, h5, h6, h7, h8⟩ := h1 a
  simp [decodeCode, h2, h3, h4, h5, h6, h7, h8])

theorem data (v : Byte) : Statement (.data v) := by
  intro ctx _ h _
  simp only [Context.fits, Instr.port, beq_iff_eq] at h
  simp [decode, h, encode]

/-! #### Host operations -/

/-- A host operation at its port. -/
theorem host {ctx : Context} {ws : List Nat} {i : Instr} (h : (ctx.port == .host) = true)
    (hd : decodeHost ws = .instr i) : decode ctx ws = .instr i := by
  simp only [beq_iff_eq] at h
  simp [decode, h, hd]

theorem initializeDisplay : Statement .initializeDisplay := fun _ _ h _ => host h rfl

theorem write (buf : List Byte) : Statement (.write buf) := fun _ _ h _ => host h (by
  simp [encode, decodeHost, decodeWrite])

theorem print (s : List Byte) : Statement (.print s) := fun _ _ h _ => host h (by
  simp [encode, decodeHost, decodePrint])

theorem setGeometry (g : GeometryOperand) : Statement (.setGeometry g) := fun _ _ h _ => host h (by
  cases g <;> simp [encode, encodeGeometry, decodeHost, decodeGeometry])

theorem setBacklight (b : Byte) : Statement (.setBacklight b) := fun _ _ h _ => host h (by
  simp [encode, decodeHost])

theorem setCursorBlink (b : Byte) : Statement (.setCursorBlink b) := fun _ _ h _ => host h (by
  simp [encode, decodeHost])

theorem setCursorDisplay (b : Byte) : Statement (.setCursorDisplay b) := fun _ _ h _ => host h (by
  simp [encode, decodeHost])

theorem flush : Statement .flush := fun _ _ h _ => host h rfl

theorem hostReserved (k : BitVec 3) : Statement (.hostReserved k) := fun _ _ h _ => host h
  ((by decide : ∀ k : BitVec 3, decodeHost [8 + k.toNat] = .instr (.hostReserved k)) k)

end Laws.RoundTrip

end Sys2Proof
end

