-- ==== Sys2Proof/Laws/Step.lean ====
section
/-! SUPPORT. What a step inside a `write` and several steps can do, said once (spec/43_dispatcher.md R210,
log 9). -/

namespace Sys2Proof.Machine

open Sys2Proof

/-- Where nothing hangs, a run leaves the block no more hung than it was. -/
theorem Run.Sends.hung_eq {s : State} {r : Run} (h : Run.Sends s r) (hn : s.neverHangs) :
    r.state.wire.hung = s.wire.hung := by
  obtain ⟨_, _, _, _, _, _, _, h5⟩ := h
  cases r with
  | done u => exact h5.2
  | busError u => exact h5.2
  | hung u => exact absurd hn h5.1

/-- An input byte's instruction is a part of an operation, not an operation. -/
theorem Run.left_decodeStream (p : Option EscState) (b : Byte) (r : Run) :
    r.left (decodeStream p b) = r.resumed := by
  have h : (decodeStream p b).port ≠ .host := by
    unfold decodeStream
    repeat' split
    all_goals simp [Instr.port]
  exact if_neg h

/-- A step inside a `write` runs what R210 runs for the byte, and then advances the index. -/
theorem stepByte_eq {s : State} {b : Byte} (hn : s.neverHangs) :
    stepByte b s = .next (match writeByte b s with
      | .done u => afterByte u
      | .busError u => u.takeBusError
      | .hung u => u) := by
  unfold stepByte writeByte
  cases hp : pendingNewline s with
  | busError u => rfl
  | hung u => rfl
  | done u =>
    have hun : u.neverHangs := by simpa [hp] using (pendingNewline_sends s).neverHangs hn
    have hx : exec (decodeStream u.parserMode b) u
        = .next (if u.inEscape then escFeed b u else dispatchByte b u).resumed :=
      exec_next.2 ⟨_, instrRun_decodeStream u b, (Run.left_decodeStream _ _ _).symm⟩
    simp only [Run.andThen_done, runWords, decode, State.context, decodeOneByte, byteOf_toNat, hx,
      thenState]
    cases hr : (if u.inEscape = true then escFeed b u else dispatchByte b u) with
    | done v => rfl
    | busError v => exact congrArg _ (ite_self _)
    | hung v =>
      have hs : Run.Sends u (.hung v) := by
        rw [← hr]; split
        · exact escFeed_sends b u
        · exact dispatchByte_sends b u
      exact (hs.not_hung hun).elim

theorem steps_succ (n : Nat) {s t : State} (h : step s = .next t) : steps (n + 1) s = steps n t := by
  simp [steps, h]

/-- With no request and no `write` in progress nothing more happens (spec/60_exceptions.md R246). -/
theorem steps_idle (n : Nat) {s : State} (h1 : s.wire.hung = false) (h2 : s.running = none)
    (h3 : s.inbox = []) : steps n s = .next s := by
  induction n with
  | zero => rfl
  | succ n ih => rw [steps_succ n (t := s) (by simp [step, fetch, h1, h2, h3]), ih]

end Sys2Proof.Machine
end

