-- ==== Sys2Proof/Tests/Slice0.lean ====
section
/-! SUPPORT. The session's own tests, and for every obligation with hypotheses a state and operands that
meet them. Expected values are from spec/95_test_vectors.md (V…, E…) or written out by hand from
spec/30_encoding.md. -/

namespace Sys2Proof.Tests

open Sys2Proof Machine

/-! ### The state the vectors start from, and how a test looks at a step -/

/-- S0 of spec/95_test_vectors.md on a geometry, with the next bus answers given. -/
def start (g : Geometry) (answers : List BusAnswer) : State where
  geometry := g
  row := 0
  col := 0
  inEscape := false
  esc := escFresh 2
  dirty := false
  newlinePending := false
  backlight := true
  cursorVisible := true
  cursorBlink := true
  running := none
  cfg := Params.vectors
  wire := ⟨[], answers, 0, none, false⟩
  result := none
  inbox := []

/-- S0, with the bus answering ok 80 times. -/
def s0 : State := start g20x4 (List.replicate 80 .ok)

/-- S0 on the 8x1 display. -/
def s8 : State := start g8x1 (List.replicate 80 .ok)

/-- S0 with "Fail@k": the k-th bus write is answered `BusError`. -/
def failAt (k : Nat) : State := start g20x4 (List.replicate (k - 1) .ok ++ [.busError])

/-- The next state of an instruction, if there is one. -/
def after (i : Instr) (s : State) : Option State :=
  match exec i s with
  | .next t => some t
  | _ => none

/-- The next state of a step, if there is one. -/
def afterStep (s : State) : Option State :=
  match step s with
  | .next t => some t
  | _ => none

/-- The refusal of an instruction, if it is refused. -/
def refusal (i : Instr) (s : State) : Option Refusal :=
  match exec i s with
  | .refused r => some r
  | _ => none

/-- Position and trace after an instruction. -/
def seen (i : Instr) (s : State) : Option (Nat × Nat × List Event) :=
  (after i s).map fun t => (t.row, t.col, t.wire.trace)

/-- `N(L)` of the vectors. -/
def n (l : Byte) : List Event := strobe 0x04 l

/-- `D(37us)`, `D(41us)`, `D(1.64ms)`. -/
def d37 : List Event := [.delay 37000]
def d41 : List Event := [.delay 41000]
def dClear : List Event := [.delay 1640000]

/-- The bytes of a text. -/
def text (s : String) : List Byte := s.toList.map fun c => BitVec.ofNat 8 c.toNat

/-! ### Well-formedness: each check refuses an ill-formed term -/

theorem test_wf_char_is_no_control : Instr.wf Params.vectors (.char 0x0D) = false := by decide
theorem test_wf_ignore_is_no_bracket : Instr.wf Params.vectors (.escIgnore 0x5B) = false := by decide
theorem test_wf_final_is_no_digit : Instr.wf Params.vectors (.escFinal 0x39) = false := by decide
theorem test_wf_final_is_no_semi : Instr.wf Params.vectors (.escFinal 0x3B) = false := by decide
theorem test_wf_cup_row : Instr.wf Params.vectors (.cup 10000 0) = false := by decide
theorem test_wf_cup_col : Instr.wf Params.vectors (.cup 0 10000) = false := by decide
theorem test_wf_noop_is_no_command :
    Instr.wf Params.vectors (.escNoop [0x1B, 0x5B, 0x32, 0x4A]) = false := by decide
theorem test_wf_noop_is_a_sequence : Instr.wf Params.vectors (.escNoop [0x1B, 0x5B]) = false := by decide
theorem test_wf_print_has_an_end : Instr.wf Params.vectors (.print [0x41]) = false := by decide
theorem test_wf_geometry_entry : Instr.wf Params.vectors (.setGeometry (.entry 4)) = false := by decide
/-- V5.2, R151 (a). -/
theorem test_wf_geometry_cols :
    Instr.wf Params.vectors (.setGeometry (.record ⟨0, 1, [0]⟩)) = false := by decide
/-- R151 (b). -/
theorem test_wf_geometry_rows :
    Instr.wf Params.vectors (.setGeometry (.record ⟨8, 0, [0]⟩)) = false := by decide
/-- V5.4, R151 (c). -/
theorem test_wf_geometry_starts :
    Instr.wf Params.vectors (.setGeometry (.record ⟨20, 3, [0x00, 0x40]⟩)) = false := by decide
/-- V5.3, R151 (d). -/
theorem test_wf_geometry_addresses :
    Instr.wf Params.vectors (.setGeometry (.record ⟨20, 2, [0x00, 0x70]⟩)) = false := by decide
theorem test_wf_backlight_bit : Instr.wf Params.vectors (.setBacklight 2) = false := by decide
theorem test_wf_blink_bit : Instr.wf Params.vectors (.setCursorBlink 2) = false := by decide
theorem test_wf_display_bit : Instr.wf Params.vectors (.setCursorDisplay 2) = false := by decide

/-! ### Decoding: words written out from spec/30_encoding.md -/

/-- A context at a port, with the backlight on, the cursor shown and not blinking. -/
def at' (p : Port) (parser : Option EscState) : Context := ⟨p, parser, true, true, false, LatchMap.standard⟩

/-- R80, R81. -/
theorem test_decode_input_bytes :
    decode (at' .stream none) [0x0D] = .instr .cr ∧ decode (at' .stream none) [0x0A] = .instr .lf
    ∧ decode (at' .stream none) [0x1B] = .instr .esc ∧ decode (at' .stream none) [0x09] = .instr .tab
    ∧ decode (at' .stream none) [0x5B] = .instr (.char 0x5B) := by decide

/-- R82. -/
theorem test_decode_awaiting_bracket :
    decode (at' .stream (some .awaitingBracket)) [0x5B] = .instr .escLbracket
    ∧ decode (at' .stream (some .awaitingBracket)) [0x1B] = .instr (.escIgnore 0x1B) := by decide

/-- R83: the digits are 0x30 to 0x39. -/
theorem test_decode_reading_param :
    decode (at' .stream (some .readingParam)) [0x30] = .instr (.escDigit 0)
    ∧ decode (at' .stream (some .readingParam)) [0x39] = .instr (.escDigit 9)
    ∧ decode (at' .stream (some .readingParam)) [0x3A] = .instr (.escFinal 0x3A)
    ∧ decode (at' .stream (some .readingParam)) [0x3B] = .instr .escSemi
    ∧ decode (at' .stream (some .readingParam)) [0x1B] = .instr (.escFinal 0x1B) := by decide

/-- R84, R85; V3.4, V3.5. -/
theorem test_decode_ed2_spellings :
    decode (at' .sequence none) (wordsOf (0x1B :: text "[2J")) = .instr .ed2
    ∧ decode (at' .sequence none) (wordsOf (0x1B :: text "[0002J")) = .instr .ed2
    ∧ decode (at' .sequence none) (wordsOf (0x1B :: text "x[2J")) = .instr .ed2 := by decide

/-- V3.11, V3.16. -/
theorem test_decode_cup_spellings :
    decode (at' .sequence none) (wordsOf (0x1B :: text "[1;5;H")) = .instr (.cup 1 5)
    ∧ decode (at' .sequence none) (wordsOf (0x1B :: text "[010;5H")) = .instr (.cup 8 5) := by decide

/-- V3.17, V3.19, V3.14. -/
theorem test_decode_noop_spellings :
    decode (at' .sequence none) (wordsOf (0x1B :: text "[08;5H")) = .instr (.escNoop (0x1B :: text "[08;5H"))
    ∧ decode (at' .sequence none) (wordsOf (0x1B :: text "[12345;6H"))
      = .instr (.escNoop (0x1B :: text "[12345;6H"))
    ∧ decode (at' .sequence none) (wordsOf (0x1B :: text "[1;2;3H"))
      = .instr (.escNoop (0x1B :: text "[1;2;3H")) := by decide

/-- R84: no byte may follow the FINAL byte, and there is one. -/
theorem test_decode_no_sequence :
    decode (at' .sequence none) (wordsOf (0x1B :: text "[2JJ")) = .bad .notASequence
    ∧ decode (at' .sequence none) (wordsOf (0x1B :: text "[2")) = .bad .notASequence := by decide

/-- R90: data 7:4, BL bit 3, EN bit 2, RW bit 1, RS bit 0. -/
theorem test_decode_latch :
    decode (at' .latch none) [0b01001001] = .instr (.latch 0x4 true false true)
    ∧ decode (at' .latch none) [0b10001100] = .instr (.latch 0x8 true true false)
    ∧ decode (at' .latch none) [0b01001011] = .bad .readBitSet
    ∧ decode (at' .latch none) [0b01000001] = .bad .backlightDiffers := by decide

/-- R91. -/
theorem test_decode_backlight :
    decode (at' .control none) [0b00001000] = .instr (.backlightCtl true)
    ∧ decode ({ at' .control none with backlight := false }) [0] = .instr (.backlightCtl false)
    ∧ decode (at' .control none) [0b00011000] = .bad .notACode := by decide

/-- R92, R93. -/
theorem test_decode_codes :
    decode (at' .instruction none) [0b00000001] = .instr .clear
    ∧ decode (at' .instruction none) [0b00000010] = .instr .home
    ∧ decode (at' .instruction none) [0b00000110] = .instr .entryInc
    ∧ decode (at' .instruction none) [0b00001110] = .instr (.displayCtrl true false)
    ∧ decode (at' .instruction none) [0b00101000] = .instr .fset4Bit2Line
    ∧ decode (at' .instruction none) [0b11010100] = .instr (.setDdram 0x54) := by decide

/-- R95: the list is closed. -/
theorem test_decode_no_code :
    decode (at' .instruction none) [0b00000111] = .bad .notACode
    ∧ decode (at' .instruction none) [0b00001000] = .bad .notACode
    ∧ decode (at' .instruction none) [0b00010100] = .bad .notACode := by decide

/-- R92. -/
theorem test_decode_high_nibbles :
    decode (at' (.highNibble .second) none) [0b0011] = .instr (.fset8BitHno .second)
    ∧ decode (at' (.highNibble .third) none) [0b0010] = .instr .fset4BitHno
    ∧ decode (at' (.highNibble .first) none) [0b0001] = .bad .notACode := by decide

/-- R94. -/
theorem test_decode_data : decode (at' .data none) [0x0A] = .instr (.data 0x0A) := by decide

/-- R100, R101. -/
theorem test_decode_host_operations :
    decode (at' .host none) [0] = .instr .initializeDisplay
    ∧ decode (at' .host none) [1, 2, 0x48, 0x00] = .instr (.write [0x48, 0x00])
    ∧ decode (at' .host none) [2, 0x48, 0x00] = .instr (.print [0x48, 0x00])
    ∧ decode (at' .host none) [3, 0, 2] = .instr (.setGeometry (.entry 2))
    ∧ decode (at' .host none) [3, 1, 8, 1, 1, 0x40] = .instr (.setGeometry (.record ⟨8, 1, [0x40]⟩))
    ∧ decode (at' .host none) [4, 1] = .instr (.setBacklight 1)
    ∧ decode (at' .host none) [5, 0] = .instr (.setCursorBlink 0)
    ∧ decode (at' .host none) [6, 1] = .instr (.setCursorDisplay 1)
    ∧ decode (at' .host none) [7] = .instr .flush
    ∧ decode (at' .host none) [15] = .instr (.hostReserved 7)
    ∧ decode (at' .host none) [16] = .bad .notASelector := by decide

/-! ### The nibble driver -/

/-- V1.1. -/
theorem test_latch : seen (.latch 0x4 true false true) s0 = some (0, 0, [.write 0x49]) := by decide
/-- V1.5: BL is the session's. -/
theorem test_latch_backlight_off :
    seen (.latch 0xF false true true) { s0 with backlight := false } = some (0, 0, [.write 0xF5]) := by
  decide
/-- V4.13. -/
theorem test_backlightCtl : seen (.backlightCtl true) s0 = some (0, 0, [.write 0x08]) := by decide
/-- V1.11, from (1,3): V2.21. -/
theorem test_clear :
    seen .clear { s0 with row := 1, col := 3 } = some (0, 0, n 0x08 ++ n 0x18 ++ dClear) := by decide
/-- E2, its second instruction. -/
theorem test_home :
    seen .home { s0 with row := 3, col := 17 } = some (0, 0, n 0x08 ++ n 0x28 ++ dClear) := by decide
/-- V1.16, last line. -/
theorem test_entryInc : seen .entryInc s0 = some (0, 0, n 0x08 ++ n 0x68 ++ d37) := by decide
/-- V1.15 and V4.17: visible 1, blink 0. -/
theorem test_displayCtrl :
    seen (.displayCtrl true false) { s0 with cursorBlink := false }
      = some (0, 0, n 0x08 ++ n 0xE8 ++ d37) := by decide
/-- V4.15: visible 0, blink 1. -/
theorem test_displayCtrl_blink :
    seen (.displayCtrl false true) { s0 with cursorVisible := false }
      = some (0, 0, n 0x08 ++ n 0xD8 ++ d37) := by decide
/-- V1.13. -/
theorem test_fset8BitHno : seen (.fset8BitHno .first) s0 = some (0, 0, n 0x38 ++ [.delay 5000000]) := by
  decide
/-- V1.16, second line. -/
theorem test_fset8BitHno_second :
    seen (.fset8BitHno .second) s0 = some (0, 0, n 0x38 ++ [.delay 100000]) := by decide
/-- V1.14. -/
theorem test_fset4BitHno : seen .fset4BitHno s0 = some (0, 0, n 0x28 ++ d37) := by decide
/-- V1.16, fifth line. -/
theorem test_fset4Bit2Line : seen .fset4Bit2Line s0 = some (0, 0, n 0x28 ++ n 0x88 ++ d37) := by decide
/-- V1.12. -/
theorem test_setDdram : seen (.setDdram 0x45) s0 = some (0, 0, n 0xC8 ++ n 0x58 ++ d37) := by decide
/-- V1.7. -/
theorem test_data : seen (.data 0x41) s0 = some (0, 0, n 0x49 ++ n 0x19 ++ d41) := by decide
/-- V2.25: the write that fails is the last event. -/
theorem test_data_fails : seen (.data 0x41) (failAt 4) = some (0, 0, n 0x49 ++ [.write 0x19]) := by decide

/-! ### Input bytes -/

/-- V2.19. -/
theorem test_cr :
    seen .cr { s0 with row := 2, col := 9 } = some (2, 0, n 0x98 ++ n 0x48 ++ d37) := by decide
/-- V4.2. -/
theorem test_lf_deferred :
    (after .lf s0).map (fun t => (t.newlinePending, t.wire.trace)) = some (true, []) := by decide
/-- V2.24. -/
theorem test_lf_immediate :
    seen .lf { s8 with col := 3, cursorVisible := false, cursorBlink := false }
      = some (0, 0, n 0x88 ++ n 0x08 ++ d37 ++ (List.replicate 8 (n 0x29 ++ n 0x09 ++ d41)).flatten
        ++ n 0x88 ++ n 0x08 ++ d37) := by decide +kernel
/-- V2.15: the excess is dropped. -/
theorem test_tab_past_the_edge :
    seen .tab { s0 with col := 17 } = some (1, 0, n 0xC8 ++ n 0x08 ++ d37) := by decide
/-- V2.17. -/
theorem test_tab : seen .tab { s8 with col := 3 } = some (0, 7, n 0x88 ++ n 0x78 ++ d37) := by decide
/-- V2.1. -/
theorem test_char : seen (.char 0x61) s0 = some (0, 1, n 0x69 ++ n 0x19 ++ d41) := by decide
/-- V2.3. -/
theorem test_char_wraps :
    seen (.char 0x42) { s0 with row := 3, col := 19 }
      = some (0, 0, n 0x49 ++ n 0x29 ++ d41 ++ n 0x88 ++ n 0x08 ++ d37) := by decide

/-- `in_escape` and the escape buffer after an instruction. -/
def parsed (i : Instr) (s : State) : Option (Bool × EscBuffer) :=
  (after i s).map fun t => (t.inEscape, t.esc)

/-- A pending sequence with the given text of its parameter and recorded bytes. -/
def pending (raw replay : List Byte) (params : List Nat) (count : Nat) : State :=
  { s0 with inEscape := true, esc := ⟨.readingParam, raw, params, count, false, replay⟩ }

/-- V3.29. -/
theorem test_esc : parsed .esc s0 = some (true, ⟨.awaitingBracket, [], [0, 0], 0, false, [0x1B]⟩) := by decide
/-- V3.24. -/
theorem test_escLbracket :
    (after .escLbracket { s0 with inEscape := true, esc := { escFresh 2 with replay := [0x1B] } }).map
      (fun t => (t.esc.state, t.esc.replay)) = some (.readingParam, [0x1B, 0x5B]) := by decide
/-- V3.30. -/
theorem test_escIgnore :
    parsed (.escIgnore 0x78) { s0 with inEscape := true, esc := { escFresh 2 with replay := [0x1B] } }
      = some (true, ⟨.awaitingBracket, [], [0, 0], 0, false, [0x1B]⟩) := by decide
/-- V3.25. -/
theorem test_escDigit :
    parsed (.escDigit 2) (pending (text "1") [0x1B, 0x5B, 0x31] [0, 0] 0)
      = some (true, ⟨.readingParam, text "12", [0, 0], 0, false, [0x1B, 0x5B, 0x31, 0x32]⟩) := by decide
/-- V3.26: the fifth digit sets `error` and is still recorded. -/
theorem test_escDigit_overflow :
    parsed (.escDigit 5) (pending (text "1234") (0x1B :: text "[1234") [0, 0] 0)
      = some (true, ⟨.readingParam, text "1234", [0, 0], 0, true, 0x1B :: text "[12345"⟩) := by decide
/-- V3.28. -/
theorem test_escSemi :
    parsed .escSemi (pending (text "9") [0x1B, 0x5B, 0x39] [0, 0] 0)
      = some (true, ⟨.readingParam, [], [9, 0], 1, false, [0x1B, 0x5B, 0x39, 0x3B]⟩) := by decide
/-- V3.14: the third parameter has no room. -/
theorem test_escSemi_no_room :
    parsed .escSemi (pending (text "3") (0x1B :: text "[1;2;3") [1, 2] 2)
      = some (true, ⟨.readingParam, [], [1, 2], 2, true, 0x1B :: text "[1;2;3;"⟩) := by decide
/-- E4: the FINAL byte of `ESC[1;5H`. -/
theorem test_escFinal_cup :
    seen (.escFinal 0x48) (pending (text "5") (0x1B :: text "[1;5") [1, 0] 1)
      = some (1, 5, n 0xC8 ++ n 0x58 ++ d37) := by decide
/-- V5.7: with `BusError` at the third write the parser is idle and the position as it was. -/
theorem test_escFinal_fails :
    (after (.escFinal 0x4A) { pending (text "2") (0x1B :: text "[2") [0, 0] 0 with
        row := 2, col := 5, wire := (failAt 3).wire }).map
      (fun t => ((t.row, t.col), (t.inEscape, t.esc), t.result, t.wire.trace))
      = some ((2, 5), (false, escFresh 2), some .busError,
        [.write 0x08, .delay 40, .write 0x0C, .delay 230, .write 0x08]) := by decide

/-! ### Finished sequences -/

/-- E2. -/
theorem test_ed2 :
    seen .ed2 { s0 with row := 3, col := 17 }
      = some (0, 0, n 0x08 ++ n 0x18 ++ dClear ++ n 0x08 ++ n 0x28 ++ dClear) := by decide
/-- V5.8: the clear is done, the return-home fails. -/
theorem test_ed2_fails :
    (after .ed2 { failAt 8 with row := 2, col := 5 }).map
      (fun t => (t.row, t.col, t.result, t.wire.trace))
      = some (0, 0, some .busError, n 0x08 ++ n 0x18 ++ dClear ++ [.write 0x08, .delay 40, .write 0x0C]) := by
  decide
/-- V2.9: the one-step clamp. -/
theorem test_cup_clamps : seen (.cup 5 45) s0 = some (0, 0, n 0x88 ++ n 0x08 ++ d37) := by decide
/-- V2.10. -/
theorem test_cup : seen (.cup 3 19) s0 = some (3, 19, n 0xE8 ++ n 0x78 ++ d37) := by decide
/-- V3.21. -/
theorem test_escNoop : after (.escNoop (0x1B :: text "[2x")) s0 = some s0 := by decide

/-! ### Host operations -/

/-- V1.18. -/
theorem test_initializeDisplay_fails :
    (after .initializeDisplay { failAt 2 with cursorVisible := false, dirty := true }).map
      (fun t => (t.cursorVisible, t.dirty, t.result, t.wire.trace))
      = some (true, false, some .busError, [.write 0x38, .delay 40, .write 0x3C]) := by decide
/-- V1.16. -/
theorem test_initializeDisplay :
    seen .initializeDisplay { s0 with row := 2, col := 5 }
      = some (0, 0, n 0x38 ++ [.delay 5000000] ++ n 0x38 ++ [.delay 100000] ++ n 0x38 ++ d37
        ++ n 0x28 ++ d37 ++ n 0x28 ++ n 0x88 ++ d37 ++ n 0x08 ++ n 0xF8 ++ d37
        ++ n 0x08 ++ n 0x18 ++ dClear ++ n 0x08 ++ n 0x68 ++ d37) := by decide
/-- V3.22. -/
theorem test_write_escape_ends :
    seen (.write ([0x1B] ++ text "[2" ++ [0x1B] ++ text "AB")) s0
      = some (0, 2, n 0x49 ++ n 0x19 ++ d41 ++ n 0x49 ++ n 0x29 ++ d41) := by decide
/-- V4.10. -/
theorem test_write_dirty :
    (after (.write (text "x")) { s0 with dirty := true }).map (fun t => (t.col, t.dirty, t.wire.trace))
      = some (1, false, n 0x08 ++ n 0x18 ++ dClear ++ n 0x79 ++ n 0x89 ++ d41) := by decide
/-- V4.21. -/
theorem test_print :
    seen (.print (text "ab" ++ [0x00] ++ text "cd")) s0
      = some (0, 2, n 0x69 ++ n 0x19 ++ d41 ++ n 0x69 ++ n 0x29 ++ d41) := by decide
/-- V5.5. -/
theorem test_print_without_end : refusal (.print (text "ab")) s0 = some .unterminatedString := by decide
/-- V4.8. -/
theorem test_setGeometry :
    (after (.setGeometry (.entry 2)) { s0 with row := 3, col := 3 }).map
      (fun t => (t.geometry, t.row, t.col, t.dirty, t.wire.trace))
      = some (⟨16, 2, [0x00, 0x40]⟩, 0, 0, false, n 0x08 ++ n 0x18 ++ dClear) := by decide
/-- V4.9. -/
theorem test_setGeometry_fails :
    (after (.setGeometry (.entry 2)) { failAt 1 with row := 1, col := 3, inEscape := true }).map
      (fun t => ((t.geometry, t.row, t.col), (t.inEscape, t.dirty), t.result, t.wire.trace))
      = some ((⟨16, 2, [0x00, 0x40]⟩, 0, 0), (false, true), some .busError, [.write 0x08]) := by decide
/-- V4.11. -/
theorem test_setBacklight :
    (after (.setBacklight 0) s0).map (fun t => (t.backlight, t.result, t.wire.trace))
      = some (false, some .ok, [.write 0x00]) := by decide
/-- V4.14. -/
theorem test_setBacklight_fails :
    (after (.setBacklight 0) (failAt 1)).map (fun t => (t.backlight, t.result, t.wire.trace))
      = some (false, some .busError, [.write 0x00]) := by decide
/-- V4.15. -/
theorem test_setCursorBlink :
    seen (.setCursorBlink 1) { s0 with cursorVisible := false, cursorBlink := false }
      = some (0, 0, n 0x08 ++ n 0xD8 ++ d37) := by decide
/-- V4.18. -/
theorem test_setCursorDisplay :
    seen (.setCursorDisplay 0) { s0 with cursorBlink := false }
      = some (0, 0, n 0x08 ++ n 0xC8 ++ d37) := by decide
/-- E3. -/
theorem test_flush_replays :
    seen .flush (pending [] (0x1B :: text "[9;") [9, 0] 1)
      = some (0, 4, n 0x19 ++ n 0xB9 ++ d41 ++ n 0x59 ++ n 0xB9 ++ d41 ++ n 0x39 ++ n 0x99 ++ d41
        ++ n 0x39 ++ n 0xB9 ++ d41) := by decide
/-- V3.34. -/
theorem test_flush_fails :
    (after .flush { pending [] (0x1B :: text "[9;") [9, 0] 1 with wire := (failAt 13).wire }).map
      (fun t => (t.col, t.inEscape, t.esc, t.result)) = some (2, false, escFresh 2, some .busError) := by
  decide
/-- V5.1. -/
theorem test_hostReserved : refusal (.hostReserved 0) s0 = some .reservedSelector := by decide

/-! ### Steps -/

/-- A request of the host is run, and taken out of the inbox. -/
theorem test_step_runs_a_request :
    (afterStep { s0 with inbox := [⟨.host, [4, 0]⟩] }).map (fun t => (t.backlight, t.inbox))
      = some (false, []) := by decide

/-- V4.3: the second newline first carries out the first. -/
theorem test_step_carries_out_the_newline :
    (afterStep { s8 with running := some ⟨text "\n\n", 1⟩, newlinePending := true }).map
      (fun t => (t.newlinePending, t.running, t.result, busWrites t.wire.trace))
      = some (true, none, some .ok, 60) := by decide +kernel

/-- The next byte of a `write` in progress. -/
theorem test_step_dispatches_a_byte :
    (afterStep { s0 with running := some ⟨text "abc", 1⟩, col := 1 }).map
      (fun t => (t.col, t.running, t.wire.trace))
      = some (2, some ⟨text "abc", 2⟩, n 0x69 ++ n 0x29 ++ d41) := by decide

/-! ### Witnesses: for each obligation with hypotheses, a state and operands that meet all of them

A clause of an obligation with hypotheses of its own has a witness of its own, at a boundary where its
hypotheses are ranges. -/

/-- The invariant holds of S0 with a request waiting. -/
theorem inv_request : ({ s0 with inbox := [⟨.host, [1, 1, 0x0A]⟩] } : State).Inv where
  params_wf := by decide
  geometry_wf := by decide
  row_bound := by decide
  col_bound := by decide
  esc_ok := ⟨by decide, by decide, by decide, by decide, by decide, by decide, by decide⟩
  idle_fresh := by decide
  replay_head := by decide
  newline_idle := by decide
  dirty_idle := by decide
  loop_ok := by intro w h; cases h
  inbox_host := by decide

/-- The invariant holds in the middle of a `write`, inside a sequence. -/
theorem inv_loop :
    ({ pending (text "5") (0x1B :: text "[1;5") [1, 0] 1 with
        row := 3, col := 19, running := some ⟨0x1B :: text "[1;5H", 5⟩ } : State).Inv where
  params_wf := by decide
  geometry_wf := by decide
  row_bound := by decide
  col_bound := by decide
  esc_ok := ⟨by decide, by decide, by decide, by decide, by decide, by decide, by decide⟩
  idle_fresh := by decide
  replay_head := by decide
  newline_idle := by decide
  dirty_idle := by decide
  loop_ok := by intro w h; cases h; decide
  inbox_host := by decide

theorem witness_EveryStepKeepsTheInvariant_request :
    ∃ s t : State, s.Inv ∧ step s = .next t := ⟨_, _, inv_request, rfl⟩

theorem witness_EveryStepKeepsTheInvariant_loop :
    ∃ s t : State, s.Inv ∧ step s = .next t := ⟨_, _, inv_loop, rfl⟩

theorem witness_DecodeOfEncodeIsTheInstruction :
    (at' .stream (some .readingParam)).fits (.escDigit 9) = true
    ∧ (at' .stream none).fits (.char 0x5B) = true ∧ (Instr.char 0x5B).wf Params.vectors = true
    ∧ (at' .sequence none).fits (.cup 9999 0) = true ∧ (Instr.cup 9999 0).wf Params.vectors = true
    ∧ (at' .latch none).fits (.latch 0xF true false true) = true
    ∧ (at' .control none).fits (.backlightCtl true) = true
    ∧ (at' .instruction none).fits (.displayCtrl true false) = true
    ∧ (at' (.highNibble .third) none).fits .fset4BitHno = true
    ∧ (at' .data none).fits (.data 0) = true
    ∧ (at' .host none).fits (.setGeometry (.record g8x1)) = true
    ∧ (Instr.setGeometry (.record g8x1)).wf Params.vectors = true := by decide

/-- The ends of the digits' range and the bytes beside it. -/
theorem witness_EveryInputByteHasAClassInEveryParserState :
    (at' .stream none).port = .stream ∧ (at' .stream none).parser = none
    ∧ (at' .stream (some .awaitingBracket)).parser = some .awaitingBracket
    ∧ (at' .stream (some .readingParam)).parser = some .readingParam
    ∧ (0x30 : Byte).toNat = 0x30 + (0 : Fin 10).val ∧ (0x39 : Byte).toNat = 0x30 + (9 : Fin 10).val
    ∧ (0x2F : Byte).toNat < 0x30 ∧ 0x39 < (0x3A : Byte).toNat ∧ (0x3A : Byte) ≠ 0x3B := by decide

theorem witness_ReservedSelectorsAndOperandsAreRefused_selector :
    (∃ s : State, 8 ≤ 8 ∧ 8 ≤ 15 ∧ s.wire.hung = false ∧ s.running = none
      ∧ s.inbox = ⟨.host, 8 :: [7]⟩ :: [])
    ∧ (∃ s : State, 8 ≤ 15 ∧ 15 ≤ 15 ∧ s.wire.hung = false ∧ s.running = none
      ∧ s.inbox = ⟨.host, 15 :: []⟩ :: []) :=
  ⟨⟨{ s0 with inbox := [⟨.host, [8, 7]⟩] }, by decide⟩, ⟨{ s0 with inbox := [⟨.host, [15]⟩] }, by decide⟩⟩

theorem witness_ReservedSelectorsAndOperandsAreRefused_geometry :
    geometryWf ⟨20, 3, [0x00, 0x40]⟩ = false ∧ geometryWf ⟨2, 1, [0x7F]⟩ = false := by decide

theorem witness_ReservedSelectorsAndOperandsAreRefused_bit :
    2 ≤ (2 : Byte).toNat ∧ 2 ≤ (0xFF : Byte).toNat := by decide

/-- Entry 4 with no geometry of the implementation's own, and with one it is entry 5. -/
theorem witness_ReservedSelectorsAndOperandsAreRefused_entry :
    4 + s0.cfg.extraGeometries.length ≤ 4
    ∧ 4 + ({ s0.cfg with extraGeometries := [g8x1] } : Params).extraGeometries.length ≤ 5 := by decide

/-- The implementation's own entry is ill-formed: it has no column. -/
theorem witness_ReservedSelectorsAndOperandsAreRefused_illFormedEntry :
    ({ s0.cfg with extraGeometries := [⟨0, 1, [0]⟩] } : Params).extraGeometries[0]? = some ⟨0, 1, [0]⟩
    ∧ geometryWf ⟨0, 1, [0]⟩ = false := by decide

/-- R151 at its limits: one column at 0x7F is well-formed, two are not. -/
theorem test_geometryWf_limit :
    geometryWf ⟨1, 1, [0x7F]⟩ = true ∧ geometryWf ⟨128, 1, [0]⟩ = true
    ∧ geometryWf ⟨129, 1, [0]⟩ = false := by decide

theorem witness_StepRunsTheDecodedRequest :
    ∃ (s : State) (r : Request) (rest : List Request) (i : Instr),
      s.wire.hung = false ∧ s.running = none ∧ s.inbox = r :: rest
      ∧ decode (s.context r.port) r.words = .instr i :=
  ⟨{ s0 with inbox := [⟨.host, [7]⟩] }, ⟨.host, [7]⟩, [], .flush, rfl, rfl, rfl, rfl⟩

theorem witness_StepRunsTheDecodedByte :
    ∃ (s t : State) (w : WriteLoop) (b : Byte) (i : Instr),
      s.wire.hung = false ∧ s.running = some w ∧ w.buf[w.index]? = some b ∧ s.newlinePending = false
      ∧ decode (s.context .stream) [b.toNat] = .instr i ∧ exec i s = .next t :=
  ⟨{ s0 with running := some ⟨[0x41, 0x0D], 1⟩ }, _, ⟨[0x41, 0x0D], 1⟩, 0x0D, .cr, rfl, rfl, rfl, rfl,
    rfl, rfl⟩

theorem witness_HungBlockStopsAndIdleBlockWaits :
    s0.hang.wire.hung = true ∧ s0.wire.hung = false ∧ s0.running = none ∧ s0.inbox = [] := by decide

theorem witness_ByteIndexAdvancesByExactlyOne :
    ∃ (s t : State) (v w : WriteLoop), s.running = some v ∧ step s = .next t ∧ t.wire.hung = false
      ∧ t.running = some w :=
  ⟨{ s0 with running := some ⟨[0x41, 0x42], 0⟩ }, _, ⟨[0x41, 0x42], 0⟩, ⟨[0x41, 0x42], 1⟩, rfl, rfl, rfl,
    rfl⟩

theorem witness_SteppingAWriteEqualsItsByteLoop :
    ∃ (s : State) (w : WriteLoop), s.running = some w ∧ w.index < w.buf.length ∧ s.wire.hung = false
      ∧ s.neverHangs ∧ s.inbox = [] :=
  ⟨{ failAt 7 with running := some ⟨text "abc", 1⟩ }, ⟨text "abc", 1⟩, rfl, by decide, rfl, rfl, rfl⟩

/-- A CHAR, a CR, a TAB and an LF; and no byte. -/
theorem witness_SteppingAWriteEqualsItsByteLoop_write :
    s0.wire.hung = false ∧ s0.neverHangs ∧ s0.inbox = [] ∧ s0.dirty = false ∧ s0.newlinePending = false
    ∧ (∃ t, exec (.write (text "a\r\t\n")) s0 = .next t) ∧ (∃ t, exec (.write []) s0 = .next t) :=
  ⟨rfl, rfl, rfl, rfl, rfl, ⟨_, rfl⟩, ⟨_, rfl⟩⟩

theorem witness_EmissionEndsWithTheFailedWrite :
    (failAt 2).neverHangs ∧ (∀ k < busWrites [Event.write 0, .delay 5], (failAt 2).wire.answerAt k = .ok)
    ∧ (failAt 2).wire.answerAt (busWrites [Event.write 0, .delay 5]) = .busError := by decide

theorem witness_TransferInstructionsSendTheirNibbles : s0.busReady 6 ∧ s0.busReady 3 := by decide

theorem witness_BusByteInstructionsMakeOneWrite : s0.busReady 1 := by decide

theorem witness_ClearAndHomeResetThePosition : s0.busReady 6 ∧ s0.busReady 12 := by decide

/-- The first bus write fails, and the sixth. -/
theorem witness_ClearAndHomeResetThePosition_fails :
    (∃ t, exec .clear (failAt 1) = .next t) ∧ (∃ t, exec .home (failAt 6) = .next t)
    ∧ (∃ t, exec .ed2 (failAt 6) = .next t) ∧ (failAt 1).neverHangs ∧ (failAt 6).neverHangs
    ∧ (∃ k < 6, (failAt 1).wire.answerAt k = .busError)
    ∧ (∃ k < 6, (failAt 6).wire.answerAt k = .busError) :=
  ⟨⟨_, rfl⟩, ⟨_, rfl⟩, ⟨_, rfl⟩, rfl, rfl, ⟨0, by decide, rfl⟩, ⟨5, by decide, rfl⟩⟩

/-- HOME's first bus write fails, and its sixth. -/
theorem witness_ClearAndHomeResetThePosition_home_fails :
    (∃ t, exec .ed2 (failAt 7) = .next t) ∧ (∃ t, exec .ed2 (failAt 12) = .next t)
    ∧ (failAt 7).neverHangs ∧ (failAt 12).neverHangs
    ∧ (∀ k < 6, (failAt 7).wire.answerAt k = .ok) ∧ (∀ k < 6, (failAt 12).wire.answerAt k = .ok)
    ∧ (∃ k < 6, (failAt 7).wire.answerAt (6 + k) = .busError)
    ∧ (∃ k < 6, (failAt 12).wire.answerAt (6 + k) = .busError) :=
  ⟨⟨_, rfl⟩, ⟨_, rfl⟩, rfl, rfl, by decide, by decide, ⟨0, by decide, rfl⟩, ⟨5, by decide, rfl⟩⟩

theorem witness_InitializeDisplayTrace_on :
    ∃ s t : State, s.cfg.latchMap = LatchMap.standard ∧ s.busReady 36
      ∧ exec .initializeDisplay s = .next t ∧ s.backlight = true :=
  ⟨s0, _, rfl, by decide, rfl, rfl⟩

theorem witness_InitializeDisplayTrace_off :
    ∃ s t : State, s.cfg.latchMap = LatchMap.standard ∧ s.busReady 36
      ∧ exec .initializeDisplay s = .next t ∧ s.backlight = false :=
  ⟨{ s0 with backlight := false }, _, rfl, by decide, rfl, rfl⟩

theorem witness_InitializeDisplayResult : s0.busReady 36 := by decide

theorem witness_InitializeDisplayUpdatesComeFirst :
    (∃ t, exec .initializeDisplay s0 = .next t) ∧ (∃ t, exec .initializeDisplay (failAt 19) = .next t) :=
  ⟨⟨_, rfl⟩, ⟨_, rfl⟩⟩

/-- V1.19 and V1.20 with their outcomes, and the last bus write of the clear. -/
theorem witness_InitializeDisplayUpdatesComeFirst_fails :
    (∃ s t : State, exec .initializeDisplay s = .next t ∧ s.neverHangs
      ∧ (∃ k < 30, s.wire.answerAt k = .busError)
      ∧ (t.row, t.col, t.newlinePending, t.cursorVisible) = (2, 5, false, true))
    ∧ (∃ s t : State, exec .initializeDisplay s = .next t ∧ s.neverHangs
      ∧ (∃ k < 30, s.wire.answerAt k = .busError) ∧ (t.row, t.col) = (2, 5))
    ∧ (∃ s t : State, exec .initializeDisplay s = .next t ∧ s.neverHangs
      ∧ (∃ k < 30, s.wire.answerAt k = .busError) ∧ (t.row, t.col) = (2, 5)) :=
  ⟨⟨{ failAt 19 with row := 2, col := 5, newlinePending := true, cursorVisible := false }, _, rfl, rfl,
      ⟨18, by decide, rfl⟩, rfl⟩,
    ⟨{ failAt 25 with row := 2, col := 5 }, _, rfl, rfl, ⟨24, by decide, rfl⟩, rfl⟩,
    ⟨{ failAt 30 with row := 2, col := 5 }, _, rfl, rfl, ⟨29, by decide, rfl⟩, rfl⟩⟩

/-- The first bus write after the clear fails, and the last. -/
theorem witness_InitializeDisplayUpdatesComeFirst_cleared :
    (∃ s t : State, exec .initializeDisplay s = .next t ∧ s.neverHangs
      ∧ (∀ k < 30, s.wire.answerAt k = .ok) ∧ ∃ k < 6, s.wire.answerAt (30 + k) = .busError)
    ∧ (∃ s t : State, exec .initializeDisplay s = .next t ∧ s.neverHangs
      ∧ (∀ k < 30, s.wire.answerAt k = .ok) ∧ ∃ k < 6, s.wire.answerAt (30 + k) = .busError) :=
  ⟨⟨{ failAt 31 with row := 2, col := 5 }, _, rfl, rfl, by decide, 0, by decide, rfl⟩,
    ⟨{ failAt 36 with row := 2, col := 5 }, _, rfl, rfl, by decide, 5, by decide, rfl⟩⟩

theorem witness_CarriageReturnResult : ({ s0 with row := 3, col := 19 } : State).busReady 6 := by decide

theorem witness_CarriageReturnResult_next : ∃ t, exec .cr (failAt 1) = .next t := ⟨_, rfl⟩

theorem witness_LineFeedResult_deferred :
    ({ s0 with cursorVisible := false } : State).cursorVisible = true
    ∨ ({ s0 with cursorVisible := false } : State).cursorBlink = true := by decide

theorem witness_LineFeedResult_immediate :
    ({ s8 with cursorVisible := false, cursorBlink := false } : State).busReady
      (12 + 6 * s8.geometry.cols) := by decide

/-- The bus fails at once. -/
theorem witness_LineFeedResult_fails :
    ∃ s t : State, s.cursorVisible = false ∧ s.cursorBlink = false ∧ exec .lf s = .next t
      ∧ t.result = some .busError :=
  ⟨{ failAt 1 with row := 3, col := 19, cursorVisible := false, cursorBlink := false }, _, rfl, rfl, rfl,
    rfl⟩

theorem witness_TabResult_fits :
    ({ s0 with col := 15 } : State).busReady 6 ∧ ({ s0 with col := 15 } : State).col + 4 < s0.geometry.cols := by
  decide

theorem witness_TabResult_wraps :
    ({ s0 with col := 16 } : State).busReady 6
    ∧ s0.geometry.cols ≤ ({ s0 with col := 16 } : State).col + 4 := by decide

/-- The bus fails at once, on either side of the edge. -/
theorem witness_TabResult_fails :
    (∃ s t : State, exec .tab s = .next t ∧ t.result = some .busError ∧ s.col + 4 < s.geometry.cols)
    ∧ (∃ s t : State, exec .tab s = .next t ∧ t.result = some .busError ∧ s.geometry.cols ≤ s.col + 4) :=
  ⟨⟨{ failAt 1 with col := 15 }, _, rfl, rfl, by decide⟩, ⟨{ failAt 1 with col := 16 }, _, rfl, rfl, by decide⟩⟩

theorem witness_CharResult_fits :
    ({ s0 with col := 18 } : State).busReady 6
    ∧ ({ s0 with col := 18 } : State).col + 1 ≠ s0.geometry.cols := by decide

theorem witness_CharResult_wraps :
    ({ s0 with row := 3, col := 19 } : State).busReady 12
    ∧ ({ s0 with row := 3, col := 19 } : State).col + 1 = s0.geometry.cols := by decide

/-- V2.25: a `BusError` in the data byte. -/
theorem witness_CharResult_data_fails :
    (∃ t, exec (.char 0x41) (failAt 4) = .next t) ∧ (failAt 4).neverHangs
    ∧ ∃ k < 6, (failAt 4).wire.answerAt k = .busError := ⟨⟨_, rfl⟩, rfl, 3, by decide, by decide⟩

/-- V2.26: a `BusError` in the set-address after the wrap. -/
theorem witness_CharResult_setAddr_fails :
    (∃ t, exec (.char 0x41) { failAt 7 with col := 19 } = .next t)
    ∧ ({ failAt 7 with col := 19 } : State).neverHangs
    ∧ (∀ k < 6, ({ failAt 7 with col := 19 } : State).wire.answerAt k = .ok)
    ∧ ({ failAt 7 with col := 19 } : State).col + 1 = (failAt 7).geometry.cols :=
  ⟨⟨_, rfl⟩, rfl, by decide, by decide⟩

/-- (3,19), (4,19), (2,20) and (3,20) on 20x4. -/
theorem witness_CursorPositionResult :
    s0.busReady 6 ∧ (19 < s0.geometry.cols ∧ 3 < s0.geometry.rows)
    ∧ (19 < s0.geometry.cols ∧ s0.geometry.rows ≤ 4) ∧ (s0.geometry.cols ≤ 20 ∧ 2 + 1 < s0.geometry.rows)
    ∧ (s0.geometry.cols ≤ 20 ∧ s0.geometry.rows ≤ 3 + 1) := by decide

/-- The same four cells, with the bus failing at once. -/
theorem witness_CursorPositionResult_fails :
    (∃ t, exec (.cup 3 19) (failAt 1) = .next t ∧ t.result = some .busError)
    ∧ (∃ t, exec (.cup 4 19) (failAt 1) = .next t ∧ t.result = some .busError)
    ∧ (∃ t, exec (.cup 2 20) (failAt 1) = .next t ∧ t.result = some .busError)
    ∧ (∃ t, exec (.cup 3 20) (failAt 1) = .next t ∧ t.result = some .busError) :=
  ⟨⟨_, rfl, rfl⟩, ⟨_, rfl, rfl⟩, ⟨_, rfl, rfl⟩, ⟨_, rfl, rfl⟩⟩

theorem witness_CursorPositionThenCharPosition :
    geometryWf s0.geometry = true ∧ 3 < s0.geometry.rows ∧ 19 < s0.geometry.cols ∧ s0.busReady 18
    ∧ ∃ t u, exec (.cup 3 19) s0 = .next t ∧ exec (.char 0x41) t = .next u :=
  ⟨by decide, by decide, by decide, by decide, _, _, rfl, rfl⟩

theorem witness_CellAddressesFitTheSetAddressField :
    geometryWf s0.geometry = true ∧ 3 < s0.geometry.rows ∧ 19 < s0.geometry.cols := by decide

theorem witness_EscapeEntryAndBracketResult : 1 ≤ s0.cfg.replayCap := by decide

theorem witness_ParameterTextValue_octal_fails :
    isDigit 0x30 = true ∧ (∀ b ∈ [(0x38 : Byte)], isDigit b = true) ∧ [(0x38 : Byte)] ≠ []
    ∧ ∃ b ∈ [(0x38 : Byte)], 0x37 < b.toNat := by decide

theorem witness_ParameterTextValue_octal :
    isDigit 0x30 = true ∧ (∀ b ∈ text "777", isDigit b = true) ∧ text "777" ≠ []
    ∧ ∀ b ∈ text "777", b.toNat ≤ 0x37 := by decide

/-- The text "0" is decimal. -/
theorem witness_ParameterTextValue_decimal :
    isDigit 0x30 = true ∧ (∀ b ∈ ([] : List Byte), isDigit b = true)
    ∧ ¬((0x30 : Byte) = 0x30 ∧ ([] : List Byte) ≠ []) := by decide

/-- The table of `ParseParam` in spec/95_test_vectors.md. -/
theorem test_parseParam :
    parseParam (text "0") = some 0 ∧ parseParam (text "00") = some 0 ∧ parseParam (text "02") = some 2
    ∧ parseParam (text "010") = some 8 ∧ parseParam (text "0777") = some 511
    ∧ parseParam (text "08") = none ∧ parseParam (text "9999") = some 9999
    ∧ parseParam (text "12") = some 12 ∧ parseParam (text "") = none := by decide

theorem witness_FinalByteResult :
    (pending (text "2") (0x1B :: text "[2") [0, 0] 0).busReady 12
    ∧ (pending [] (0x1B :: text "[1;5;") [1, 5] 2).busReady 12 := by decide

theorem witness_FinalByteAlwaysLeavesTheParserIdle :
    ∃ s t : State, s.inEscape = true ∧ exec (.escFinal 0x4A) s = .next t :=
  ⟨{ pending (text "2") (0x1B :: text "[2") [0, 0] 0 with wire := (failAt 3).wire }, _, rfl, rfl⟩

/-- A state for each command a FINAL byte selects: an error, ED2 and CUP; and none of them. -/
theorem witness_FinalByteAlwaysLeavesTheParserIdle_commands :
    (finalizeParam 2 (pending (text "08") (0x1B :: text "[08") [0, 0] 0).esc).error = true
    ∧ (let e := finalizeParam 2 (pending (text "2") (0x1B :: text "[2") [0, 0] 0).esc
       e.error = false ∧ e.paramCount = 1 ∧ e.params.getD 0 0 = 2)
    ∧ (let e := finalizeParam 2 (pending (text "5") (0x1B :: text "[1;5") [1, 0] 1).esc
       e.error = false ∧ e.paramCount = 2 ∧ e.params.getD 0 0 = 1 ∧ e.params.getD 1 0 = 5)
    ∧ (pending [] (0x1B :: text "[2;") [2, 0] 1).esc.raw = []
    ∧ (let e := (pending [] [0x1B, 0x5B] [0, 0] 0).esc
       e.raw = [] ∧ e.error = false ∧ e.paramCount = 0) := by decide

/-- ED2, CUP and ESC_NOOP. -/
theorem witness_WritingASequenceRunsItsInstruction :
    s0.cfg.wf = true ∧ s0.inEscape = false ∧ s0.newlinePending = false ∧ s0.dirty = false
    ∧ s0.running = none ∧ s0.esc = escFresh s0.cfg.maxParams ∧ s0.busReady 12
    ∧ decodeSequence (0x1B :: text "[2;J") = .instr .ed2
    ∧ decodeSequence (0x1B :: text "[1;5H") = .instr (.cup 1 5)
    ∧ decodeSequence (0x1B :: text "[;5H") = .instr (.escNoop (0x1B :: text "[;5H")) := by decide

theorem witness_WritingASequenceRunsItsInstruction_next :
    (∃ t, exec .ed2 s0 = .next t) ∧ (∃ t, exec (.cup 1 5) s0 = .next t)
    ∧ (∃ t, exec (.escNoop (0x1B :: text "[;5H")) s0 = .next t) := ⟨⟨_, rfl⟩, ⟨_, rfl⟩, ⟨_, rfl⟩⟩

/-- A record that overflows: nine bytes, `REPLAY_CAP` = 4. -/
theorem witness_FlushReplaysThePendingSequence :
    ∃ s : State, 1 ≤ s.cfg.replayCap ∧ s.neverHangs ∧ s.inEscape = false ∧ s.newlinePending = false
      ∧ s.dirty = false ∧ ∀ b ∈ text "12;3;45", isDigit b = true ∨ b = 0x3B :=
  ⟨{ s0 with cfg := { Params.vectors with replayCap := 4 } }, by decide⟩

/-- That record, four bytes long, fits on the row up to column 15. -/
theorem witness_FlushReplaysThePendingSequence_fits :
    ((0x1B :: 0x5B :: text "12;3;45" : List Byte).take 4).length = 4
    ∧ ({ s0 with col := 15 } : State).col + 4 < s0.geometry.cols ∧ s0.busReady (6 * 4) := by decide

/-- S0 with `MAX_PARAMS` 2 and 3, after the third parameter of a sequence: it has overflowed the one
and is the third of the other. -/
theorem witness_MaxParamsIsNotObservable :
    State.SameUpToMaxParams
      { s0 with inEscape := true, esc := ⟨.readingParam, [], [1, 2], 2, true, 0x1B :: text "[1;2;3;"⟩ }
      { s0 with
        inEscape := true
        esc := ⟨.readingParam, [], [1, 2, 3], 3, false, 0x1B :: text "[1;2;3;"⟩
        cfg := { Params.vectors with maxParams := 3 } } where
  s_wf := by decide
  t_wf := by decide
  esc_same := ⟨rfl, rfl, rfl, .inr (by decide)⟩
  rest_eq := by decide

theorem witness_MaxParamsIsNotObservable_start :
    State.SameUpToMaxParams s0
      { s0 with esc := escFresh 5, cfg := { Params.vectors with maxParams := 5 } } where
  s_wf := by decide
  t_wf := by decide
  esc_same := ⟨rfl, rfl, rfl, .inl (by decide)⟩
  rest_eq := by decide

theorem witness_EmptyWriteClearsAndCarriesOutTheNewline :
    ({ s8 with dirty := true, newlinePending := true } : State).busReady (18 + 6 * s8.geometry.cols) := by
  decide

theorem witness_WriteOfPlainTextResult :
    s0.dirty = false ∧ s0.newlinePending = false ∧ s0.inEscape = false
    ∧ (∀ b ∈ text "plain [text]", b ≠ 0x0D ∧ b ≠ 0x0A ∧ b ≠ 0x1B ∧ b ≠ 0x09)
    ∧ ({ s0 with col := 7 } : State).col + (text "plain [text]").length < s0.geometry.cols
    ∧ s0.busReady (6 * (text "plain [text]").length) := by decide

theorem witness_SplittingAWriteChangesNothing :
    ∃ s t : State, s.neverHangs ∧ text "b" ≠ [] ∧ exec (.write (text "a\n")) s = .next t
      ∧ t.result = some .ok := ⟨s8, _, rfl, by decide, rfl, rfl⟩

theorem witness_PrintWritesTheBytesBeforeNul : (0 : Byte) ∉ text "ab" := by decide

theorem witness_FlushResult_nothing : s0.newlinePending = false ∧ s0.inEscape = false := by decide

theorem witness_FlushResult_newline :
    ({ s8 with newlinePending := true } : State).newlinePending = true
    ∧ ({ s8 with newlinePending := true } : State).inEscape = false
    ∧ ({ s8 with newlinePending := true } : State).busReady (12 + 6 * s8.geometry.cols) := by decide

theorem witness_FlushResult_sequence :
    (pending [] (0x1B :: text "[9;") [9, 0] 1).newlinePending = false
    ∧ (pending [] (0x1B :: text "[9;") [9, 0] 1).inEscape = true := by decide

/-- A sequence with an empty record: it is pending and there is nothing to draw. -/
theorem witness_FlushResult_empty :
    (pending [] [] [0, 0] 0).newlinePending = false ∧ (pending [] [] [0, 0] 0).inEscape = true
    ∧ (pending [] [] [0, 0] 0).esc.replay = [] := by decide

/-- The first byte drawn, and the rest left to draw. -/
theorem witness_FlushResult_byte :
    ∃ s v : State, s.neverHangs ∧ s.newlinePending = false ∧ s.inEscape = true
      ∧ s.esc.replay = 0x1B :: text "[9;"
      ∧ exec (.char 0x1B) { s with
          esc := escFresh s.cfg.maxParams, inEscape := false, result := none } = .next v
      ∧ v.result ≠ some .busError :=
  ⟨pending [] (0x1B :: text "[9;") [9, 0] 1, _, rfl, rfl, rfl, rfl, rfl, by decide⟩

/-- A bus write of the first byte fails. -/
theorem witness_FlushResult_byte_fails :
    ∃ s v : State, s.neverHangs ∧ s.newlinePending = false ∧ s.inEscape = true
      ∧ s.esc.replay = 0x1B :: text "[9;"
      ∧ exec (.char 0x1B) { s with
          esc := escFresh s.cfg.maxParams, inEscape := false, result := none } = .next v
      ∧ v.result = some .busError :=
  ⟨{ pending [] (0x1B :: text "[9;") [9, 0] 1 with wire := (failAt 6).wire }, _, rfl, rfl, rfl, rfl, rfl,
    rfl⟩

/-- A record of four bytes fits on the row up to column 15. -/
theorem witness_FlushResult_fits :
    ({ pending [] (0x1B :: text "[9;") [9, 0] 1 with col := 15 } : State).newlinePending = false
    ∧ ({ pending [] (0x1B :: text "[9;") [9, 0] 1 with col := 15 } : State).inEscape = true
    ∧ ({ pending [] (0x1B :: text "[9;") [9, 0] 1 with col := 15 } : State).col + 4 < s0.geometry.cols
    ∧ (pending [] (0x1B :: text "[9;") [9, 0] 1).busReady (6 * 4) := by decide

theorem witness_FlushFrame :
    ∃ s t : State, s.newlinePending = false ∧ exec .flush s = .next t :=
  ⟨pending [] (0x1B :: text "[9;") [9, 0] 1, _, rfl, rfl⟩

/-- A pending newline whose first bus write fails. -/
theorem witness_FlushFrame_newline :
    ∃ s t : State, s.newlinePending = true ∧ s.inEscape = false ∧ exec .flush s = .next t
      ∧ t.result = some .busError :=
  ⟨{ failAt 1 with newlinePending := true, row := 3, col := 19 }, _, rfl, rfl, rfl, rfl⟩

theorem witness_SetGeometryResult :
    resolveGeometry s0.cfg (.entry 3) = some g8x1
    ∧ resolveGeometry s0.cfg (.record ⟨1, 1, [0x7F]⟩) = some ⟨1, 1, [0x7F]⟩ ∧ s0.busReady 6 := by decide

theorem witness_GeometryOperandsResolve :
    ({ Params.vectors with extraGeometries := [⟨40, 2, [0x00, 0x40]⟩] } : Params).extraGeometries[0]?
      = some ⟨40, 2, [0x00, 0x40]⟩ ∧ geometryWf ⟨40, 2, [0x00, 0x40]⟩ = true := by decide

theorem witness_SetGeometryFailureStaysDirty :
    resolveGeometry s0.cfg (.entry 2) = some g16x2 ∧ s0.neverHangs ∧ (failAt 1).neverHangs
    ∧ (∃ t, exec (.setGeometry (.entry 2)) s0 = .next t)
    ∧ (∃ t, exec (.setGeometry (.entry 2)) (failAt 1) = .next t) :=
  ⟨by decide, rfl, rfl, ⟨_, rfl⟩, ⟨_, rfl⟩⟩

theorem witness_SetBacklightResult : s0.busReady 1 := by decide

theorem witness_CursorFlagsResult : s0.busReady 6 := by decide

theorem witness_PositionInstructionsFrame :
    (∃ t, exec .cr s0 = .next t) ∧ (∃ t, exec .tab s0 = .next t) ∧ (∃ t, exec (.char 0x41) s0 = .next t)
    ∧ (∃ t, exec (.cup 9 9) s0 = .next t) ∧ (∃ t, exec .ed2 (failAt 8) = .next t)
    ∧ (∃ t, exec .clear s0 = .next t) ∧ (∃ t, exec .home s0 = .next t)
    ∧ (∃ t, exec .lf s0 = .next t) :=
  ⟨⟨_, rfl⟩, ⟨_, rfl⟩, ⟨_, rfl⟩, ⟨_, rfl⟩, ⟨_, rfl⟩, ⟨_, rfl⟩, ⟨_, rfl⟩, ⟨_, rfl⟩⟩

theorem witness_TransferInstructionsFrame :
    (∃ t, exec (.latch 1 true true false) s0 = .next t) ∧ (∃ t, exec (.backlightCtl false) s0 = .next t)
    ∧ (∃ t, exec .entryInc s0 = .next t) ∧ (∃ t, exec (.displayCtrl true true) s0 = .next t)
    ∧ (∃ t, exec (.fset8BitHno .second) s0 = .next t) ∧ (∃ t, exec .fset4BitHno (failAt 2) = .next t)
    ∧ (∃ t, exec .fset4Bit2Line s0 = .next t) ∧ (∃ t, exec (.setDdram 0x7F) s0 = .next t)
    ∧ (∃ t, exec (.data 0xFF) s0 = .next t) :=
  ⟨⟨_, rfl⟩, ⟨_, rfl⟩, ⟨_, rfl⟩, ⟨_, rfl⟩, ⟨_, rfl⟩, ⟨_, rfl⟩, ⟨_, rfl⟩, ⟨_, rfl⟩, ⟨_, rfl⟩⟩

theorem witness_WriteFrame :
    ∃ s t : State, s.dirty = true ∧ exec (.write (text "a")) s = .next t ∧ t.wire.hung = false
      ∧ t.result = some .ok := ⟨{ s0 with dirty := true }, _, rfl, rfl, rfl, rfl⟩

theorem witness_WriteFrame_fails :
    ∃ s t : State, exec (.print (text "a" ++ [0])) s = .next t ∧ t.dirty = true :=
  ⟨{ failAt 3 with dirty := true }, _, rfl, rfl⟩

/-- The dirty clear's first bus write fails, and its sixth. -/
theorem witness_WriteFrame_dirty :
    (∃ s t : State, exec (.write (text "x")) s = .next t ∧ s.neverHangs ∧ s.dirty = true
      ∧ ∃ k < 6, s.wire.answerAt k = .busError)
    ∧ (∃ s t : State, exec (.print [0]) s = .next t ∧ s.neverHangs ∧ s.dirty = true
      ∧ ∃ k < 6, s.wire.answerAt k = .busError) :=
  ⟨⟨{ failAt 1 with dirty := true, row := 2, col := 5 }, _, rfl, rfl, rfl, 0, by decide, rfl⟩,
    ⟨{ failAt 6 with dirty := true, row := 2, col := 5 }, _, rfl, rfl, rfl, 5, by decide, rfl⟩⟩

/-- V4.20: the pending newline's first bus write fails. -/
theorem witness_WriteFrame_newline :
    ∃ s t : State, exec (.write (text "b")) s = .next t ∧ s.neverHangs ∧ s.dirty = false
      ∧ s.newlinePending = true ∧ ∃ k < 12 + 6 * s.geometry.cols, s.wire.answerAt k = .busError :=
  ⟨{ failAt 1 with newlinePending := true }, _, rfl, rfl, rfl, rfl, 0, by decide, rfl⟩

/-- Its last bus write fails, the sixtieth on the 8x1 display. -/
theorem witness_WriteFrame_newline_last :
    ∃ s t : State, exec (.write (text "b")) s = .next t ∧ s.neverHangs ∧ s.dirty = false
      ∧ s.newlinePending = true ∧ ∃ k < 12 + 6 * s.geometry.cols, s.wire.answerAt k = .busError :=
  ⟨{ failAt 60 with geometry := g8x1, newlinePending := true }, _, rfl, rfl, rfl, rfl, 59, by decide, rfl⟩

theorem witness_ControlBitOperationsFrame :
    (∃ t, exec (.setBacklight (if false then 1 else 0)) (failAt 1) = .next t)
    ∧ (∃ t, exec (.setCursorBlink (if true then 1 else 0)) (failAt 6) = .next t)
    ∧ (∃ t, exec (.setCursorDisplay (if false then 1 else 0)) s0 = .next t) :=
  ⟨⟨_, rfl⟩, ⟨_, rfl⟩, ⟨_, rfl⟩⟩

theorem witness_ControlRegistersHaveTheirOwnWriters :
    (∃ t, exec (.setGeometry (.entry 3)) (failAt 1) = .next t ∧ t.geometry ≠ s0.geometry ∧ t.dirty = true)
    ∧ (∃ t, exec (.setBacklight 0) s0 = .next t ∧ t.backlight ≠ s0.backlight)
    ∧ (∃ t, exec (.setCursorDisplay 0) s0 = .next t ∧ t.cursorVisible ≠ s0.cursorVisible)
    ∧ (∃ t, exec (.setCursorBlink 0) s0 = .next t ∧ t.cursorBlink ≠ s0.cursorBlink) :=
  ⟨⟨_, rfl, by decide, rfl⟩, ⟨_, rfl, by decide⟩, ⟨_, rfl, by decide⟩, ⟨_, rfl, by decide⟩⟩

theorem witness_TraceOnlyGrows : ∃ t, exec (.write (text "ab")) (failAt 8) = .next t := ⟨_, rfl⟩

theorem witness_OnlyListedTransfersReachTheBus :
    Instr.port (.write (text "ab")) ≠ .latch ∧ Instr.port (.write (text "ab")) = .host
    ∧ ∃ t, exec (.write (text "ab")) s0 = .next t ∧ t.wire.hung = false ∧ t.result = some .ok :=
  ⟨by decide, by decide, _, rfl, rfl, rfl⟩

theorem witness_EveryBusByteIsAWriteWithTheBacklightBit :
    s0.cfg.latchMap.distinct = true ∧ (∀ v, Instr.setBacklight 0 ≠ .backlightCtl v)
    ∧ ∃ t, exec (.setBacklight 0) s0 = .next t ∧ t.wire.trace = s0.wire.trace ++ [.write 0x00]
      ∧ Event.write 0x00 ∈ [Event.write 0x00] :=
  ⟨by decide, by intro v; simp, _, rfl, rfl, by simp⟩

theorem witness_WellFormedInstructionsAlwaysAnswerNext :
    Instr.wf s0.cfg (.setGeometry (.record ⟨1, 1, [0x7F]⟩)) = true
    ∧ ∀ k, Instr.setGeometry (.record ⟨1, 1, [0x7F]⟩) ≠ .hostReserved k :=
  ⟨by decide, by intro k; simp⟩

theorem witness_OperationsReturnOkOrBusError :
    Instr.port .flush = .host ∧ s0.neverHangs ∧ (∃ t, exec .flush s0 = .next t)
    ∧ Instr.port .cr ≠ .host ∧ (∃ t, exec .cr (failAt 2) = .next t) :=
  ⟨rfl, rfl, ⟨_, rfl⟩, by decide, ⟨_, rfl⟩⟩

theorem witness_TransferDurations :
    s0.busReady 1 ∧ s0.busReady 6 ∧ s0.busReady 12 ∧ s0.busReady 36
    ∧ resolveGeometry s0.cfg (.entry 3) = some g8x1
    ∧ ({ s0 with col := 18 } : State).col + 1 ≠ s0.geometry.cols
    ∧ ({ s0 with col := 19 } : State).col + 1 = s0.geometry.cols := by decide

/-- 60 bus writes on the 8x1 display. -/
theorem witness_TransferDurations_newLine :
    ({ s8 with cursorVisible := false, cursorBlink := false } : State).busReady
      (12 + 6 * s8.geometry.cols)
    ∧ ({ s8 with cursorVisible := false, cursorBlink := false } : State).cursorVisible = false
    ∧ ({ s8 with cursorVisible := false, cursorBlink := false } : State).cursorBlink = false := by decide

end Sys2Proof.Tests
end

section
/-! What a step does with a request of the inbox (spec/00_scope.md R5, spec/70_reset_and_hazards.md R270). -/

namespace Sys2Proof.Machine

open Sys2Proof

variable {s : State} {p : Port} {ws : List Nat} {r : Request} {rest : List Request} {i : Instr}

/-- The decoder reads the port and the session; taking a request out of the inbox changes neither. -/
@[simp] theorem State.context_inbox (s : State) (rest : List Request) (p : Port) :
    ({ s with inbox := rest } : State).context p = s.context p := rfl

theorem runWords_of_decode_instr (h : decode (s.context p) ws = .instr i) :
    runWords p ws s = exec i s := by
  simp only [runWords, h]

theorem fetch_of_request (notHung : s.wire.hung = false) (idle : s.running = none)
    (first : s.inbox = r :: rest) : fetch s = .request r { s with inbox := rest } := by
  simp [fetch, notHung, idle, first]

theorem step_of_request (notHung : s.wire.hung = false) (idle : s.running = none)
    (first : s.inbox = r :: rest) : step s = runWords r.port r.words { s with inbox := rest } := by
  simp only [step, fetch_of_request notHung idle first]

/-- Settles O9: the block is free, so the step takes up the first request; the request's words decode in
the state without it as they do in `s`. -/
theorem stepRunsTheDecodedRequest : Obligations.StepRunsTheDecodedRequest := by
  intro s r rest i notHung idle first decoded
  rw [step_of_request notHung idle first]
  exact runWords_of_decode_instr (by rw [State.context_inbox, decoded])

end Sys2Proof.Machine
end

section
/-! The escape buffer keeps within its capacities (spec/10_state.md R27 to R31), and a record that begins
with its ESC goes on beginning with it (R31). -/

namespace Sys2Proof.Machine

open Sys2Proof

variable {p : Params} {e : EscBuffer} {b c : Byte}

theorem params_wf_iff :
    p.wf = true ↔ 2 ≤ p.maxParams ∧ 4 ≤ p.replayCap ∧ p.latchMap.distinct = true := by
  simp [Params.wf, and_assoc]

theorem isDigit_iff : isDigit b = true ↔ 0x30 ≤ b.toNat ∧ b.toNat ≤ 0x39 := by simp [isDigit]

theorem recordable_of_isDigit (h : isDigit b = true) : recordable b = true := by simp [recordable, h]

/-! ### Parameter values -/

theorem foldl_digits_lt {base : Nat} {t : List Byte} (h : ∀ b ∈ t, b.toNat - 0x30 < base) (v : Nat) :
    t.foldl (fun v b => v * base + (b.toNat - 0x30)) v < (v + 1) * base ^ t.length := by
  induction t generalizing v with
  | nil => simp
  | cons d t ih =>
    have hd : d.toNat - 0x30 + 1 ≤ base := h d (by simp)
    calc t.foldl (fun v b => v * base + (b.toNat - 0x30)) (v * base + (d.toNat - 0x30))
        < (v * base + (d.toNat - 0x30) + 1) * base ^ t.length := ih (fun b hb => h b (by simp [hb])) _
      _ ≤ (v * base + base) * base ^ t.length := Nat.mul_le_mul_right _ (by omega)
      _ = (v + 1) * base ^ (d :: t).length := by rw [List.length_cons, pow_succ']; ring

/-- Digit text is worth less than the base to the power of its length. -/
theorem digitsValue_lt {base : Nat} {t : List Byte} (h : ∀ b ∈ t, b.toNat - 0x30 < base) :
    digitsValue base t < base ^ t.length := by
  simpa [digitsValue] using foldl_digits_lt h 0

/-- A parameter of at most `RAW_CAP` digits, octal or decimal, is at most 9999 (R28, R186). -/
theorem parseParam_le {t : List Byte} {v : Nat} (hl : t.length ≤ Config.rawCap)
    (hd : ∀ b ∈ t, isDigit b = true) (h : parseParam t = some v) : v ≤ 9999 := by
  have hcap : Config.rawCap = 4 := rfl
  cases t with
  | nil => simp [parseParam] at h
  | cons d t =>
    rw [List.length_cons] at hl
    simp only [parseParam] at h
    split_ifs at h with hoctal hsmall
    · cases h
      have hlt := digitsValue_lt (base := 8) (t := t) fun b hb => by
        have := List.all_eq_true.1 hsmall b hb
        simp only [decide_eq_true_eq] at this
        omega
      have hpow : 8 ^ t.length ≤ 8 ^ 3 := Nat.pow_le_pow_right (by omega) (by omega)
      omega
    · cases h
      have hlt := digitsValue_lt (base := 10) (t := d :: t) fun b hb => by
        have := isDigit_iff.1 (hd b hb)
        omega
      have hpow : 10 ^ (d :: t).length ≤ 10 ^ 4 := Nat.pow_le_pow_right (by omega) (by simpa using by omega)
      omega

/-! ### Capacities -/

theorem escFresh_ok (p : Params) : (escFresh p.maxParams).Ok p := by
  constructor <;> simp [escFresh]

theorem EscBuffer.Ok.withState (h : e.Ok p) (st : EscState) : EscBuffer.Ok p { e with state := st } :=
  ⟨h.raw_length, h.raw_digits, h.params_length, h.params_bound, h.count_bound, h.replay_length,
    h.replay_bytes⟩

theorem EscBuffer.Ok.withError (h : e.Ok p) : EscBuffer.Ok p { e with error := true } :=
  ⟨h.raw_length, h.raw_digits, h.params_length, h.params_bound, h.count_bound, h.replay_length,
    h.replay_bytes⟩

theorem EscBuffer.Ok.emptyRaw (h : e.Ok p) : EscBuffer.Ok p { e with raw := [] } :=
  ⟨by simp, by simp, h.params_length, h.params_bound, h.count_bound, h.replay_length, h.replay_bytes⟩

theorem EscBuffer.Ok.appendRaw (h : e.Ok p) (hb : isDigit b = true) (room : e.raw.length < Config.rawCap) :
    EscBuffer.Ok p { e with raw := e.raw ++ [b] } := by
  refine ⟨by simpa using room, fun x hx => ?_, h.params_length, h.params_bound, h.count_bound,
    h.replay_length, h.replay_bytes⟩
  rcases List.mem_append.1 hx with hx | hx
  · exact h.raw_digits x hx
  · rwa [List.mem_singleton.1 hx]

theorem EscBuffer.Ok.storeParam (h : e.Ok p) {v : Nat} (hv : v ≤ 9999) (room : e.paramCount < p.maxParams) :
    EscBuffer.Ok p { e with params := e.params.set e.paramCount v, paramCount := e.paramCount + 1 } := by
  refine ⟨h.raw_length, h.raw_digits, by simpa using h.params_length, fun x hx => ?_, room,
    h.replay_length, h.replay_bytes⟩
  rcases List.mem_or_eq_of_mem_set hx with hx | rfl
  · exact h.params_bound x hx
  · exact hv

theorem EscBuffer.Ok.replayAppend (h : e.Ok p) (hb : recordable b = true) :
    (replayAppend p.replayCap b e).Ok p := by
  unfold Machine.replayAppend
  split_ifs with room
  · refine ⟨h.raw_length, h.raw_digits, h.params_length, h.params_bound, h.count_bound,
      by simpa using room, fun x hx => ?_⟩
    rcases List.mem_append.1 hx with hx | hx
    · exact h.replay_bytes x hx
    · rwa [List.mem_singleton.1 hx]
  · exact h

theorem EscBuffer.Ok.finalizeParam (h : e.Ok p) : (finalizeParam p.maxParams e).Ok p := by
  unfold Machine.finalizeParam
  split
  case h_1 => exact h.emptyRaw.withError
  case h_2 v hv =>
    split_ifs with room
    · exact (h.storeParam (parseParam_le h.raw_length h.raw_digits hv) room).emptyRaw
    · exact h.emptyRaw.withError

theorem EscBuffer.Ok.bracketStep (h : e.Ok p) : (bracketStep p e).Ok p :=
  (h.withState _).replayAppend (by decide)

theorem EscBuffer.Ok.digitStep (h : e.Ok p) (hb : isDigit b = true) : (digitStep p b e).Ok p := by
  have hr := h.replayAppend (recordable_of_isDigit hb)
  unfold Machine.digitStep
  dsimp only
  split_ifs with room
  · exact hr.appendRaw hb room
  · exact hr.withError

theorem EscBuffer.Ok.semiStep (h : e.Ok p) : (semiStep p e).Ok p :=
  (h.replayAppend (by decide)).finalizeParam

/-! ### The head of the replay record -/

theorem replayAppend_head (cap : Nat) (b : Byte) (h : e.replay.head? = some c) :
    (replayAppend cap b e).replay.head? = some c := by
  unfold replayAppend
  split_ifs
  · simp [List.head?_append, h]
  · exact h

@[simp] theorem finalizeParam_replay (n : Nat) (e : EscBuffer) :
    (finalizeParam n e).replay = e.replay := by
  unfold finalizeParam
  split
  · rfl
  · split_ifs <;> rfl

theorem bracketStep_head (p : Params) (h : e.replay.head? = some c) :
    (bracketStep p e).replay.head? = some c := replayAppend_head _ _ h

theorem digitStep_head (p : Params) (b : Byte) (h : e.replay.head? = some c) :
    (digitStep p b e).replay.head? = some c := by
  unfold digitStep
  dsimp only
  split_ifs <;> exact replayAppend_head _ _ h

theorem semiStep_head (p : Params) (h : e.replay.head? = some c) :
    (semiStep p e).replay.head? = some c := by
  rw [semiStep, finalizeParam_replay]
  exact replayAppend_head _ _ h

/-- A new record has room for its ESC, since `REPLAY_CAP` is at least 4 (R8, R180). -/
theorem replayAppend_escFresh_head {n : Nat} {cap : Nat} (hcap : 0 < cap) :
    (replayAppend cap b (escFresh n)).replay.head? = some b := by
  simp [replayAppend, escFresh, hcap]

end Sys2Proof.Machine
end

section
/-! The session invariant under each update of the state and each shared operation, whatever the bus
answers: position in range (spec/10_state.md R24), R38, R217 and the escape buffer. -/

namespace Sys2Proof.Machine

open Sys2Proof

variable {s t : State} {r : Run} {f : State → Run} {b : Byte} {g : Geometry}

/-! ### What the frames keep -/

theorem WireFrame.inv (k : WireFrame s t) (h : s.Inv) : t.Inv := by
  unfold WireFrame at k
  rw [k]
  exact ⟨h.params_wf, h.geometry_wf, h.row_bound, h.col_bound, h.esc_ok, h.idle_fresh, h.replay_head,
    h.newline_idle, h.dirty_idle, h.loop_ok, h.inbox_host⟩

theorem PositionFrame.newlinePending (k : PositionFrame s t) : t.newlinePending = s.newlinePending := by
  unfold PositionFrame at k; rw [k]

theorem LineFrame.inEscape (k : LineFrame s t) : t.inEscape = s.inEscape := by
  unfold LineFrame at k; rw [k]

theorem ByteFrame.dirty (k : ByteFrame s t) : t.dirty = s.dirty := by
  unfold ByteFrame at k; rw [k]

theorem ByteFrame.running (k : ByteFrame s t) : t.running = s.running := by
  unfold ByteFrame at k; rw [k]

/-! ### Reset -/

theorem initialGeometry_wf : geometryWf initialGeometry = true := by
  unfold initialGeometry
  split_ifs with h
  · exact h
  · decide

theorem configParams_wf : Config.params.wf = true := by
  refine params_wf_iff.2 ⟨Nat.le_add_left _ _, Nat.le_add_left _ _, ?_⟩
  show (if Config.latchMapDraw.distinct then Config.latchMapDraw else LatchMap.standard).distinct = true
  split_ifs with h
  · exact h
  · decide

/-- A well-formed Geometry has a cell at the origin (R151). -/
theorem geometryWf_pos (h : geometryWf g = true) : 0 < g.rows ∧ 0 < g.cols := by
  simp only [geometryWf, Bool.and_eq_true, decide_eq_true_eq] at h
  omega

/-- Settles O2: every free parameter of reset is in its domain, and the rest of the record is idle. -/
theorem invariantHoldsAtReset : Obligations.InvariantHoldsAtReset where
  params_wf := configParams_wf
  geometry_wf := initialGeometry_wf
  row_bound := (geometryWf_pos initialGeometry_wf).1
  col_bound := (geometryWf_pos initialGeometry_wf).2
  esc_ok := escFresh_ok _
  idle_fresh := fun _ => rfl
  replay_head := by simp [State.reset]
  newline_idle := by simp [State.reset]
  dirty_idle := by simp [State.reset]
  loop_ok := by simp [State.reset]
  inbox_host := by simp [State.reset]

/-! ### Updates of the state -/

theorem State.Inv.moveTo (h : s.Inv) {r c : Nat} (hr : r < s.geometry.rows) (hc : c < s.geometry.cols) :
    (s.moveTo r c).Inv :=
  ⟨h.params_wf, h.geometry_wf, hr, hc, h.esc_ok, h.idle_fresh, h.replay_head, h.newline_idle,
    h.dirty_idle, h.loop_ok, h.inbox_host⟩

theorem State.Inv.origin (h : s.Inv) : (s.moveTo 0 0).Inv :=
  h.moveTo (geometryWf_pos h.geometry_wf).1 (geometryWf_pos h.geometry_wf).2

theorem State.Inv.parserIdle (h : s.Inv) : s.parserIdle.Inv :=
  ⟨h.params_wf, h.geometry_wf, h.row_bound, h.col_bound, escFresh_ok _, fun _ => rfl, by simp, by simp,
    fun hd => ⟨rfl, (h.dirty_idle hd).2⟩, h.loop_ok, h.inbox_host⟩

theorem State.Inv.newlineCleared (h : s.Inv) : State.Inv { s with newlinePending := false } :=
  ⟨h.params_wf, h.geometry_wf, h.row_bound, h.col_bound, h.esc_ok, h.idle_fresh, h.replay_head, by simp,
    fun hd => ⟨(h.dirty_idle hd).1, rfl⟩, h.loop_ok, h.inbox_host⟩

theorem State.Inv.newlineDeferred (h : s.Inv) (hi : s.inEscape = false) (hd : s.dirty = false) :
    State.Inv { s with newlinePending := true } :=
  ⟨h.params_wf, h.geometry_wf, h.row_bound, h.col_bound, h.esc_ok, h.idle_fresh, h.replay_head,
    by simp [hi], by simp [hd], h.loop_ok, h.inbox_host⟩

theorem State.Inv.dirtyCleared (h : s.Inv) : State.Inv { s with dirty := false } :=
  ⟨h.params_wf, h.geometry_wf, h.row_bound, h.col_bound, h.esc_ok, h.idle_fresh, h.replay_head,
    h.newline_idle, by simp, fun w hw => ⟨(h.loop_ok w hw).1, rfl⟩, h.inbox_host⟩

theorem State.Inv.withFlags (h : s.Inv) (bl cv cb : Bool) :
    State.Inv { s with backlight := bl, cursorVisible := cv, cursorBlink := cb } :=
  ⟨h.params_wf, h.geometry_wf, h.row_bound, h.col_bound, h.esc_ok, h.idle_fresh, h.replay_head,
    h.newline_idle, h.dirty_idle, h.loop_ok, h.inbox_host⟩

theorem State.Inv.withInbox (h : s.Inv) {rest : List Request} (hr : ∀ r ∈ rest, r.port = .host) :
    State.Inv { s with inbox := rest } :=
  ⟨h.params_wf, h.geometry_wf, h.row_bound, h.col_bound, h.esc_ok, h.idle_fresh, h.replay_head,
    h.newline_idle, h.dirty_idle, h.loop_ok, hr⟩

theorem State.Inv.initialized (h : s.Inv) : s.initialized.Inv :=
  h.parserIdle.newlineCleared.dirtyCleared.withFlags _ _ _

/-- `setGeometry` sets `dirty`, so no byte loop may be in progress (R40, R220). -/
theorem State.Inv.withGeometry (h : s.Inv) (hg : geometryWf g = true) (hw : s.running = none) :
    (s.withGeometry g).Inv :=
  ⟨h.params_wf, hg, (geometryWf_pos hg).1, (geometryWf_pos hg).2, escFresh_ok _, fun _ => rfl, by simp,
    by simp, fun _ => ⟨rfl, rfl⟩, by simp [hw], h.inbox_host⟩

/-- The buffer of an open sequence replaced by one within its capacities that still begins with ESC. -/
theorem State.Inv.withEsc (h : s.Inv) {e : EscBuffer} (hi : s.inEscape = true) (he : e.Ok s.cfg)
    (hh : e.replay.head? = some chEsc) : State.Inv { s with esc := e } :=
  ⟨h.params_wf, h.geometry_wf, h.row_bound, h.col_bound, he, by simp [hi], fun _ => hh, h.newline_idle,
    h.dirty_idle, h.loop_ok, h.inbox_host⟩

theorem State.Inv.escEnter (h : s.Inv) (hn : s.newlinePending = false) (hd : s.dirty = false) :
    (escEnter s).Inv := by
  obtain ⟨-, hcap, -⟩ := params_wf_iff.1 h.params_wf
  exact ⟨h.params_wf, h.geometry_wf, h.row_bound, h.col_bound, (escFresh_ok _).replayAppend (by decide),
    by simp, fun _ => replayAppend_escFresh_head (by omega), by simp [hn], by simp [hd], h.loop_ok,
    h.inbox_host⟩

/-! The invariant of `s.returnOk` is the invariant of `s` but for the byte loop. -/

theorem State.Inv.returnOk (h : s.Inv) : s.returnOk.Inv :=
  ⟨h.params_wf, h.geometry_wf, h.row_bound, h.col_bound, h.esc_ok, h.idle_fresh, h.replay_head,
    h.newline_idle, h.dirty_idle, by simp, h.inbox_host⟩

theorem State.Inv.takeBusError (h : s.Inv) : s.takeBusError.Inv :=
  ⟨h.params_wf, h.geometry_wf, h.row_bound, h.col_bound, h.esc_ok, h.idle_fresh, h.replay_head,
    h.newline_idle, h.dirty_idle, by simp, h.inbox_host⟩

theorem State.Inv.of_returnOk (h : s.returnOk.Inv)
    (hw : ∀ w, s.running = some w → w.index < w.buf.length ∧ s.dirty = false) : s.Inv :=
  ⟨h.params_wf, h.geometry_wf, h.row_bound, h.col_bound, h.esc_ok, h.idle_fresh, h.replay_head,
    h.newline_idle, h.dirty_idle, hw, h.inbox_host⟩

/-! ### Runs -/

theorem Run.andThen_inv (h : r.state.Inv) (hf : ∀ u, u.Inv → (f u).state.Inv) :
    (r.andThen f).state.Inv := by
  cases r with
  | done u => exact hf u h
  | busError u => exact h
  | hung u => exact h

theorem Run.returned_inv (h : r.state.Inv) : r.returned.Inv := by
  cases r with
  | done u => exact State.Inv.returnOk h
  | busError u => exact State.Inv.takeBusError h
  | hung u => exact h

theorem emitAll_inv (es : List Event) (h : s.Inv) : (emitAll es s).state.Inv := (emitAll_frame es s).inv h

theorem setAddr_inv (r c : Nat) (h : s.Inv) : (setAddr r c s).state.Inv := emitAll_inv _ h

/-! ### The position operations stay in range (R24) -/

theorem State.Inv.nextRow_lt (h : s.Inv) : s.nextRow < s.geometry.rows :=
  Nat.mod_lt _ (geometryWf_pos h.geometry_wf).1

theorem State.Inv.toNextRow (h : s.Inv) : (s.moveTo s.nextRow 0).Inv :=
  h.moveTo h.nextRow_lt (geometryWf_pos h.geometry_wf).2

/-- The one-step clamp ends in range, whatever is asked for (R161). -/
theorem clampCursor_bounds (hg : geometryWf g = true) (r c : Nat) :
    (clampCursor g r c).1 < g.rows ∧ (clampCursor g r c).2 < g.cols := by
  have := geometryWf_pos hg
  unfold clampCursor
  dsimp only
  split_ifs <;> dsimp only at * <;> omega

theorem State.Inv.tabTarget_bounds (h : s.Inv) :
    s.tabTarget.1 < s.geometry.rows ∧ s.tabTarget.2 < s.geometry.cols := by
  unfold State.tabTarget
  split_ifs with hc
  · exact ⟨h.nextRow_lt, (geometryWf_pos h.geometry_wf).2⟩
  · exact ⟨h.row_bound, Nat.lt_of_not_le hc⟩

theorem writeChar_inv (ch : Byte) (h : s.Inv) : (writeChar ch s).state.Inv := by
  refine Run.andThen_inv (emitAll_inv _ h) fun u hu => ?_
  have hcol := hu.col_bound
  split_ifs with hc
  · exact setAddr_inv _ _ hu.toNextRow
  · exact hu.moveTo hu.row_bound (by omega)

theorem writeChars_inv (bs : List Byte) (h : s.Inv) : (writeChars bs s).state.Inv := by
  induction bs generalizing s with
  | nil => exact h
  | cons b bs ih => exact Run.andThen_inv (writeChar_inv b h) fun u hu => ih hu

theorem setCursor_inv (r c : Nat) (h : s.Inv) : (setCursor r c s).state.Inv := by
  obtain ⟨hr, hc⟩ := clampCursor_bounds h.geometry_wf r c
  exact setAddr_inv _ _ (h.moveTo hr hc)

theorem tabOp_inv (h : s.Inv) : (tabOp s).state.Inv :=
  setAddr_inv _ _ (h.moveTo h.tabTarget_bounds.1 h.tabTarget_bounds.2)

theorem carriageReturn_inv (h : s.Inv) : (carriageReturn s).state.Inv :=
  setAddr_inv _ _ (h.moveTo h.row_bound (geometryWf_pos h.geometry_wf).2)

theorem newLine_inv (h : s.Inv) : (newLine s).state.Inv := by
  rw [newLine_eq]; exact emitAll_inv _ h.toNextRow

theorem clearDisplay_inv (h : s.Inv) : (clearDisplay s).state.Inv :=
  Run.andThen_inv (emitAll_inv _ h) fun _ hu => hu.origin

theorem returnHome_inv (h : s.Inv) : (returnHome s).state.Inv :=
  Run.andThen_inv (emitAll_inv _ h) fun _ hu => hu.origin

theorem runCommand_inv (c : Command) (h : s.Inv) : (runCommand c s).state.Inv := by
  cases c with
  | ed2 => exact Run.andThen_inv (clearDisplay_inv h) fun _ => returnHome_inv
  | cup r c => exact setCursor_inv r c h
  | noop => exact h

/-! ### One byte of a `write` -/

theorem escFeed_inv (h : s.Inv) (hi : s.inEscape = true) : (escFeed b s).state.Inv := by
  have hh := h.replay_head hi
  unfold escFeed
  split
  case h_1 =>
    split_ifs
    · exact h.withEsc hi h.esc_ok.bracketStep (bracketStep_head _ hh)
    · exact h
  case h_2 =>
    split_ifs with hdigit
    · exact h.withEsc hi (h.esc_ok.digitStep hdigit) (digitStep_head _ _ hh)
    · exact h.withEsc hi h.esc_ok.semiStep (semiStep_head _ hh)
    · exact runCommand_inv _ h.parserIdle

theorem lineFeed_inv (h : s.Inv) (hi : s.inEscape = false) (hd : s.dirty = false) :
    (lineFeed s).state.Inv := by
  unfold lineFeed
  split_ifs
  · exact h.newlineDeferred hi hd
  · exact newLine_inv h

theorem dispatchByte_inv (h : s.Inv) (hi : s.inEscape = false) (hn : s.newlinePending = false)
    (hd : s.dirty = false) : (dispatchByte b s).state.Inv := by
  unfold dispatchByte
  split_ifs
  · exact carriageReturn_inv h
  · exact lineFeed_inv h hi hd
  · exact h.escEnter hn hd
  · exact tabOp_inv h
  · exact writeChar_inv b h

theorem pendingNewline_inv (h : s.Inv) : (pendingNewline s).state.Inv := by
  unfold pendingNewline
  split_ifs
  · exact newLine_inv h.newlineCleared
  · exact h

/-- No newline is pending after `PendingNewline`, however it ended: the flag is cleared first (R214). -/
theorem pendingNewline_newlinePending (s : State) : (pendingNewline s).state.newlinePending = false := by
  unfold pendingNewline
  split_ifs with hn
  · exact (newLine_frame _).newlinePending
  · simpa using hn

theorem writeByte_inv (b : Byte) (h : s.Inv) (hd : s.dirty = false) : (writeByte b s).state.Inv := by
  have hinv := pendingNewline_inv h
  have hframe := pendingNewline_frame s
  have hnewline := pendingNewline_newlinePending s
  unfold writeByte
  cases hrun : pendingNewline s <;> rw [hrun] at hinv hframe hnewline
  case busError u => exact hinv
  case hung u => exact hinv
  case done u =>
    rw [Run.andThen_done]
    split_ifs with hi
    · exact escFeed_inv hinv hi
    · exact dispatchByte_inv hinv (by simpa using hi) hnewline (hframe.byte.dirty.trans hd)

/-! ### The byte loop -/

/-- The byte loop keeps the invariant. Between its bytes the index may have reached the end of the buffer, so
only `s.returnOk` is known to satisfy the invariant there. -/
theorem writeLoop_inv (n : Nat) (h : s.returnOk.Inv) (hd : s.dirty = false) :
    (writeLoop n s).returned.Inv := by
  induction n generalizing s with
  | zero => exact h
  | succ n ih =>
    rw [writeLoop]
    cases hb : s.currentByte with
    | none => exact h
    | some b =>
      have hs : s.Inv := h.of_returnOk fun w hw => by
        simp only [State.currentByte, hw, Option.bind_some] at hb
        exact ⟨(List.getElem?_eq_some_iff.1 hb).1, hd⟩
      have hinv := writeByte_inv b hs hd
      have hframe := writeByte_frame b s
      dsimp only
      cases hrun : writeByte b s <;> rw [hrun] at hinv hframe
      case done u => exact ih hinv.returnOk (hframe.dirty.trans hd)
      case busError u => exact hinv.takeBusError
      case hung u => exact hinv

theorem dirtyClear_inv (h : s.Inv) : (dirtyClear s).state.Inv := by
  unfold dirtyClear
  split_ifs
  · exact Run.andThen_inv (clearDisplay_inv h) fun _ hu => hu.dirtyCleared
  · exact h

/-- After a dirty clear that ran to its end the session is not dirty (R215). -/
theorem dirtyClear_done_dirty {u : State} (h : dirtyClear s = .done u) : u.dirty = false := by
  unfold dirtyClear at h
  split_ifs at h with hd
  · cases hrun : clearDisplay s <;> rw [hrun] at h <;> cases h
    rfl
  · cases h
    simpa using hd

/-- After a prologue that ran to its end the session is not dirty. -/
theorem writePrologue_done_dirty {u : State} (h : writePrologue s = .done u) : u.dirty = false := by
  unfold writePrologue at h
  cases hrun : dirtyClear s <;> rw [hrun] at h
  case done v =>
    have hframe := pendingNewline_frame v
    rw [show pendingNewline v = .done u from h] at hframe
    exact hframe.byte.dirty.trans (dirtyClear_done_dirty hrun)
  case busError v => cases h
  case hung v => cases h

theorem writeBuffer_inv (buf : List Byte) (h : s.Inv) : (writeBuffer buf s).returned.Inv := by
  have hinv : (writePrologue s).state.Inv :=
    Run.andThen_inv (dirtyClear_inv h) fun _ => pendingNewline_inv
  unfold writeBuffer
  cases hrun : writePrologue s <;> rw [hrun] at hinv
  case done u =>
    have hdirty : u.dirty = false := writePrologue_done_dirty hrun
    exact writeLoop_inv (s := u.beginLoop buf) _ (State.Inv.returnOk (s := u) hinv) hdirty
  case busError u => exact State.Inv.takeBusError hinv
  case hung u => exact hinv

/-! ### The other host operations -/

theorem initializeOp_inv (h : s.Inv) : (initializeOp s).state.Inv := by
  rw [initializeOp_eq]
  exact Run.andThen_inv (emitAll_inv _ h.initialized) fun _ hu => emitAll_inv _ hu.origin

theorem setGeometryOp_inv (h : s.Inv) (hg : geometryWf g = true) (hw : s.running = none) :
    (setGeometryOp g s).state.Inv :=
  Run.andThen_inv (clearDisplay_inv (h.withGeometry hg hw)) fun _ hu => hu.dirtyCleared

theorem flushOp_inv (h : s.Inv) : (flushOp s).state.Inv := by
  refine Run.andThen_inv (pendingNewline_inv h) fun u hu => ?_
  split_ifs
  · exact writeChars_inv _ hu.parserIdle
  · exact hu

/-- An operand that resolves names a well-formed Geometry (R102, R151). -/
theorem resolveGeometry_wf {p : Params} {op : GeometryOperand} (h : resolveGeometry p op = some g) :
    geometryWf g = true := by
  cases op with
  | entry k => exact (Option.filter_eq_some_iff.1 h).2
  | record g' =>
    simp only [resolveGeometry] at h
    split_ifs at h with hwf
    cases h
    exact hwf

/-- A host operation with no byte loop in progress keeps the invariant. -/
theorem instrRun_host_inv {i : Instr} (hr : instrRun s i = some r) (hp : i.port = .host) (h : s.Inv)
    (hw : s.running = none) : r.returned.Inv := by
  cases i <;> simp only [Instr.port, reduceCtorEq] at hp <;>
    simp only [instrRun, Option.some.injEq, Option.map_eq_some_iff, reduceCtorEq] at hr
  case initializeDisplay => exact hr ▸ Run.returned_inv (initializeOp_inv h)
  case write buf => exact hr ▸ writeBuffer_inv buf h
  case print str => obtain ⟨buf, -, rfl⟩ := hr; exact writeBuffer_inv buf h
  case setGeometry op =>
    obtain ⟨g, hg, rfl⟩ := hr
    exact Run.returned_inv (setGeometryOp_inv h (resolveGeometry_wf hg) hw)
  case setBacklight b =>
    obtain ⟨v, -, rfl⟩ := hr
    exact Run.returned_inv (emitAll_inv _ (h.withFlags v s.cursorVisible s.cursorBlink))
  case setCursorBlink b =>
    obtain ⟨v, -, rfl⟩ := hr
    exact Run.returned_inv (emitAll_inv _ (h.withFlags s.backlight s.cursorVisible v))
  case setCursorDisplay b =>
    obtain ⟨v, -, rfl⟩ := hr
    exact Run.returned_inv (emitAll_inv _ (h.withFlags s.backlight v s.cursorBlink))
  case flush => exact hr ▸ Run.returned_inv (flushOp_inv h)

end Sys2Proof.Machine
end

section
/-! What a step can do, said once (spec/10_state.md R40, spec/60_exceptions.md R246, R248), and what it
keeps: the byte index and the invariant. -/

namespace Sys2Proof.Machine

open Sys2Proof

variable {s t : State}

/-- A run that sends and hangs leaves the block hung. -/
theorem Run.Sends.hung_true {u : State} (h : Run.Sends s (.hung u)) : u.wire.hung = true := by
  obtain ⟨-, -, -, -, -, -, -, -, hung⟩ := h
  exact hung

/-- What the block is left with after one byte of a `write` in progress. -/
def Run.afterByte : Run → State
  | .done u => Machine.afterByte u
  | .busError u => u.takeBusError
  | .hung u => u

/-- A step inside a `write` runs what R210 runs for the byte, and then advances the index, whatever the
primitives do. -/
theorem stepByte_next (b : Byte) (s : State) : stepByte b s = .next (writeByte b s).afterByte := by
  unfold stepByte writeByte
  cases pendingNewline s with
  | busError u => rfl
  | hung u => rfl
  | done u =>
    have hx : exec (decodeStream u.parserMode b) u
        = .next (if u.inEscape then escFeed b u else dispatchByte b u).resumed :=
      exec_next.2 ⟨_, instrRun_decodeStream u b, (Run.left_decodeStream _ _ _).symm⟩
    have hs : Run.Sends u (if u.inEscape then escFeed b u else dispatchByte b u) := by
      split_ifs
      · exact escFeed_sends b u
      · exact dispatchByte_sends b u
    simp only [Run.andThen_done, runWords, decode, State.context, decodeOneByte, byteOf_toNat, hx,
      thenState]
    cases hr : (if u.inEscape = true then escFeed b u else dispatchByte b u) with
    | done v => rfl
    | busError v => exact congrArg _ (ite_self _)
    | hung v => exact congrArg _ (if_pos (hr ▸ hs).hung_true)

/-- Everything a step that answers next can be: a byte of the `write` in progress, the end of a `write` with
no byte left, a wait, or a request. -/
theorem step_cases (h : step s = .next t) :
    (∃ w b, s.running = some w ∧ w.buf[w.index]? = some b ∧ t = (writeByte b s).afterByte)
    ∨ (∃ w, s.running = some w ∧ t = s.returnOk)
    ∨ (s.running = none ∧ t = s)
    ∨ (∃ r rest, s.running = none ∧ s.inbox = r :: rest
        ∧ runWords r.port r.words { s with inbox := rest } = .next t) := by
  unfold step fetch at h
  split_ifs at h
  cases hw : s.running with
  | some w =>
    cases hb : w.buf[w.index]? with
    | some b =>
      simp only [hw, hb, stepByte_next, Host.Outcome.next.injEq] at h
      exact .inl ⟨w, b, rfl, hb, h.symm⟩
    | none =>
      simp only [hw, hb, Host.Outcome.next.injEq] at h
      exact .inr (.inl ⟨w, rfl, h.symm⟩)
  | none =>
    cases hq : s.inbox with
    | nil =>
      simp only [hw, hq, Host.Outcome.next.injEq] at h
      exact .inr (.inr (.inl ⟨rfl, h.symm⟩))
    | cons r rest =>
      simp only [hw, hq] at h
      exact .inr (.inr (.inr ⟨r, rest, rfl, rfl, h⟩))

/-- A byte that runs to its end moves the index on, or ends the `write`, unless the block is hung. -/
theorem afterByte_cases {u : State} {v : WriteLoop} (hv : u.running = some v) :
    (u.wire.hung = true ∧ afterByte u = u)
    ∨ (v.index + 1 < v.buf.length ∧ afterByte u = u.advanceIndex)
    ∨ afterByte u = u.returnOk := by
  unfold afterByte
  split_ifs with hh
  · exact .inl ⟨hh, rfl⟩
  · rw [hv]
    dsimp only
    split_ifs with hlt
    · exact .inr (.inl ⟨hlt, rfl⟩)
    · exact .inr (.inr rfl)

/-- Settles O12: the byte itself leaves the byte loop alone (`writeByte_frame`), so all the index sees is
`afterByte`. -/
theorem byteIndexAdvancesByExactlyOne : Obligations.ByteIndexAdvancesByExactlyOne := by
  intro s t v w hv hstep hhung hw
  rcases step_cases hstep with ⟨_, b, -, -, rfl⟩ | ⟨_, -, rfl⟩ | ⟨hnone, -⟩ | ⟨_, _, hnone, -⟩
  · have hsends := writeByte_sends b s
    have hframe := writeByte_frame b s
    cases hrun : writeByte b s <;> rw [hrun] at hsends hframe hhung hw
    case done u =>
      have hu : u.running = some v := hframe.running.trans hv
      change (afterByte u).wire.hung = false at hhung
      change (afterByte u).running = some w at hw
      rcases afterByte_cases hu with ⟨hung, heq⟩ | ⟨-, heq⟩ | heq <;> rw [heq] at hhung hw
      · simp [hung] at hhung
      · simp only [State.advanceIndex_running, hu, Option.map_some, Option.some.injEq] at hw
        subst hw
        exact ⟨rfl, rfl⟩
      · cases hw
    case busError u => cases hw
    case hung u => exact absurd hsends.hung_true (by simpa [Run.afterByte] using hhung)
  · cases hw
  · simp [hnone] at hv
  · simp [hnone] at hv

/-! ### The invariant -/

theorem afterByte_inv {u : State} (h : u.Inv) : (afterByte u).Inv := by
  cases hv : u.running with
  | none =>
    have heq : afterByte u = u := by simp [afterByte, hv]
    rwa [heq]
  | some v =>
    rcases afterByte_cases hv with ⟨-, heq⟩ | ⟨hlt, heq⟩ | heq <;> rw [heq]
    · exact h
    · refine State.Inv.of_returnOk h.returnOk fun w hw => ?_
      simp only [State.advanceIndex_running, hv, Option.map_some, Option.some.injEq] at hw
      subst hw
      exact ⟨hlt, (h.loop_ok v hv).2⟩
    · exact h.returnOk

theorem Run.afterByte_inv {r : Run} (h : r.state.Inv) : r.afterByte.Inv := by
  cases r with
  | done u => exact Machine.afterByte_inv h
  | busError u => exact State.Inv.takeBusError h
  | hung u => exact h

/-! Words at the host port decode to host operations only (R100). -/

theorem decodeNoOperand_port {i j : Instr} {ws : List Nat} (hj : j.port = .host)
    (h : decodeNoOperand j ws = .instr i) : i.port = .host := by
  unfold decodeNoOperand at h
  split at h <;> cases h
  exact hj

theorem decodeByteOperand_port {i : Instr} {f : Byte → Instr} {ws : List Nat}
    (hf : ∀ b, (f b).port = .host) (h : decodeByteOperand f ws = .instr i) : i.port = .host := by
  unfold decodeByteOperand at h
  repeat' split at h
  all_goals cases h
  exact hf _

theorem decodeWrite_port {i : Instr} {ws : List Nat} (h : decodeWrite ws = .instr i) :
    i.port = .host := by
  unfold decodeWrite at h
  repeat' split at h
  all_goals cases h
  rfl

theorem decodePrint_port {i : Instr} {ws : List Nat} (h : decodePrint ws = .instr i) :
    i.port = .host := by
  unfold decodePrint at h
  split at h <;> cases h
  rfl

theorem decodeGeometry_port {i : Instr} {ws : List Nat} (h : decodeGeometry ws = .instr i) :
    i.port = .host := by
  unfold decodeGeometry at h
  repeat' split at h
  all_goals cases h
  all_goals rfl

theorem decodeHost_port {ws : List Nat} {i : Instr} (h : decodeHost ws = .instr i) : i.port = .host := by
  unfold decodeHost at h
  split at h
  · cases h
  · split at h
    · exact decodeNoOperand_port rfl h
    · exact decodeWrite_port h
    · exact decodePrint_port h
    · exact decodeGeometry_port h
    · exact decodeByteOperand_port (fun _ => rfl) h
    · exact decodeByteOperand_port (fun _ => rfl) h
    · exact decodeByteOperand_port (fun _ => rfl) h
    · exact decodeNoOperand_port rfl h
    · split_ifs at h
      cases h
      rfl

theorem runWords_host_inv {ws : List Nat} (hx : runWords .host ws s = .next t) (h : s.Inv)
    (hw : s.running = none) : t.Inv := by
  unfold runWords at hx
  split at hx
  case h_2 => cases hx
  case h_1 i hd =>
    have hp : i.port = .host := decodeHost_port hd
    obtain ⟨r, hr, rfl⟩ := exec_next.1 hx
    rw [Run.left, if_pos hp]
    exact instrRun_host_inv hr hp h hw

/-- Settles O3, by the cases of a step: a byte of a `write` in progress, with nothing dirty; the end of a
`write`; nothing; or a request of the host, with no `write` in progress. -/
theorem everyStepKeepsTheInvariant : Obligations.EveryStepKeepsTheInvariant := by
  intro s t h hstep
  rcases step_cases hstep with
    ⟨w, b, hw, -, rfl⟩ | ⟨_, -, rfl⟩ | ⟨-, rfl⟩ | ⟨r, rest, hw, hinbox, hrun⟩
  · exact Run.afterByte_inv (writeByte_inv b h (h.loop_ok w hw).2)
  · exact h.returnOk
  · exact h
  · have hports := h.inbox_host
    simp only [hinbox, List.forall_mem_cons] at hports
    obtain ⟨hport, hrest⟩ := hports
    rw [hport] at hrun
    exact runWords_host_inv hrun (h.withInbox hrest) hw

end Sys2Proof.Machine
end

section
/-! Which instructions write the control registers (spec/10_state.md R33, R35 to R37, R39). -/

namespace Sys2Proof.Machine

open Sys2Proof

variable {s t u : State} {i : Instr} {r : Run}

/-- No control register is different, and `dirty` is not turned on. -/
structure ControlsKept (s t : State) : Prop where
  geometry : t.geometry = s.geometry
  backlight : t.backlight = s.backlight
  cursorVisible : t.cursorVisible = s.cursorVisible
  cursorBlink : t.cursorBlink = s.cursorBlink
  dirty : t.dirty = true → s.dirty = true
  cfg : t.cfg = s.cfg

theorem ControlsKept.trans (h : ControlsKept s t) (k : ControlsKept t u) : ControlsKept s u :=
  ⟨k.geometry.trans h.geometry, k.backlight.trans h.backlight, k.cursorVisible.trans h.cursorVisible,
    k.cursorBlink.trans h.cursorBlink, fun hd => h.dirty (k.dirty hd), k.cfg.trans h.cfg⟩

theorem ControlsKept.andThen {f : State → Run} (h : ControlsKept s r.state)
    (hf : ∀ u, ControlsKept u (f u).state) : ControlsKept s (r.andThen f).state :=
  Run.andThen_rel (R := ControlsKept) (fun _ _ _ => ControlsKept.trans) h fun u _ => hf u

theorem ByteFrame.controlsKept (k : ByteFrame s t) : ControlsKept s t := by
  unfold ByteFrame at k
  rw [k]
  exact ⟨rfl, rfl, rfl, rfl, id, rfl⟩

theorem PositionFrame.controlsKept (k : PositionFrame s t) : ControlsKept s t :=
  k.line.byte.controlsKept

theorem ControlsKept.left (h : ControlsKept s r.state) : ControlsKept s (r.left i) := by
  rw [Run.left_cases]
  exact ⟨h.geometry, h.backlight, h.cursorVisible, h.cursorBlink, h.dirty, h.cfg⟩

theorem dirtyClear_controlsKept (s : State) : ControlsKept s (dirtyClear s).state := by
  unfold dirtyClear
  split_ifs
  · exact (clearDisplay_frame s).controlsKept.andThen fun _ => ⟨rfl, rfl, rfl, rfl, by simp, rfl⟩
  · exact ⟨rfl, rfl, rfl, rfl, id, rfl⟩

theorem writeLoop_controlsKept (n : Nat) (s : State) : ControlsKept s (writeLoop n s).state := by
  induction n generalizing s with
  | zero => exact ⟨rfl, rfl, rfl, rfl, id, rfl⟩
  | succ n ih =>
    unfold writeLoop
    split
    · exact ⟨rfl, rfl, rfl, rfl, id, rfl⟩
    · exact (writeByte_frame _ s).controlsKept.andThen fun u =>
        ControlsKept.trans (t := u.advanceIndex) ⟨rfl, rfl, rfl, rfl, id, rfl⟩ (ih _)

theorem writeBuffer_controlsKept (buf : List Byte) (s : State) :
    ControlsKept s (writeBuffer buf s).state := by
  have hprologue : ControlsKept s (writePrologue s).state :=
    (dirtyClear_controlsKept s).andThen fun u => (pendingNewline_frame u).byte.controlsKept
  exact hprologue.andThen fun u =>
    ControlsKept.trans (t := u.beginLoop buf) ⟨rfl, rfl, rfl, rfl, id, rfl⟩ (writeLoop_controlsKept _ _)

theorem flushOp_byteFrame (s : State) : ByteFrame s (flushOp s).state := by
  refine ByteFrame.andThen (pendingNewline_frame s).byte fun u => ?_
  split_ifs
  · exact ByteFrame.trans (b := u.parserIdle) rfl (escReplay_frame u).line.byte
  · rfl

theorem setGeometryOp_controlsKept (g : Geometry) (s : State) :
    ControlsKept (s.withGeometry g) (setGeometryOp g s).state :=
  (clearDisplay_frame _).controlsKept.andThen fun _ => ⟨rfl, rfl, rfl, rfl, by simp, rfl⟩

/-- A part of a host operation writes nothing but what one byte of a `write` may write. -/
theorem instrRun_part_frame (h : instrRun s i = some r) (hp : i.port ≠ .host) : ByteFrame s r.state := by
  cases i <;> simp only [Instr.port, ne_eq, not_true_eq_false] at hp <;>
    simp only [instrRun, Option.some.injEq] at h <;> subst h
  case cr => exact (carriageReturn_frame s).line.byte
  case lf => exact (lineFeed_frame s).byte
  case tab => exact (tabOp_frame s).line.byte
  case char ch => exact (writeChar_frame ch s).line.byte
  case esc | escLbracket | escIgnore | escDigit | escSemi | escNoop => rfl
  case escFinal b =>
    exact ByteFrame.trans (b := s.parserIdle) rfl (escFinalOp_frame b s).line.byte
  case ed2 => exact (eraseDisplay_frame s).line.byte
  case cup row col => exact (setCursor_frame row col s).line.byte
  case clear => exact (clearDisplay_frame s).line.byte
  case home => exact (returnHome_frame s).line.byte
  case latch | backlightCtl | entryInc | displayCtrl | fset8BitHno | fset4BitHno | fset4Bit2Line
      | setDdram | data =>
    exact (emitAll_frame _ s).position.line.byte

/-- The instruction is one that writes a control register: by its own host operation, or by
`initializeDisplay` for the cursor flags (R39). -/
def writesControl : Instr → Bool
  | .initializeDisplay | .setGeometry _ | .setBacklight _ | .setCursorBlink _ | .setCursorDisplay _ => true
  | _ => false

theorem instrRun_controlsKept (h : instrRun s i = some r) (hi : writesControl i = false) :
    ControlsKept s r.state := by
  by_cases hp : i.port = .host
  · cases i <;> simp only [Instr.port, reduceCtorEq] at hp <;>
      simp only [writesControl, Bool.true_eq_false] at hi <;>
      simp only [instrRun, Option.some.injEq, Option.map_eq_some_iff, reduceCtorEq] at h
    case write buf => exact h ▸ writeBuffer_controlsKept buf s
    case print str => obtain ⟨buf, -, rfl⟩ := h; exact writeBuffer_controlsKept buf s
    case flush => exact h ▸ (flushOp_byteFrame s).controlsKept
  · exact (instrRun_part_frame h hp).controlsKept

/-- Settles O54: an instruction that writes no control register keeps them all; each of the five that write
one keeps all from the state in which it has written its own. -/
theorem controlRegistersHaveTheirOwnWriters : Obligations.ControlRegistersHaveTheirOwnWriters := by
  intro s t i h
  obtain ⟨r, hr, rfl⟩ := exec_next.1 h
  cases hi : writesControl i
  case false =>
    have k := (instrRun_controlsKept hr hi).left (i := i)
    exact ⟨(absurd k.geometry ·), (absurd k.backlight ·), (absurd k.cursorVisible ·),
      (absurd k.cursorBlink ·), fun hs ht => absurd (k.dirty ht) (by simp [hs]), k.cfg⟩
  case true =>
    cases i <;> simp only [writesControl, Bool.false_eq_true] at hi <;>
      simp only [instrRun, Option.some.injEq, Option.map_eq_some_iff] at hr
    case initializeDisplay =>
      subst hr
      have k := (initializeOp_frame s).controlsKept.left (i := .initializeDisplay)
      exact ⟨(absurd k.geometry ·), (absurd k.backlight ·), fun _ => .inl rfl, fun _ => .inl rfl,
        fun _ ht => absurd (k.dirty ht) (by simp), k.cfg⟩
    case setGeometry op =>
      obtain ⟨g, -, rfl⟩ := hr
      have k := (setGeometryOp_controlsKept g s).left (i := .setGeometry op)
      exact ⟨fun _ => ⟨op, rfl⟩, (absurd k.backlight ·), (absurd k.cursorVisible ·),
        (absurd k.cursorBlink ·), fun _ _ => ⟨op, rfl⟩, k.cfg⟩
    case setBacklight b =>
      obtain ⟨v, -, rfl⟩ := hr
      have k := (setBacklightOp_frame v s).position.controlsKept.left (i := .setBacklight b)
      exact ⟨(absurd k.geometry ·), fun _ => ⟨b, rfl⟩, (absurd k.cursorVisible ·),
        (absurd k.cursorBlink ·), fun hs ht => absurd (k.dirty ht) (by simp [hs]), k.cfg⟩
    case setCursorBlink b =>
      obtain ⟨v, -, rfl⟩ := hr
      have k := (setCursorBlinkOp_frame v s).position.controlsKept.left (i := .setCursorBlink b)
      exact ⟨(absurd k.geometry ·), (absurd k.backlight ·), (absurd k.cursorVisible ·),
        fun _ => .inr ⟨b, rfl⟩, fun hs ht => absurd (k.dirty ht) (by simp [hs]), k.cfg⟩
    case setCursorDisplay b =>
      obtain ⟨v, -, rfl⟩ := hr
      have k := (setCursorDisplayOp_frame v s).position.controlsKept.left (i := .setCursorDisplay b)
      exact ⟨(absurd k.geometry ·), (absurd k.backlight ·), fun _ => .inr ⟨b, rfl⟩,
        (absurd k.cursorBlink ·), fun hs ht => absurd (k.dirty ht) (by simp [hs]), k.cfg⟩

end Sys2Proof.Machine
end

section
/-! What reaches memory (spec/20_memory.md): the addresses of the built-in geometries (R61) and the order of
the trace (R67). -/

namespace Sys2Proof.Machine

open Sys2Proof

/-! ### Addresses -/

/-- A row on a geometry's list starts at the address listed (spec/41_addressing.md R152). -/
theorem startAddr_of_listed {g : Geometry} {r a : Nat} (listed : g.startAddrs[r]? = some a) :
    startAddr g r = a := by
  simp [startAddr, listed]

/-- Settles O28: each row of a built-in geometry is on its list, with the address R61 gives. -/
theorem builtInGeometryAddresses : Obligations.BuiltInGeometryAddresses := by
  refine ⟨fun r hr c _ => ?g20x4, fun r hr c _ => ?g20x2, fun r hr c _ => ?g16x2, fun c _ => ?g8x1⟩
  case g20x4 => exact congrArg (· + c) (startAddr_of_listed (by interval_cases r <;> rfl))
  case g20x2 => exact congrArg (· + c) (startAddr_of_listed (by interval_cases r <;> rfl))
  case g16x2 => exact congrArg (· + c) (startAddr_of_listed (by interval_cases r <;> rfl))
  case g8x1 => rw [startAddr_of_listed (g := g8x1) rfl, Nat.zero_add]

/-! ### The trace -/

/-- Settles O55: the instruction's run extends the wire by some events (`instrRun_wire`), and what the
instruction leaves keeps the wire of its run. -/
theorem traceOnlyGrows : Obligations.TraceOnlyGrows := by
  intro s t i next
  obtain ⟨r, run, rfl⟩ := exec_next.1 next
  obtain ⟨es, wire⟩ := instrRun_wire run
  refine ⟨es, ?_⟩
  rw [Run.left_wire, wire]
  exact ⟨rfl, rfl, rfl, rfl⟩

end Sys2Proof.Machine
end

section
/-! Decode and encode agree for every instruction (spec/30_encoding.md R81 to R85, R90 to R94, R100 to R102),
and every input byte has a class in every parser state (R81 to R83, R87). -/

namespace Sys2Proof

open Machine

variable {ctx : Context} {b : Byte}

/-! ### The round trip -/

/-- The round trip of each instruction, by its constructor. -/
theorem roundTrip : ∀ i : Instr, Laws.RoundTrip.Statement i
  | .cr => Laws.RoundTrip.cr
  | .lf => Laws.RoundTrip.lf
  | .esc => Laws.RoundTrip.esc
  | .tab => Laws.RoundTrip.tab
  | .char ch => Laws.RoundTrip.char ch
  | .escLbracket => Laws.RoundTrip.escLbracket
  | .escIgnore b => Laws.RoundTrip.escIgnore b
  | .escDigit d => Laws.RoundTrip.escDigit d
  | .escSemi => Laws.RoundTrip.escSemi
  | .escFinal b => Laws.RoundTrip.escFinal b
  | .ed2 => Laws.RoundTrip.ed2
  | .cup row col => Laws.RoundTrip.cup row col
  | .escNoop bytes => Laws.RoundTrip.escNoop bytes
  | .latch d bl en rs => Laws.RoundTrip.latch d bl en rs
  | .backlightCtl b => Laws.RoundTrip.backlightCtl b
  | .clear => Laws.RoundTrip.clear
  | .home => Laws.RoundTrip.home
  | .entryInc => Laws.RoundTrip.entryInc
  | .displayCtrl c b => Laws.RoundTrip.displayCtrl c b
  | .fset8BitHno w => Laws.RoundTrip.fset8BitHno w
  | .fset4BitHno => Laws.RoundTrip.fset4BitHno
  | .fset4Bit2Line => Laws.RoundTrip.fset4Bit2Line
  | .setDdram a => Laws.RoundTrip.setDdram a
  | .data v => Laws.RoundTrip.data v
  | .initializeDisplay => Laws.RoundTrip.initializeDisplay
  | .write buf => Laws.RoundTrip.write buf
  | .print str => Laws.RoundTrip.print str
  | .setGeometry g => Laws.RoundTrip.setGeometry g
  | .setBacklight b => Laws.RoundTrip.setBacklight b
  | .setCursorBlink b => Laws.RoundTrip.setCursorBlink b
  | .setCursorDisplay b => Laws.RoundTrip.setCursorDisplay b
  | .flush => Laws.RoundTrip.flush
  | .hostReserved k => Laws.RoundTrip.hostReserved k

/-- Settles O4, by the round trip of the instruction's constructor. -/
theorem decodeOfEncodeIsTheInstruction : Obligations.DecodeOfEncodeIsTheInstruction :=
  fun ctx p i fits wf => roundTrip i ctx p fits wf

/-- Settles O6: the words are the encodings of the instructions, so each clause is an evaluation of the
decoder. -/
theorem sampleWordsDecode : Obligations.SampleWordsDecode :=
  ⟨rfl, rfl, rfl, rfl, rfl, rfl, rfl, rfl, rfl, rfl, rfl, rfl⟩

/-! ### Input bytes -/

/-- At the stream port the decoder gives a byte its class in the parser's state. -/
theorem decode_stream_byte (hport : ctx.port = .stream) :
    decode ctx [b.toNat] = .instr (decodeStream ctx.parser b) := by
  simp [decode, hport, decodeOneByte]

theorem digitByte_toNat (d : Fin 10) : (digitByte d).toNat = 0x30 + d.val := by
  simp [digitByte]; omega

theorem eq_digitByte {d : Fin 10} (h : b.toNat = 0x30 + d.val) : b = digitByte d :=
  BitVec.eq_of_toNat_eq (h.trans (digitByte_toNat d).symm)

/-! The three classes of ReadingParam (R83). -/

theorem decodeStream_digitByte (d : Fin 10) :
    decodeStream (some .readingParam) (digitByte d) = .escDigit d := by
  have hd := digitByte_toNat d
  rw [decodeStream, dif_pos (by omega)]
  simp [hd]

theorem decodeStream_semi : decodeStream (some .readingParam) chSemi = .escSemi := rfl

theorem decodeStream_final (hdigit : isDigit b = false) (hsemi : b ≠ chSemi) :
    decodeStream (some .readingParam) b = .escFinal b := by
  rw [decodeStream, dif_neg (fun h => by simp [isDigit_iff.2 h] at hdigit), if_neg hsemi]

/-- Every byte of ReadingParam is a digit, the semicolon or a FINAL byte. -/
theorem readingParam_cases (b : Byte) :
    (∃ d, b = digitByte d) ∨ b = chSemi ∨ (isDigit b = false ∧ b ≠ chSemi) := by
  cases hdigit : isDigit b with
  | true =>
    obtain ⟨hlo, hhi⟩ := isDigit_iff.1 hdigit
    exact .inl ⟨⟨b.toNat - 0x30, by omega⟩, eq_digitByte (by simp; omega)⟩
  | false =>
    by_cases hsemi : b = chSemi
    · exact .inr (.inl hsemi)
    · exact .inr (.inr ⟨rfl, hsemi⟩)

/-- A byte's class is well-formed, stands for it in its parser state, and has that byte as its encoding. -/
theorem decodeStream_sound (ctx : Context) (p : Params) (b : Byte) (hport : ctx.port = .stream) :
    (decodeStream ctx.parser b).wf p = true ∧ ctx.fits (decodeStream ctx.parser b) = true
      ∧ encode ctx.map (decodeStream ctx.parser b) = [b.toNat] := by
  match hst : ctx.parser with
  | none =>
    unfold decodeStream
    dsimp only
    split_ifs <;> simp_all [Instr.wf, Context.fits, encode, wordsOf]
  | some .awaitingBracket =>
    unfold decodeStream
    dsimp only
    split_ifs <;> simp_all [Instr.wf, Context.fits, encode, wordsOf]
  | some .readingParam =>
    rcases readingParam_cases b with ⟨d, rfl⟩ | rfl | ⟨hdigit, hsemi⟩
    · rw [decodeStream_digitByte]
      exact ⟨rfl, by simp [Context.fits, hport, hst], rfl⟩
    · rw [decodeStream_semi]
      exact ⟨rfl, by simp [Context.fits, hport, hst], rfl⟩
    · rw [decodeStream_final hdigit hsemi]
      exact ⟨by simp [Instr.wf, hdigit, hsemi], by simp [Context.fits, hport, hst], rfl⟩

/-- Settles O5: the decoder gives a byte its class in the parser's state; the tables of R81 and R82 are the
class function's own, a byte of R83 has one of three forms, and every class is sound. -/
theorem everyInputByteHasAClassInEveryParserState :
    Obligations.EveryInputByteHasAClassInEveryParserState := by
  intro ctx p b hport
  rw [decode_stream_byte hport]
  refine ⟨fun hst => by rw [hst]; rfl, fun hst => by rw [hst]; rfl, fun hst => ?readingParam,
    _, rfl, decodeStream_sound ctx p b hport⟩
  rw [hst]
  refine ⟨fun d hd => ?digit, fun hb => ?semi, fun hrange hsemi => ?final⟩
  case digit => rw [eq_digitByte hd, decodeStream_digitByte]
  case semi => rw [hb]; rfl
  case final =>
    have hdigit : isDigit b = false := Bool.eq_false_iff.2 fun h => by
      have := isDigit_iff.1 h
      omega
    rw [decodeStream_final hdigit hsemi]

end Sys2Proof
end

section
/-! The Geometry operands of the host port (spec/30_encoding.md R101, R102, spec/41_addressing.md R150 to
R153): what they name, which are refused, and the addresses of a well-formed geometry's cells. -/

namespace Sys2Proof.Machine

open Sys2Proof

variable {s : State} {p : Params} {g : Geometry} {b : Byte} {k r c : Nat}

/-! ### Operands that name a Geometry -/

/-- The implementation's entries stand after the four built-in ones (R150, log 7). -/
theorem geometryTable_extra (p : Params) (k : Nat) :
    (geometryTable p)[k + 4]? = p.extraGeometries[k]? := rfl

theorem resolveGeometry_entry (listed : (geometryTable p)[k]? = some g) (wf : geometryWf g = true) :
    resolveGeometry p (.entry k) = some g := by
  simp [resolveGeometry, listed, wf]

theorem resolveGeometry_record (wf : geometryWf g = true) : resolveGeometry p (.record g) = some g :=
  if_pos wf

/-- Settles O46: the built-in entries are on the table and well-formed, and so is the entry or the record
given. -/
theorem geometryOperandsResolve : Obligations.GeometryOperandsResolve := fun _ =>
  ⟨resolveGeometry_entry rfl rfl, resolveGeometry_entry rfl rfl, resolveGeometry_entry rfl rfl,
    resolveGeometry_entry rfl rfl,
    fun k _ listed wf => resolveGeometry_entry ((geometryTable_extra _ k).trans listed) wf,
    fun _ wf => resolveGeometry_record wf⟩

/-! ### Operands and selectors that are refused -/

theorem resolveGeometry_entry_outside (outside : (geometryTable p)[k]? = none) :
    resolveGeometry p (.entry k) = none := by
  simp [resolveGeometry, outside]

theorem resolveGeometry_entry_illFormed (listed : (geometryTable p)[k]? = some g)
    (illFormed : geometryWf g = false) : resolveGeometry p (.entry k) = none := by
  simp [resolveGeometry, listed, illFormed]

theorem resolveGeometry_record_illFormed (illFormed : geometryWf g = false) :
    resolveGeometry p (.record g) = none := by
  simp [resolveGeometry, illFormed]

theorem exec_setGeometry_refused {op : GeometryOperand} (h : resolveGeometry s.cfg op = none) :
    exec (.setGeometry op) s = .refused .illFormedGeometry := by
  simp only [exec, execSetGeometry, h]

theorem bitOperand_eq_none (h : 2 ≤ b.toNat) : bitOperand b = none := by
  have h0 : b ≠ 0 := by rintro rfl; simp at h
  have h1 : b ≠ 1 := by rintro rfl; simp at h
  rw [bitOperand, if_neg h0, if_neg h1]

/-- A selector of R102 decodes to HOST_RESERVED whatever follows it. -/
theorem decodeHost_reserved {n : Nat} (hlo : 8 ≤ n) (hhi : n ≤ 15) (ws : List Nat) :
    decodeHost (n :: ws) = .instr (.hostReserved (BitVec.ofNat 3 (n - 8))) := by
  obtain ⟨k, rfl⟩ := Nat.exists_eq_add_of_le' hlo
  exact if_pos (by omega)

/-- Settles O7: a reserved selector decodes to HOST_RESERVED, which is refused; an operand that resolves to
no Geometry, or is no bit, leaves its operation nothing to run. -/
theorem reservedSelectorsAndOperandsAreRefused : Obligations.ReservedSelectorsAndOperandsAreRefused := by
  refine ⟨fun s k => rfl, fun s n ws rest hlo hhi notHung idle first => ?selector,
    fun s g h => exec_setGeometry_refused (resolveGeometry_record_illFormed h),
    fun s k h => exec_setGeometry_refused (resolveGeometry_entry_outside ?outside),
    fun s k g listed h => exec_setGeometry_refused (resolveGeometry_entry_illFormed listed h),
    fun s b h => ?bit⟩
  case selector =>
    rw [step_of_request notHung idle first]
    exact runWords_of_decode_instr (i := .hostReserved _) (decodeHost_reserved hlo hhi ws)
  case outside =>
    rw [List.getElem?_eq_none_iff, geometryTable, List.length_append]
    simpa using h
  case bit =>
    simp only [exec, execSetBacklight, execSetCursorBlink, execSetCursorDisplay, bitOperand_eq_none h,
      and_self]

/-! ### Addresses -/

/-- On a well-formed geometry a row has a start address on the list, and the row's last cell is within the
7-bit range (R151 (c), (d)). -/
theorem geometryWf_row (wf : geometryWf g = true) (hr : r < g.rows) :
    ∃ a, g.startAddrs[r]? = some a ∧ a + g.cols - 1 ≤ 0x7F := by
  simp only [geometryWf, Bool.and_eq_true, decide_eq_true_eq, List.all_eq_true] at wf
  obtain ⟨⟨-, hlength⟩, hbound⟩ := wf
  have hlt : r < g.startAddrs.length := by omega
  refine ⟨g.startAddrs[r], List.getElem?_eq_getElem hlt, hbound _ ?_⟩
  exact List.mem_take_iff_getElem.2 ⟨r, by omega, rfl⟩

/-- The set-address code is 0x80 plus the address it carries (R93). -/
theorem codeSetDdram_toNat (a : BitVec 7) : (codeSetDdram a).toNat = 0x80 + a.toNat := by
  have h : a.toNat < 2 ^ 7 := a.isLt
  rw [codeSetDdram, BitVec.toNat_or, BitVec.toNat_setWidth, Nat.mod_eq_of_lt (by omega)]
  exact (Nat.two_pow_add_eq_or_of_lt h 1).symm

/-- Settles O27: the row's start address is listed and its last cell is within range, so the cell's address
fits the field of the code. -/
theorem cellAddressesFitTheSetAddressField : Obligations.CellAddressesFitTheSetAddressField := by
  intro s r c wf hr hc
  obtain ⟨a, listed, hlast⟩ := geometryWf_row wf hr
  have haddr : s.addr r c = a + c := by rw [State.addr, startAddr_of_listed listed]
  have hfits : s.addr r c ≤ 0x7F := by omega
  refine ⟨⟨a, listed, haddr⟩, hfits, ?_⟩
  rw [State.addrCode, codeSetDdram_toNat, BitVec.toNat_ofNat, Nat.mod_eq_of_lt (by omega)]

end Sys2Proof.Machine
end

section
/-! Writing a finished escape sequence runs its instruction (spec/30_encoding.md R84, R85,
spec/42_escape_parser.md R180 to R194). The decoder's scan and the session's parser run side by side over
buffers that agree but for the replay record and for parameters past the second; on such buffers a FINAL
byte selects the same command. This part is about the buffers, the next about the session. -/

namespace Sys2Proof.Machine

open Sys2Proof

variable {p q : Params} {e f : EscBuffer}

/-! ### Buffers that select the same command -/

/-- The buffers agree, as R194 has it, but for the replay record, which no command looks at. -/
def EscBuffer.SameCommand (p q : Params) (e f : EscBuffer) : Prop :=
  e.SameUpToParams p q { f with replay := e.replay }

/-- The parameters of buffers that agree: the same so far, or of no consequence any more. -/
theorem EscBuffer.SameCommand.params_cases (h : e.SameCommand p q f) :
    (e.error = f.error ∧ e.paramCount = f.paramCount ∧ e.paramCount ≤ 2
        ∧ e.params.length = p.maxParams ∧ f.params.length = q.maxParams
        ∧ e.params.take 2 = f.params.take 2)
      ∨ ((e.error = true ∨ 2 < e.paramCount) ∧ (f.error = true ∨ 2 < f.paramCount)) := h.params_eq

/-- Agreement does not look at the replay records. -/
theorem EscBuffer.SameCommand.withReplay (h : e.SameCommand p q f) (r r' : List Byte) :
    EscBuffer.SameCommand p q { e with replay := r } { f with replay := r' } :=
  ⟨h.state_eq, h.raw_eq, rfl, h.params_eq⟩

theorem EscBuffer.SameCommand.replayAppend (h : e.SameCommand p q f) (b : Byte) :
    (replayAppend p.replayCap b e).SameCommand p q (replayAppend q.replayCap b f) := by
  obtain ⟨r, hr⟩ := replayAppend_eq p.replayCap b e
  obtain ⟨r', hr'⟩ := replayAppend_eq q.replayCap b f
  rw [hr, hr']
  exact h.withReplay r r'

theorem escFresh_sameCommand (hp : 2 ≤ p.maxParams) (hq : 2 ≤ q.maxParams) :
    (escFresh p.maxParams).SameCommand p q (escFresh q.maxParams) := by
  refine ⟨rfl, rfl, rfl, .inl ⟨rfl, rfl, Nat.zero_le _, by simp [escFresh], by simp [escFresh], ?_⟩⟩
  simp [escFresh, hp, hq]

theorem EscBuffer.SameCommand.bracketStep (h : e.SameCommand p q f) :
    (bracketStep p e).SameCommand p q (bracketStep q f) := by
  refine EscBuffer.SameCommand.replayAppend (e := { e with state := .readingParam })
    (f := { f with state := .readingParam }) ?_ chLbracket
  exact ⟨rfl, h.raw_eq, rfl, h.params_eq⟩

theorem EscBuffer.SameCommand.withError (h : e.SameCommand p q f) :
    EscBuffer.SameCommand p q { e with error := true } { f with error := true } :=
  ⟨h.state_eq, h.raw_eq, rfl, .inr ⟨.inl rfl, .inl rfl⟩⟩

theorem EscBuffer.SameCommand.withRaw (h : e.SameCommand p q f) (t : List Byte) :
    EscBuffer.SameCommand p q { e with raw := t } { f with raw := t } :=
  ⟨h.state_eq, rfl, rfl, h.params_eq⟩

theorem EscBuffer.SameCommand.digitStep (h : e.SameCommand p q f) (b : Byte) :
    (digitStep p b e).SameCommand p q (digitStep q b f) := by
  have hr := h.replayAppend b
  have hraw : (Machine.replayAppend p.replayCap b e).raw = (Machine.replayAppend q.replayCap b f).raw :=
    hr.raw_eq
  unfold Machine.digitStep
  dsimp only
  by_cases room : (Machine.replayAppend q.replayCap b f).raw.length < Config.rawCap
  · rw [if_pos room, if_pos (hraw ▸ room), hraw]
    exact hr.withRaw _
  · rw [if_neg room, if_neg (hraw ▸ room)]
    exact hr.withError

@[simp] theorem finalizeParam_raw (n : Nat) (e : EscBuffer) : (finalizeParam n e).raw = [] := by
  unfold finalizeParam
  split
  · rfl
  · split_ifs <;> rfl

@[simp] theorem finalizeParam_state (n : Nat) (e : EscBuffer) : (finalizeParam n e).state = e.state := by
  unfold finalizeParam
  split
  · rfl
  · split_ifs <;> rfl

/-- A buffer with an error or with two parameters can select no command once one more is finalized. -/
theorem finalizeParam_noCommand (n : Nat) (h : e.error = true ∨ 2 ≤ e.paramCount) :
    (finalizeParam n e).error = true ∨ 2 < (finalizeParam n e).paramCount := by
  unfold finalizeParam
  split
  · exact .inl rfl
  · split_ifs
    · exact h.imp id Nat.lt_succ_of_le
    · exact .inl rfl

/-- Of two buffers that agree, both have room for a parameter in every block, or neither can select a
command once one more is finalized. -/
theorem EscBuffer.SameCommand.room_or_full (h : e.SameCommand p q f) :
    (e.paramCount < 2 ∧ f.paramCount < 2)
      ∨ ((e.error = true ∨ 2 ≤ e.paramCount) ∧ (f.error = true ∨ 2 ≤ f.paramCount)) := by
  rcases h.params_cases with ⟨-, hcount, -⟩ | ⟨hspent, hspent'⟩
  · rcases Nat.lt_or_ge e.paramCount 2 with hlt | hge
    · exact .inl ⟨hlt, hcount ▸ hlt⟩
    · exact .inr ⟨.inr hge, .inr (hcount ▸ hge)⟩
  · exact .inr ⟨hspent.imp id Nat.le_of_lt, hspent'.imp id Nat.le_of_lt⟩

theorem EscBuffer.SameCommand.storeParam (h : e.SameCommand p q f) (v : Nat) (room : e.paramCount < 2) :
    EscBuffer.SameCommand p q
      { e with params := e.params.set e.paramCount v, paramCount := e.paramCount + 1 }
      { f with params := f.params.set f.paramCount v, paramCount := f.paramCount + 1 } := by
  refine ⟨h.state_eq, h.raw_eq, rfl, ?_⟩
  rcases h.params_cases with ⟨herr, hcount, -, hlen, hlen', htake⟩ | ⟨hspent, hspent'⟩
  · refine .inl ⟨herr, congrArg (· + 1) hcount, room, ?_, ?_, ?_⟩
    · simpa using hlen
    · simpa using hlen'
    · simpa [List.take_set, hcount] using congrArg (·.set f.paramCount v) htake
  · exact .inr ⟨hspent.imp id Nat.lt_succ_of_lt, hspent'.imp id Nat.lt_succ_of_lt⟩

theorem EscBuffer.SameCommand.finalizeParam (h : e.SameCommand p q f) (hp : 2 ≤ p.maxParams)
    (hq : 2 ≤ q.maxParams) :
    (finalizeParam p.maxParams e).SameCommand p q (finalizeParam q.maxParams f) := by
  rcases h.room_or_full with ⟨room, room'⟩ | ⟨full, full'⟩
  · have hraw : e.raw = f.raw := h.raw_eq
    unfold Machine.finalizeParam
    rw [hraw]
    cases parseParam f.raw with
    | none => exact (h.withRaw []).withError
    | some v =>
      dsimp only
      rw [if_pos (by omega), if_pos (by omega)]
      exact (h.storeParam v room).withRaw []
  · exact ⟨by simpa using h.state_eq, by simp, rfl,
      .inr ⟨finalizeParam_noCommand _ full, finalizeParam_noCommand _ full'⟩⟩

theorem EscBuffer.SameCommand.semiStep (h : e.SameCommand p q f) (hp : 2 ≤ p.maxParams)
    (hq : 2 ≤ q.maxParams) : (semiStep p e).SameCommand p q (semiStep q f) :=
  (h.replayAppend chSemi).finalizeParam hp hq

theorem EscBuffer.SameCommand.finalBuffer (h : e.SameCommand p q f) (hp : 2 ≤ p.maxParams)
    (hq : 2 ≤ q.maxParams) :
    (finalBuffer p.maxParams e).SameCommand p q (finalBuffer q.maxParams f) := by
  have hraw : e.raw = f.raw := h.raw_eq
  unfold Machine.finalBuffer
  by_cases hnil : f.raw = []
  · rwa [if_pos hnil, if_pos (hraw.trans hnil)]
  · rw [if_neg hnil, if_neg (hraw ▸ hnil)]
    exact h.finalizeParam hp hq

theorem commandOf_noop (b : Byte) (h : e.error = true ∨ 2 < e.paramCount) : commandOf e b = .noop := by
  unfold commandOf
  rcases h with herr | hcount
  · rw [if_pos herr]
  · rw [if_neg (fun h => by omega : ¬(b = chJ ∧ e.paramCount = 1 ∧ _)),
      if_neg (fun h => by omega : ¬(b = chH ∧ e.paramCount = 2)), ite_self]

/-- A FINAL byte selects the same command on both (R187 to R190). -/
theorem EscBuffer.SameCommand.commandOf_eq (h : e.SameCommand p q f) (b : Byte) :
    commandOf e b = commandOf f b := by
  rcases h.params_cases with ⟨herr, hcount, -, -, -, htake⟩ | ⟨hspent, hspent'⟩
  · have hget : ∀ k < 2, e.params.getD k 0 = f.params.getD k 0 := fun k hk => by
      have := congrArg (·[k]?) htake
      simp only [List.getElem?_take, if_pos hk] at this
      rw [List.getD_eq_getElem?_getD, List.getD_eq_getElem?_getD, this]
    simp only [commandOf, herr, hcount, hget 0 (by omega), hget 1 (by omega)]
  · rw [commandOf_noop b hspent, commandOf_noop b hspent']

end Sys2Proof.Machine
end

section
/-! The session's parser follows the decoder's scan, so writing a finished sequence does what the
instruction it decodes to does (spec/30_encoding.md R84, R85, spec/42_escape_parser.md R180 to R190). -/

namespace Sys2Proof.Machine

open Sys2Proof

variable {e f : EscBuffer} {s : State} {b : Byte}

/-! ### The session in the middle of a sequence -/

/-- The session with a sequence open and the given escape buffer. -/
def State.inSequence (s : State) (e : EscBuffer) : State := { s with inEscape := true, esc := e }

@[simp] theorem State.inSequence_inEscape (s : State) (e : EscBuffer) :
    (s.inSequence e).inEscape = true := rfl
@[simp] theorem State.inSequence_esc (s : State) (e : EscBuffer) : (s.inSequence e).esc = e := rfl
@[simp] theorem State.inSequence_newlinePending (s : State) (e : EscBuffer) :
    (s.inSequence e).newlinePending = s.newlinePending := rfl
@[simp] theorem State.inSequence_parserIdle (s : State) (e : EscBuffer) :
    (s.inSequence e).parserIdle = s.parserIdle := rfl

/-- An idle session is what resetting its parser leaves. -/
theorem State.parserIdle_of_idle (idle : s.inEscape = false) (fresh : s.esc = escFresh s.cfg.maxParams) :
    s.parserIdle = s := by
  unfold State.parserIdle State.escReset
  rw [← idle, ← fresh]

theorem writeByte_of_no_newline (hn : s.newlinePending = false) (b : Byte) :
    writeByte b s = if s.inEscape then escFeed b s else dispatchByte b s := by
  simp [writeByte, pendingNewline, hn]

/-- ESC opens a sequence (R180). -/
theorem writeByte_esc (hn : s.newlinePending = false) (idle : s.inEscape = false) :
    writeByte chEsc s = .done (s.inSequence
      (replayAppend s.cfg.replayCap chEsc (escFresh s.cfg.maxParams))) := by
  rw [writeByte_of_no_newline hn, idle]
  rfl

theorem writeByte_inSequence (hn : s.newlinePending = false) (b : Byte) (e : EscBuffer) :
    writeByte b (s.inSequence e) = escFeed b (s.inSequence e) := by
  rw [writeByte_of_no_newline (by simpa using hn), State.inSequence_inEscape, if_pos rfl]

/-! The parser's answers by its state and the class of the byte (R182 to R187). -/

theorem escFeed_bracket (hst : e.state = .awaitingBracket) :
    escFeed chLbracket (s.inSequence e) = .done (s.inSequence (bracketStep s.cfg e)) := by
  simp only [escFeed, State.inSequence_esc, hst]
  rfl

theorem escFeed_ignore (hst : e.state = .awaitingBracket) (hb : b ≠ chLbracket) :
    escFeed b (s.inSequence e) = .done (s.inSequence e) := by
  simp only [escFeed, State.inSequence_esc, hst, if_neg hb]

theorem escFeed_digit (hst : e.state = .readingParam) (hb : isDigit b = true) :
    escFeed b (s.inSequence e) = .done (s.inSequence (digitStep s.cfg b e)) := by
  simp only [escFeed, State.inSequence_esc, hst, if_pos hb]
  rfl

theorem escFeed_semi (hst : e.state = .readingParam) :
    escFeed chSemi (s.inSequence e) = .done (s.inSequence (semiStep s.cfg e)) := by
  simp only [escFeed, State.inSequence_esc, hst]
  rfl

theorem escFeed_final (hst : e.state = .readingParam) (hdigit : ¬isDigit b = true) (hsemi : b ≠ chSemi) :
    escFeed b (s.inSequence e)
      = runCommand (commandOf (finalBuffer s.cfg.maxParams e) b) s.parserIdle := by
  simp only [escFeed, State.inSequence_esc, hst, if_neg hdigit, if_neg hsemi]
  rfl

/-! Which steps change the sub-state. -/

@[simp] theorem replayAppend_state (cap : Nat) (b : Byte) (e : EscBuffer) :
    (replayAppend cap b e).state = e.state := by
  obtain ⟨r, hr⟩ := replayAppend_eq cap b e
  rw [hr]

@[simp] theorem bracketStep_state (p : Params) (e : EscBuffer) :
    (bracketStep p e).state = .readingParam := by simp [bracketStep]

@[simp] theorem digitStep_state (p : Params) (b : Byte) (e : EscBuffer) :
    (digitStep p b e).state = e.state := by
  unfold digitStep
  dsimp only
  split_ifs <;> simp

@[simp] theorem semiStep_state (p : Params) (e : EscBuffer) : (semiStep p e).state = e.state := by
  simp [semiStep]

/-! ### The scan and the session side by side -/

section Scan

variable {c : Byte} {e' : EscBuffer}

/-- ReadingParam: from buffers that agree, the session runs the command the scan finds. -/
theorem writeBytes_of_scanParams {bs : List Byte} (hn : s.newlinePending = false)
    (hs : 2 ≤ s.cfg.maxParams) (h : e.SameCommand leastParams s.cfg f) (hst : f.state = .readingParam)
    (scan : scanParams e bs = some (e', c)) :
    writeBytes bs (s.inSequence f)
      = runCommand (commandOf (finalBuffer leastParams.maxParams e') c) s.parserIdle := by
  induction bs generalizing e f with
  | nil => cases scan
  | cons b bs ih =>
    rw [writeBytes, writeByte_inSequence hn]
    rw [scanParams] at scan
    split_ifs at scan with hdigit hsemi hlast
    · rw [escFeed_digit hst hdigit, Run.andThen_done]
      exact ih (h.digitStep b) (by simpa using hst) scan
    · subst hsemi
      rw [escFeed_semi hst, Run.andThen_done]
      exact ih (h.semiStep le_rfl hs) (by simpa using hst) scan
    · cases scan
      subst hlast
      rw [escFeed_final hst hdigit hsemi, ← (h.finalBuffer le_rfl hs).commandOf_eq]
      exact Run.andThen_pure _

/-- AwaitingBracket: the bytes before the '[' are ignored by both (R182). -/
theorem writeBytes_of_scanBracket {bs : List Byte} (hn : s.newlinePending = false)
    (hs : 2 ≤ s.cfg.maxParams) (h : e.SameCommand leastParams s.cfg f)
    (hst : f.state = .awaitingBracket) (scan : scanBracket e bs = some (e', c)) :
    writeBytes bs (s.inSequence f)
      = runCommand (commandOf (finalBuffer leastParams.maxParams e') c) s.parserIdle := by
  induction bs with
  | nil => cases scan
  | cons b bs ih =>
    rw [writeBytes, writeByte_inSequence hn]
    rw [scanBracket] at scan
    split_ifs at scan with hb
    · subst hb
      rw [escFeed_bracket hst, Run.andThen_done]
      exact writeBytes_of_scanParams hn hs h.bracketStep (by simp) scan
    · rw [escFeed_ignore hst hb, Run.andThen_done]
      exact ih scan

end Scan

/-- Bytes recognised as a finished sequence run its command, whatever the capacities of the session (R194). -/
theorem writeBytes_of_recognise {bytes : List Byte} {c : Command} (hn : s.newlinePending = false)
    (idle : s.inEscape = false) (hs : 2 ≤ s.cfg.maxParams) (h : recognise bytes = some c) :
    writeBytes bytes s = runCommand c s.parserIdle := by
  cases bytes with
  | nil => cases h
  | cons b bs =>
    rw [recognise] at h
    split_ifs at h with hb
    subst hb
    obtain ⟨⟨e', d⟩, scan, rfl⟩ := Option.map_eq_some_iff.1 h
    obtain ⟨r, hr⟩ := replayAppend_eq s.cfg.replayCap chEsc (escFresh s.cfg.maxParams)
    rw [writeBytes, writeByte_esc hn idle, Run.andThen_done, hr]
    exact writeBytes_of_scanBracket hn hs ((escFresh_sameCommand le_rfl hs).withReplay [] r) rfl scan

/-! ### The instruction a sequence decodes to -/

/-- The instruction of a finished sequence is a part of an operation that runs the sequence's command
(R85). -/
theorem decodeSequence_instr {bytes : List Byte} {i : Instr} (h : decodeSequence bytes = .instr i) :
    ∃ c, recognise bytes = some c ∧ ∀ s, exec i s = .next (runCommand c s).resumed := by
  unfold decodeSequence at h
  split at h <;> cases h
  case h_2 hc => exact ⟨_, hc, fun _ => rfl⟩
  case h_3 hc => exact ⟨_, hc, fun _ => rfl⟩
  case h_4 hc => exact ⟨_, hc, fun _ => rfl⟩

/-- A command that the bus answers ok runs to its end (R188 to R190). -/
theorem runCommand_done (c : Command) (h : s.busReady 12) : ∃ u, runCommand c s = .done u := by
  cases c with
  | ed2 => exact ⟨_, eraseDisplay_done h⟩
  | cup row col => exact ⟨_, setCursor_done row col (h.mono (by omega))⟩
  | noop => exact ⟨s, rfl⟩

theorem writePrologue_of_clean (hd : s.dirty = false) (hn : s.newlinePending = false) :
    writePrologue s = .done s := by
  simp [writePrologue, dirtyClear, pendingNewline, hd, hn]

/-- Settles O36: the bytes run the command the decoder recognises, and so does the instruction; the bus
answers ok, so `write` only adds its return. -/
theorem writingASequenceRunsItsInstruction : Obligations.WritingASequenceRunsItsInstruction := by
  intro s t bytes i hwf idle hn hd _ fresh ready decoded next
  obtain ⟨c, hc, hexec⟩ := decodeSequence_instr decoded
  obtain ⟨hmax, -⟩ := params_wf_iff.1 hwf
  obtain ⟨u, hu⟩ := runCommand_done c ready
  have hbytes : writeBytes bytes s = .done u := by
    rw [writeBytes_of_recognise hn idle hmax hc, State.parserIdle_of_idle idle fresh, hu]
  have ht : t = u := by
    rw [hexec, hu] at next
    exact (Host.Outcome.next.inj next).symm
  have hwrite : exec (.write bytes) s = .next (writeBuffer bytes s).returned := rfl
  rw [hwrite, writeBuffer_returned bytes ready.1, writePrologue_of_clean hd hn, Run.andThen_done, hbytes, ht]
  rfl

end Sys2Proof.Machine
end

section
/-! What an instruction sends is an initial part of whole listed transfers (spec/30_encoding.md R92, R95,
spec/60_exceptions.md R241). -/

namespace Sys2Proof.Machine

open Sys2Proof

variable {s : State} {i : Instr} {r : Run}

/-- The events `emitAll` sent and the rest, by how it ended. -/
theorem emitAll_sent (es : List Event) (s : State) :
    ∃ sent rest, sent ++ rest = es ∧ (emitAll es s).state.wire.trace = s.wire.trace ++ sent
      ∧ (emitAll es s).EndsWith s sent rest := by
  rcases emitAll_cases es s with k | ⟨pre, b, post, rfl, k⟩ | ⟨pre, e, post, rfl, hangs, k⟩ <;> rw [k]
  · exact ⟨es, [], by simp, rfl, rfl, rfl⟩
  · exact ⟨pre ++ [.write b], post, by simp, rfl, ⟨b, by simp⟩, rfl⟩
  · exact ⟨pre ++ [e], post, by simp, rfl, hangs, rfl⟩

/-- Every run but that of a latch byte sends listed transfers, as the session's backlight is before it: the
control byte of `setBacklight` does not look at the backlight. -/
theorem instrRun_transfers (h : instrRun s i = some r) (hl : i.port ≠ .latch) :
    ∃ ts es rest, r.state.wire.trace = s.wire.trace ++ es
      ∧ es ++ rest = transferEvents s.cfg.latchMap s.backlight ts ∧ r.EndsWith s es rest := by
  by_cases hb : ∃ b, i = .setBacklight b
  · obtain ⟨b, rfl⟩ := hb
    simp only [instrRun, Option.map_eq_some_iff] at h
    obtain ⟨v, -, rfl⟩ := h
    obtain ⟨es, rest, hes, htrace, hend⟩ :=
      emitAll_sent [.write (backlightByte s.cfg.latchMap v)] { s with backlight := v }
    exact ⟨[.control v], es, rest, htrace, hes, hend⟩
  · obtain ⟨-, -, ts, es, rest, hes, hwire, hend⟩ := instrRun_sends h hl (by simpa using hb)
    exact ⟨ts, es, rest, by rw [hwire]; rfl, hes, hend⟩

/-- A host operation that returns Ok ran to its end, unless it left the block hung. -/
theorem Run.EndsWith.rest_nil {es rest : List Event} (h : r.EndsWith s es rest)
    (notHung : r.returned.wire.hung = false) (ok : r.returned.result = some .ok) : rest = [] := by
  cases r with
  | done u => exact h.1
  | busError u => cases ok
  | hung u => exact absurd (h.2.symm.trans notHung) (by simp)

/-- Settles O56: the run of the instruction sends listed transfers, and a host operation that returns Ok is a
run that came to its end. -/
theorem onlyListedTransfersReachTheBus : Obligations.OnlyListedTransfersReachTheBus := by
  intro s t i hl next
  obtain ⟨r, hr, rfl⟩ := exec_next.1 next
  obtain ⟨ts, es, rest, htrace, hes, hend⟩ := instrRun_transfers hr hl
  refine ⟨ts, es, rest, by rw [Run.left_wire, htrace], hes, fun hhost notHung ok => ?_⟩
  rw [Run.left, if_pos hhost] at notHung ok
  exact hend.rest_nil notHung ok

end Sys2Proof.Machine
end

section
/-! Every byte on the bus is a latch byte with RW clear and BL as the backlight (spec/30_encoding.md R90,
spec/40_nibble_engine.md R120). -/

namespace Sys2Proof.Machine

open Sys2Proof

variable {s t u : State} {r : Run} {i : Instr} {m : LatchMap} {bl : Bool} {b : Byte} {es : List Event}

/-! ### The bytes of the transfers -/

/-- The byte is a latch byte with BL as given, and so with RW clear (R90). -/
def IsLatchByte (m : LatchMap) (bl : Bool) (b : Byte) : Prop := ∃ n en rs, b = latchByte m n bl en rs

theorem IsLatchByte.bits (h : IsLatchByte m bl b) (distinct : m.distinct = true) :
    b.getLsbD m.rw = false ∧ b.getLsbD m.bl = bl := by
  obtain ⟨n, en, rs, rfl⟩ := h
  obtain ⟨-, hbl, -, hrw, -⟩ := latchByte_fields m n bl en rs distinct
  exact ⟨hrw, hbl⟩

/-- The strobe's byte with EN set is the latch byte with EN set (R121). -/
theorem latchByte_or_enable (m : LatchMap) (n : Nibble) (bl rs : Bool) :
    latchByte m n bl false rs ||| bitMask m.en = latchByte m n bl true rs := by
  simp only [latchByte, maskIf, Bool.false_eq_true, if_false, if_true]
  ac_rfl

/-- A backlight control byte is a latch byte with every other field 0 (R91). -/
theorem backlightByte_isLatchByte (m : LatchMap) (v : Bool) : IsLatchByte m v (backlightByte m v) :=
  ⟨0, false, false, by simp [backlightByte, latchByte, maskIf]⟩

theorem strobe_isLatchByte {n : Nibble} {rs : Bool}
    (h : .write b ∈ strobe (bitMask m.en) (latchByte m n bl false rs)) : IsLatchByte m bl b := by
  simp only [strobe, latchByte_or_enable, List.mem_cons, Event.write.injEq, reduceCtorEq, false_or,
    List.not_mem_nil, or_false] at h
  rcases h with rfl | rfl | rfl
  · exact ⟨n, false, rs, rfl⟩
  · exact ⟨n, true, rs, rfl⟩
  · exact ⟨n, false, rs, rfl⟩

theorem twoNibbles_isLatchByte {rs : Bool} {v : Byte} {d : Nat} (h : .write b ∈ twoNibbles m bl rs v d) :
    IsLatchByte m bl b := by
  simp only [twoNibbles, List.mem_append, List.mem_singleton, reduceCtorEq, or_false] at h
  exact h.elim strobe_isLatchByte strobe_isLatchByte

theorem oneNibble_isLatchByte {v : Byte} {d : Nat} (h : .write b ∈ oneNibble m bl v d) :
    IsLatchByte m bl b := by
  simp only [oneNibble, List.mem_append, List.mem_singleton, reduceCtorEq, or_false] at h
  exact strobe_isLatchByte h

/-- The transfer is strobed nibbles, no control byte. -/
def Transfer.strobed : Transfer → Bool
  | .control _ => false
  | _ => true

theorem Transfer.events_isLatchByte {x : Transfer} (hx : x.strobed = true)
    (h : .write b ∈ x.events m bl) : IsLatchByte m bl b := by
  cases x with
  | control v => cases hx
  | fset8Bit w => cases w <;> exact oneNibble_isLatchByte h
  | fset4Bit => exact oneNibble_isLatchByte h
  | _ => exact twoNibbles_isLatchByte h

/-! ### Runs that write latch bytes only -/

/-- From s to t only latch bytes with BL as the backlight were written, and the backlight is the same. -/
structure Backlit (s t : State) : Prop where
  cfg : t.cfg = s.cfg
  backlight : t.backlight = s.backlight
  trace : ∃ es, t.wire.trace = s.wire.trace ++ es
    ∧ ∀ b, .write b ∈ es → IsLatchByte s.cfg.latchMap s.backlight b

/-- An update that sends nothing. -/
theorem Backlit.quiet (cfg : t.cfg = s.cfg) (backlight : t.backlight = s.backlight)
    (wire : t.wire = s.wire) : Backlit s t :=
  ⟨cfg, backlight, [], by simp [wire], by simp⟩

theorem Backlit.trans (h : Backlit s t) (k : Backlit t u) : Backlit s u := by
  obtain ⟨es, hes, hb⟩ := h.trace
  obtain ⟨fs, hfs, kb⟩ := k.trace
  rw [h.cfg, h.backlight] at kb
  refine ⟨k.cfg.trans h.cfg, k.backlight.trans h.backlight, es ++ fs, by rw [hfs, hes]; simp, ?_⟩
  exact fun b hmem => (List.mem_append.1 hmem).elim (hb b) (kb b)

theorem Backlit.andThen {f : State → Run} (h : Backlit s r.state) (hf : ∀ u, Backlit u (f u).state) :
    Backlit s (r.andThen f).state :=
  Run.andThen_rel (R := Backlit) (fun _ _ _ => Backlit.trans) h fun u _ => hf u

/-- The events `emitAll` adds to the trace are among those it was given. -/
theorem emitAll_trace (es : List Event) (s : State) :
    ∃ sent, (emitAll es s).state.wire.trace = s.wire.trace ++ sent ∧ sent ⊆ es := by
  obtain ⟨sent, rest, rfl, htrace, -⟩ := emitAll_sent es s
  exact ⟨sent, htrace, List.subset_append_left sent rest⟩

theorem emitAll_backlit (h : ∀ b, .write b ∈ es → IsLatchByte s.cfg.latchMap s.backlight b) :
    Backlit s (emitAll es s).state := by
  obtain ⟨sent, htrace, hsub⟩ := emitAll_trace es s
  have hkept := (emitAll_frame es s).position.controlsKept
  exact ⟨hkept.cfg, hkept.backlight, sent, htrace, fun b hb => h b (hsub hb)⟩

theorem emitAll_transfers_backlit (ts : List Transfer)
    (h : es = transferEvents s.cfg.latchMap s.backlight ts) (hts : ∀ x ∈ ts, x.strobed = true) :
    Backlit s (emitAll es s).state := by
  refine emitAll_backlit fun b hb => ?_
  rw [h, transferEvents, List.mem_flatten] at hb
  obtain ⟨_, hmapped, hb⟩ := hb
  obtain ⟨x, hx, rfl⟩ := List.mem_map.1 hmapped
  exact Transfer.events_isLatchByte (hts x hx) hb

theorem emitAll_transfer_backlit (x : Transfer)
    (h : es = transferEvents s.cfg.latchMap s.backlight [x]) (hx : x.strobed = true) :
    Backlit s (emitAll es s).state :=
  emitAll_transfers_backlit [x] h (by simpa using hx)

/-! ### The shared operations -/

theorem moveTo_setAddr_backlit (r c r' c' : Nat) (s : State) :
    Backlit s (setAddr r c (s.moveTo r' c')).state :=
  Backlit.trans (t := s.moveTo r' c') (.quiet rfl rfl rfl)
    (emitAll_transfer_backlit _ (setAddr_events _ r c) rfl)

theorem clearDisplay_backlit (s : State) : Backlit s (clearDisplay s).state :=
  (emitAll_transfer_backlit _ (clear_events s) rfl).andThen fun _ => .quiet rfl rfl rfl

theorem returnHome_backlit (s : State) : Backlit s (returnHome s).state :=
  (emitAll_transfer_backlit _ (home_events s) rfl).andThen fun _ => .quiet rfl rfl rfl

theorem writeChar_backlit (ch : Byte) (s : State) : Backlit s (writeChar ch s).state := by
  refine (emitAll_transfer_backlit _ (data_events s ch) rfl).andThen fun u => ?_
  split_ifs
  · exact moveTo_setAddr_backlit _ _ _ _ u
  · exact .quiet rfl rfl rfl

theorem writeChars_backlit (bs : List Byte) (s : State) : Backlit s (writeChars bs s).state := by
  induction bs generalizing s with
  | nil => exact .quiet rfl rfl rfl
  | cons b bs ih => exact (writeChar_backlit b s).andThen ih

theorem newLineTransfers_strobed (g : Geometry) (r : Nat) :
    ∀ x ∈ newLineTransfers g r, x.strobed = true := by
  intro x hx
  simp only [newLineTransfers, List.mem_append, List.mem_singleton, List.mem_replicate] at hx
  rcases hx with (rfl | ⟨-, rfl⟩) | rfl <;> rfl

theorem newLine_backlit (s : State) : Backlit s (newLine s).state := by
  rw [newLine_eq]
  exact Backlit.trans (t := s.moveTo s.nextRow 0) (.quiet rfl rfl rfl)
    (emitAll_transfers_backlit _ rfl (newLineTransfers_strobed _ _))

theorem lineFeed_backlit (s : State) : Backlit s (lineFeed s).state := by
  unfold lineFeed
  split_ifs
  · exact .quiet rfl rfl rfl
  · exact newLine_backlit s

theorem pendingNewline_backlit (s : State) : Backlit s (pendingNewline s).state := by
  unfold pendingNewline
  split_ifs
  · exact Backlit.trans (t := { s with newlinePending := false }) (.quiet rfl rfl rfl) (newLine_backlit _)
  · exact .quiet rfl rfl rfl

theorem runCommand_backlit (c : Command) (s : State) : Backlit s (runCommand c s).state := by
  cases c with
  | ed2 => exact (clearDisplay_backlit s).andThen returnHome_backlit
  | cup row col => exact moveTo_setAddr_backlit _ _ _ _ s
  | noop => exact .quiet rfl rfl rfl

theorem escFinalOp_backlit (b : Byte) (s : State) : Backlit s (escFinalOp b s).state :=
  Backlit.trans (t := s.parserIdle) (.quiet rfl rfl rfl) (runCommand_backlit _ _)

theorem escFeed_backlit (b : Byte) (s : State) : Backlit s (escFeed b s).state := by
  unfold escFeed
  split
  · split_ifs <;> exact .quiet rfl rfl rfl
  · split_ifs
    · exact .quiet rfl rfl rfl
    · exact .quiet rfl rfl rfl
    · exact escFinalOp_backlit b s

theorem dispatchByte_backlit (b : Byte) (s : State) : Backlit s (dispatchByte b s).state := by
  unfold dispatchByte
  split_ifs
  · exact moveTo_setAddr_backlit _ _ _ _ s
  · exact lineFeed_backlit s
  · exact .quiet rfl rfl rfl
  · exact moveTo_setAddr_backlit _ _ _ _ s
  · exact writeChar_backlit b s

theorem writeByte_backlit (b : Byte) (s : State) : Backlit s (writeByte b s).state := by
  refine (pendingNewline_backlit s).andThen fun u => ?_
  split_ifs
  · exact escFeed_backlit b u
  · exact dispatchByte_backlit b u

theorem dirtyClear_backlit (s : State) : Backlit s (dirtyClear s).state := by
  unfold dirtyClear
  split_ifs
  · exact (clearDisplay_backlit s).andThen fun _ => .quiet rfl rfl rfl
  · exact .quiet rfl rfl rfl

theorem writeLoop_backlit (n : Nat) (s : State) : Backlit s (writeLoop n s).state := by
  induction n generalizing s with
  | zero => exact .quiet rfl rfl rfl
  | succ n ih =>
    unfold writeLoop
    split
    · exact .quiet rfl rfl rfl
    · exact (writeByte_backlit _ s).andThen fun u =>
        Backlit.trans (t := u.advanceIndex) (.quiet rfl rfl rfl) (ih _)

theorem writeBuffer_backlit (buf : List Byte) (s : State) : Backlit s (writeBuffer buf s).state :=
  ((dirtyClear_backlit s).andThen pendingNewline_backlit).andThen fun u =>
    Backlit.trans (t := u.beginLoop buf) (.quiet rfl rfl rfl) (writeLoop_backlit _ _)

theorem initializeOp_backlit (s : State) : Backlit s (initializeOp s).state := by
  rw [initializeOp_eq]
  refine Backlit.trans (t := s.initialized) (.quiet rfl rfl rfl) ?_
  refine Run.andThen_rel (R := Backlit) (fun _ _ _ => Backlit.trans)
    (emitAll_transfers_backlit (initTransfers.take 7) rfl (by decide)) fun u hu => ?_
  cases emitAll_eq_done hu
  exact Backlit.trans (t := (s.initialized.extend _).moveTo 0 0) (.quiet rfl rfl rfl)
    (emitAll_transfer_backlit .entryInc rfl rfl)

theorem sendDisplayCtrl_backlit (s : State) : Backlit s (sendDisplayCtrl s).state :=
  emitAll_transfer_backlit _ (displayCtrl_events s) rfl

theorem flushOp_backlit (s : State) : Backlit s (flushOp s).state := by
  refine (pendingNewline_backlit s).andThen fun u => ?_
  split_ifs
  · exact Backlit.trans (t := u.parserIdle) (.quiet rfl rfl rfl) (writeChars_backlit _ _)
  · exact .quiet rfl rfl rfl

/-! ### Every instruction -/

/-- Every run but those of the two backlight instructions writes latch bytes with BL as the session's
backlight. -/
theorem instrRun_backlit (h : instrRun s i = some r) (hc : ∀ v, i ≠ .backlightCtl v)
    (hb : ∀ v, i ≠ .setBacklight v) : Backlit s r.state := by
  cases i <;> simp only [instrRun, Option.some.injEq, Option.map_eq_some_iff, reduceCtorEq] at h
  case backlightCtl v => exact absurd rfl (hc v)
  case setBacklight v => exact absurd rfl (hb v)
  case cr | tab | cup => exact h ▸ moveTo_setAddr_backlit _ _ _ _ s
  case esc | escLbracket | escIgnore | escDigit | escSemi | escNoop => exact h ▸ .quiet rfl rfl rfl
  case lf => exact h ▸ lineFeed_backlit s
  case char ch => exact h ▸ writeChar_backlit ch s
  case escFinal b => exact h ▸ escFinalOp_backlit b s
  case ed2 => exact h ▸ runCommand_backlit .ed2 s
  case latch d v en rs =>
    exact h ▸ emitAll_backlit fun b hmem => ⟨d, en, rs, Event.write.inj (List.mem_singleton.1 hmem)⟩
  case clear => exact h ▸ clearDisplay_backlit s
  case home => exact h ▸ returnHome_backlit s
  case entryInc => exact h ▸ emitAll_transfer_backlit _ (entryInc_events s) rfl
  case displayCtrl => exact h ▸ sendDisplayCtrl_backlit s
  case fset8BitHno w => exact h ▸ emitAll_transfer_backlit _ (fset8Bit_events s w) rfl
  case fset4BitHno => exact h ▸ emitAll_transfer_backlit _ (fset4Bit_events s) rfl
  case fset4Bit2Line => exact h ▸ emitAll_transfer_backlit _ (fset4Bit2Line_events s) rfl
  case setDdram a => exact h ▸ emitAll_transfer_backlit _ (setDdram_events s a) rfl
  case data v => exact h ▸ emitAll_transfer_backlit _ (data_events s v) rfl
  case initializeDisplay => exact h ▸ initializeOp_backlit s
  case write buf => exact h ▸ writeBuffer_backlit buf s
  case print str => obtain ⟨buf, -, rfl⟩ := h; exact writeBuffer_backlit buf s
  case setGeometry op =>
    obtain ⟨g, -, rfl⟩ := h
    exact Backlit.trans (t := s.withGeometry g) (.quiet rfl rfl rfl)
      ((clearDisplay_backlit _).andThen fun _ => .quiet rfl rfl rfl)
  case setCursorBlink v =>
    obtain ⟨c, -, rfl⟩ := h
    exact Backlit.trans (t := { s with cursorBlink := c }) (.quiet rfl rfl rfl) (sendDisplayCtrl_backlit _)
  case setCursorDisplay v =>
    obtain ⟨c, -, rfl⟩ := h
    exact Backlit.trans (t := { s with cursorVisible := c }) (.quiet rfl rfl rfl) (sendDisplayCtrl_backlit _)
  case flush => exact h ▸ flushOp_backlit s

/-- `setBacklight` writes its flag and then latch bytes with BL as the flag (R222). -/
theorem setBacklightOp_backlit (v : Bool) (s : State) :
    Backlit { s with backlight := v } (setBacklightOp v s).state :=
  emitAll_backlit fun _ hmem =>
    Event.write.inj (List.mem_singleton.1 hmem) ▸ backlightByte_isLatchByte _ v

theorem Backlit.bits (h : Backlit s t) (distinct : s.cfg.latchMap.distinct = true)
    (htrace : t.wire.trace = s.wire.trace ++ es) (hmem : .write b ∈ es) :
    b.getLsbD s.cfg.latchMap.rw = false ∧ b.getLsbD s.cfg.latchMap.bl = t.backlight := by
  obtain ⟨fs, hfs, hb⟩ := h.trace
  have hes : es = fs := List.append_cancel_left (htrace.symm.trans hfs)
  rw [h.backlight]
  exact (hb b (hes ▸ hmem)).bits distinct

/-- Settles O57: every byte is a latch byte with BL as the backlight the instruction leaves, but the one of
BACKLIGHT_CTL, which is a latch byte with BL as its operand. -/
theorem everyBusByteIsAWriteWithTheBacklightBit : Obligations.EveryBusByteIsAWriteWithTheBacklightBit := by
  intro s t i es b distinct next htrace hmem
  obtain ⟨r, hr, rfl⟩ := exec_next.1 next
  rw [Run.left_wire] at htrace
  have hbacklight : (r.left i).backlight = r.state.backlight := by rw [Run.left_cases]
  rw [hbacklight]
  by_cases hctl : ∃ v, i = .backlightCtl v
  case pos =>
    obtain ⟨v, rfl⟩ := hctl
    cases hr
    obtain ⟨sent, hsent, hsub⟩ := emitAll_trace [.write (backlightByte s.cfg.latchMap v)] s
    have hes : es = sent := List.append_cancel_left (htrace.symm.trans hsent)
    have hb : Event.write b ∈ [.write (backlightByte s.cfg.latchMap v)] := hsub (hes ▸ hmem)
    rw [Event.write.inj (List.mem_singleton.1 hb)]
    exact ⟨((backlightByte_isLatchByte _ v).bits distinct).1, fun h => absurd rfl (h v)⟩
  case neg =>
    suffices h : b.getLsbD s.cfg.latchMap.rw = false ∧ b.getLsbD s.cfg.latchMap.bl = r.state.backlight from
      ⟨h.1, fun _ => h.2⟩
    by_cases hset : ∃ v, i = .setBacklight v
    case pos =>
      obtain ⟨w, rfl⟩ := hset
      simp only [instrRun, Option.map_eq_some_iff] at hr
      obtain ⟨v, -, rfl⟩ := hr
      exact (setBacklightOp_backlit v s).bits distinct htrace hmem
    case neg =>
      exact (instrRun_backlit hr (by simpa using hctl) (by simpa using hset)).bits distinct htrace hmem

end Sys2Proof.Machine
end

section
/-! What the nibble engine sends (spec/40_nibble_engine.md): the failed bus write that ends an emission
(R127), the rows whose run is one emission (R120 to R125, R128), and `initializeDisplay` (R130, R131). -/

namespace Sys2Proof.Machine

open Sys2Proof

variable {s t : State} {i : Instr} {es : List Event}

/-! ### Emissions -/

/-- Settles O14: the events before the failed write are all sent, and the write ends the emission. -/
theorem emissionEndsWithTheFailedWrite : Obligations.EmissionEndsWithTheFailedWrite := by
  intro s pre post b neverHangs ok failed
  have hnext : (s.extend pre).wire.answerAt 0 = .busError := by simpa using failed
  have hwrite : emit (.write b) (s.extend pre) = .busError ((s.extend pre).extend [.write b]) := by
    rw [emit_write (s := s.extend pre) b neverHangs, if_pos hnext]
  rw [emitAll_append, emitAll_done ⟨neverHangs, ok⟩, Run.andThen_done, emitAll_cons, hwrite,
    Run.andThen_busError, State.extend_extend]

/-- Whatever the bus answers, an emission leaves the position as it is (R128). -/
theorem emitAll_position (es : List Event) (s : State) :
    (emitAll es s).state.row = s.row ∧ (emitAll es s).state.col = s.col := by
  have frame : (emitAll es s).state = { s with wire := (emitAll es s).state.wire } := emitAll_frame es s
  rw [frame]
  exact ⟨rfl, rfl⟩

/-! ### Rows whose run is one emission -/

/-- With its bus writes answered ok, such a row adds its events and changes nothing else (R128). -/
theorem exec_emission_done (run : instrRun s i = some (emitAll es s)) (part : i.port ≠ .host)
    (ready : s.busReady (busWrites es)) : exec i s = .next (s.extend es) := by
  refine exec_next.2 ⟨_, run, ?_⟩
  rw [Run.left, if_neg part, emitAll_done ready, Run.resumed_done]

/-- Whatever the bus answers, such a row writes no session state (R128). -/
theorem exec_emission_frame (run : instrRun s i = some (emitAll es s)) (next : exec i s = .next t) :
    t = { s with wire := t.wire, running := t.running, result := t.result } := by
  obtain ⟨r, hr, rfl⟩ := exec_next.1 next
  obtain rfl : emitAll es s = r := Option.some.inj (run.symm.trans hr)
  have frame : WireFrame s (emitAll es s).state := emitAll_frame es s
  rw [Run.left_cases, frame]

/-- Settles O51: the run of each of these rows is one emission. -/
theorem transferInstructionsFrame : Obligations.TransferInstructionsFrame := by
  rintro s t i (⟨d, bl, en, rs, rfl⟩ | ⟨b, rfl⟩ | rfl | ⟨c, b, rfl⟩ | ⟨w, rfl⟩ | rfl | rfl | ⟨a, rfl⟩ |
    ⟨v, rfl⟩) next <;> exact exec_emission_frame rfl next

/-- Settles O15: the events of each row are those of its transfer. -/
theorem transferInstructionsSendTheirNibbles : Obligations.TransferInstructionsSendTheirNibbles := by
  refine ⟨fun s ready => ⟨?entryInc, ?fset4Bit2Line, fun c b => ?displayCtrl, fun a => ?setDdram,
    fun v => ?data⟩, fun s ready => ⟨fun w => ?fset8Bit, ?fset4Bit⟩⟩ <;> rw [State.sent]
  case entryInc => exact entryInc_events s ▸ exec_emission_done rfl nofun ready
  case fset4Bit2Line => exact fset4Bit2Line_events s ▸ exec_emission_done rfl nofun ready
  case displayCtrl => exact displayCtrl_events s ▸ exec_emission_done rfl nofun ready
  case setDdram => exact setDdram_events s a ▸ exec_emission_done rfl nofun ready
  case data => exact data_events s v ▸ exec_emission_done rfl nofun ready
  case fset8Bit => exact fset8Bit_events s w ▸ exec_emission_done rfl nofun ready
  case fset4Bit => exact fset4Bit_events s ▸ exec_emission_done rfl nofun ready

/-- Settles O16: each of the two rows is one bus write. -/
theorem busByteInstructionsMakeOneWrite : Obligations.BusByteInstructionsMakeOneWrite :=
  fun _ ready => ⟨fun _ _ _ _ => exec_emission_done rfl nofun ready,
    fun _ => exec_emission_done rfl nofun ready⟩

/-! ### `initializeDisplay` -/

/-- Settles O19: `initializeOp` ran to its end, and the host operation returns Ok. -/
theorem initializeDisplayResult : Obligations.InitializeDisplayResult :=
  fun _ ready => exec_next.2 ⟨_, rfl, by rw [initializeOp_done ready]; rfl⟩

/-- Settles O18: the result's trace is that of the eight transfers, which under the default latch map are the
events R131 lists. -/
theorem initializeDisplayTrace : Obligations.InitializeDisplayTrace := by
  intro s t standard ready next
  have htrace : t.wire.trace
      = s.wire.trace ++ transferEvents LatchMap.standard s.backlight initTransfers := by
    cases (initializeDisplayResult s ready).symm.trans next
    rw [← standard]
    rfl
  simp only [htrace, List.append_assoc]
  exact ⟨fun on => congrArg (s.wire.trace ++ ·) (by rw [on]; decide),
    fun off => congrArg (s.wire.trace ++ ·) (by rw [off]; decide)⟩

/-- The position after `initializeOp` is (0,0) if the clear completed, and unchanged if not (R130). -/
theorem initializeOp_position (s : State) :
    ((initializeOp s).state.row = 0 ∧ (initializeOp s).state.col = 0)
    ∨ ((initializeOp s).state.row = s.row ∧ (initializeOp s).state.col = s.col) := by
  have upToClear := emitAll_position
    (transferEvents s.cfg.latchMap s.backlight (initTransfers.take 7)) s.initialized
  rw [initializeOp_eq]
  cases hrun : emitAll (transferEvents s.cfg.latchMap s.backlight (initTransfers.take 7)) s.initialized with
  | done u => exact .inl (emitAll_position _ (u.moveTo 0 0))
  | busError u => exact .inr (by rwa [hrun] at upToClear)
  | hung u => exact .inr (by rwa [hrun] at upToClear)

/-- Settles O20: the updates are those of `State.initialized`, which the transfers keep; the position is that
of the run, and where a bus write fails that of the run's failing part. -/
theorem initializeDisplayUpdatesComeFirst : Obligations.InitializeDisplayUpdatesComeFirst := by
  intro s t next
  obtain ⟨r, hr, ht⟩ := exec_next.1 next
  cases hr
  obtain rfl : t = (initializeOp s).returned := ht
  refine ⟨?frame, by simpa using initializeOp_position s, fun neverHangs failed => ?upToClear,
    fun neverHangs ok failed => ?afterClear⟩
  case frame =>
    have frame : PositionFrame s.initialized (initializeOp s).state := initializeOp_frame s
    rcases Run.returned_cases (initializeOp s) with h | h | h <;> rw [h, frame] <;> rfl
  case upToClear =>
    obtain ⟨es, h⟩ := initializeOp_busError neverHangs failed
    rw [h]
    exact ⟨rfl, rfl, rfl⟩
  case afterClear =>
    obtain ⟨es, h⟩ := initializeOp_busError_last neverHangs ok failed
    rw [h]
    exact ⟨rfl, rfl, rfl⟩

end Sys2Proof.Machine
end

section
/-! Position and addressing (spec/41_addressing.md): the Geometry check (R151), the rows that move and then
send a set-address (CR R164, TAB R162, CUP R161), CHAR (R160), the rows that reset the position (R165, R188),
and what all of them leave unchanged. -/

namespace Sys2Proof.Machine

open Sys2Proof

variable {s t u : State} {i : Instr} {run : Run} {g : Geometry} {r c r' c' : Nat}

/-! ### The Geometry check -/

/-- The elements of an initial part of a list are those at the indices below its length. -/
theorem forall_mem_take_iff {α : Type} {l : List α} {n : Nat} {p : α → Prop} :
    (∀ a ∈ l.take n, p a) ↔ ∀ k a, k < n → l[k]? = some a → p a := by
  simp only [List.mem_iff_getElem?, List.getElem?_take, Option.ite_none_right_eq_some]
  exact ⟨fun h k a hk ha => h a ⟨k, hk, ha⟩, fun h a ⟨k, hk, ha⟩ => h k a hk ha⟩

/-- Settles O8: the four conjuncts of the check are (a) to (d), the last over the rows of the geometry. -/
theorem geometryWellFormedIffRule151 : Obligations.GeometryWellFormedIffRule151 := by
  intro g
  simp only [geometryWf, Bool.and_eq_true, decide_eq_true_eq, List.all_eq_true, forall_mem_take_iff,
    and_assoc]

/-! ### From the run of a row to its outcome -/

theorem exec_part_done (hrun : instrRun s i = some (.done t)) (part : i.port ≠ .host) :
    exec i s = .next t :=
  exec_next.2 ⟨_, hrun, by rw [Run.left, if_neg part, Run.resumed_done]⟩

theorem exec_part_busError (hrun : instrRun s i = some (.busError u)) (part : i.port ≠ .host)
    (next : exec i s = .next t) : t = u.takeBusError := by
  obtain ⟨r, hr, rfl⟩ := exec_next.1 next
  obtain rfl : Run.busError u = r := Option.some.inj (hrun.symm.trans hr)
  rw [Run.left, if_neg part, Run.resumed_busError]

/-- However the run ended, the position is the one it reached (R241). -/
theorem exec_next_position (hrun : instrRun s i = some run) (next : exec i s = .next t) :
    t.row = run.state.row ∧ t.col = run.state.col := by
  obtain ⟨r, hr, rfl⟩ := exec_next.1 next
  obtain rfl : run = r := Option.some.inj (hrun.symm.trans hr)
  rw [Run.left_cases]
  exact ⟨rfl, rfl⟩

/-! ### Rows that move and then send the set-address (R153) -/

theorem exec_move_done (hrun : instrRun s i = some (setAddr r c (s.moveTo r c))) (part : i.port ≠ .host)
    (ready : s.busReady 6) :
    exec i s = .next ((s.moveTo r c).sent [cellTransfer s.geometry r c]) :=
  exec_part_done (hrun.trans (congrArg some (setAddr_done r c (ready.of_wire rfl)))) part

theorem exec_move_position (hrun : instrRun s i = some (setAddr r c (s.moveTo r c)))
    (next : exec i s = .next t) : t.row = r ∧ t.col = c := by
  obtain ⟨hrow, hcol⟩ := exec_next_position hrun next
  obtain ⟨krow, kcol⟩ := setAddr_position r c (s.moveTo r c)
  exact ⟨hrow.trans krow, hcol.trans kcol⟩

/-- Settles O21: CR moves to column 0 of its row. -/
theorem carriageReturnResult : Obligations.CarriageReturnResult :=
  ⟨fun s ready => exec_move_done (r := s.row) (c := 0) rfl nofun ready,
    fun _ _ next => (exec_move_position rfl next).symm⟩

/-! #### TAB -/

theorem tabTarget_of_lt (h : s.col + 4 < s.geometry.cols) : s.tabTarget = (s.row, s.col + 4) :=
  if_neg (Nat.not_le.2 h)

theorem tabTarget_of_le (h : s.geometry.cols ≤ s.col + 4) : s.tabTarget = (s.nextRow, 0) := if_pos h

theorem instrRun_tab (h : s.tabTarget = (r, c)) :
    instrRun s .tab = some (setAddr r c (s.moveTo r c)) := by
  rw [instrRun, tabOp, h]

/-- Settles O23, by the two targets of a TAB. -/
theorem tabResult : Obligations.TabResult :=
  ⟨fun _ ready =>
    ⟨fun fits => exec_move_done (instrRun_tab (tabTarget_of_lt fits)) nofun ready,
      fun edge => exec_move_done (instrRun_tab (tabTarget_of_le edge)) nofun ready⟩,
    fun _ _ next =>
    ⟨fun fits => exec_move_position (instrRun_tab (tabTarget_of_lt fits)) next,
      fun edge => exec_move_position (instrRun_tab (tabTarget_of_le edge)) next⟩⟩

/-! #### CUP: the four cases of the one-step clamp (R161) -/

theorem clampCursor_inside (hc : c < g.cols) (hr : r < g.rows) : clampCursor g r c = (r, c) := by
  simp [clampCursor, Nat.not_le.2 hc, Nat.not_le.2 hr]

theorem clampCursor_row_past (hc : c < g.cols) (hr : g.rows ≤ r) : clampCursor g r c = (0, c) := by
  simp [clampCursor, Nat.not_le.2 hc, hr]

theorem clampCursor_col_past (hc : g.cols ≤ c) (hr : r + 1 < g.rows) :
    clampCursor g r c = (r + 1, 0) := by
  simp [clampCursor, hc, Nat.not_le.2 hr]

theorem clampCursor_both_past (hc : g.cols ≤ c) (hr : g.rows ≤ r + 1) : clampCursor g r c = (0, 0) := by
  simp [clampCursor, hc, hr]

theorem instrRun_cup (h : clampCursor s.geometry r c = (r', c')) :
    instrRun s (.cup r c) = some (setAddr r' c' (s.moveTo r' c')) := by
  rw [instrRun, setCursor, h]

theorem exec_cup_done (h : clampCursor s.geometry r c = (r', c')) (ready : s.busReady 6) :
    exec (.cup r c) s = .next ((s.moveTo r' c').sent [cellTransfer s.geometry r' c']) :=
  exec_move_done (instrRun_cup h) nofun ready

theorem exec_cup_position (h : clampCursor s.geometry r c = (r', c'))
    (next : exec (.cup r c) s = .next t) : t.row = r' ∧ t.col = c' :=
  exec_move_position (instrRun_cup h) next

/-- Settles O25, by the four cases of the clamp. -/
theorem cursorPositionResult : Obligations.CursorPositionResult :=
  ⟨fun _ _ _ ready =>
    ⟨fun hc hr => exec_cup_done (clampCursor_inside hc hr) ready,
      fun hc hr => exec_cup_done (clampCursor_row_past hc hr) ready,
      fun hc hr => exec_cup_done (clampCursor_col_past hc hr) ready,
      fun hc hr => exec_cup_done (clampCursor_both_past hc hr) ready⟩,
    fun _ _ _ _ next =>
    ⟨fun hc hr => exec_cup_position (clampCursor_inside hc hr) next,
      fun hc hr => exec_cup_position (clampCursor_row_past hc hr) next,
      fun hc hr => exec_cup_position (clampCursor_col_past hc hr) next,
      fun hc hr => exec_cup_position (clampCursor_both_past hc hr) next⟩⟩

/-! ### CHAR (R160) -/

/-- A data byte that fails leaves the position as it was (R160). -/
theorem writeChar_busError (ch : Byte) (neverHangs : s.neverHangs)
    (failed : ∃ k < 6, s.wire.answerAt k = .busError) :
    ∃ es, writeChar ch s = .busError (s.extend es) := by
  obtain ⟨pre, b, -, -, h⟩ := emitAll_busError (es := dataEvents s ch) neverHangs failed
  exact ⟨_, by rw [writeChar, writeData, h, Run.andThen_busError]⟩

/-- Once the data byte is sent at the edge, the position is the wrapped one, whatever the bus answers to the
set-address (R160). -/
theorem writeChar_wrap_position (ch : Byte) (ready : s.busReady 6) (edge : s.col + 1 = s.geometry.cols) :
    (writeChar ch s).state.row = s.nextRow ∧ (writeChar ch s).state.col = 0 := by
  rw [writeChar, writeData_done ch ready, Run.andThen_done, if_pos (by simpa using edge)]
  exact setAddr_position _ _ _

/-- Settles O24: with every write answered ok the run ends as R160 has it; with a failed data byte it ends
where it began; with the data byte sent it has moved before anything else can fail. -/
theorem charResult : Obligations.CharResult := by
  refine fun s ch => ⟨fun ready fits => ?fits, fun ready edge => ?wraps, fun t next neverHangs =>
    ⟨fun failed => ?dataFails, fun ok => ⟨fun fits => ?advanced, fun edge => ?wrapped⟩⟩⟩
  case fits => exact exec_part_done (congrArg some (writeChar_done ch ready fits)) nofun
  case wraps => exact exec_part_done (congrArg some (writeChar_wrap ch ready edge)) nofun
  case dataFails =>
    obtain ⟨es, h⟩ := writeChar_busError ch neverHangs failed
    exact exec_next_position (i := .char ch) (congrArg some h) next
  case advanced =>
    exact exec_next_position (i := .char ch)
      (congrArg some (writeChar_done ch ⟨neverHangs, ok⟩ fits)) next
  case wrapped =>
    obtain ⟨hrow, hcol⟩ := exec_next_position (i := .char ch) rfl next
    obtain ⟨krow, kcol⟩ := writeChar_wrap_position ch ⟨neverHangs, ok⟩ edge
    exact ⟨hrow.trans krow, hcol.trans kcol⟩

/-- Settles O26: the CUP reaches the cell with at least six writes left that are answered ok (O25), and from
there the CHAR moves on (O24). -/
theorem cursorPositionThenCharPosition : Obligations.CursorPositionThenCharPosition := by
  intro s t u r c ch _ hr hc ready cup char
  obtain rfl : (s.moveTo r c).sent [cellTransfer s.geometry r c] = t :=
    Host.Outcome.next.inj
      ((exec_cup_done (clampCursor_inside hc hr) (ready.mono (by omega))).symm.trans cup)
  have charReady : ((s.moveTo r c).sent [cellTransfer s.geometry r c]).busReady 12 :=
    State.busReady.sent (ready.of_wire rfl)
  obtain ⟨-, -, position⟩ := charResult ((s.moveTo r c).sent [cellTransfer s.geometry r c]) ch
  obtain ⟨-, sent⟩ := position u char charReady.1
  obtain ⟨advanced, wrapped⟩ := sent fun k hk => charReady.2 k (by omega)
  split_ifs with edge
  · exact Prod.ext (wrapped edge).1 (wrapped edge).2
  · exact Prod.ext (advanced edge).1 (advanced edge).2

/-! ### CLEAR, HOME and ED2 (R165, R188) -/

/-- An ED2 whose clear fails leaves the position as it was (R188). -/
theorem eraseDisplay_busError_clear (neverHangs : s.neverHangs)
    (failed : ∃ k < 6, s.wire.answerAt k = .busError) :
    ∃ es, eraseDisplay s = .busError (s.extend es) := by
  obtain ⟨es, h⟩ := clearDisplay_busError neverHangs failed
  exact ⟨es, by rw [eraseDisplay, h, Run.andThen_busError]⟩

/-- An ED2 whose return-home fails has been reset to (0,0) by its clear (R188). -/
theorem eraseDisplay_busError_home (ready : s.busReady 6)
    (failed : ∃ k < 6, s.wire.answerAt (6 + k) = .busError) :
    ∃ es, eraseDisplay s = .busError (((s.moveTo 0 0).sent [.clear]).extend es) := by
  obtain ⟨k, hk, hb⟩ := failed
  have failedHome : ((s.moveTo 0 0).sent [.clear]).wire.answerAt k = .busError := by
    rw [State.sent, State.extend_wire, Wire.extend_answerAt]
    exact hb
  obtain ⟨es, h⟩ := returnHome_busError (s := (s.moveTo 0 0).sent [.clear]) ready.1 ⟨k, hk, failedHome⟩
  exact ⟨es, by rw [eraseDisplay, clearDisplay_done ready, Run.andThen_done, h]⟩

/-- Settles O17: with the writes answered ok the runs end at (0,0); a run that a failed write ended kept the
position it had reached, which is that of ED2's clear once the clear has completed. -/
theorem clearAndHomeResetThePosition : Obligations.ClearAndHomeResetThePosition := by
  refine ⟨fun s ready => ⟨?clear, ?home⟩, fun s ready => ?ed2,
    fun s t i hi next neverHangs failed => ?firstFails, fun s t next neverHangs ok failed => ?homeFails⟩
  case clear => exact exec_part_done (congrArg some (clearDisplay_done ready)) nofun
  case home => exact exec_part_done (congrArg some (returnHome_done ready)) nofun
  case ed2 => exact exec_part_done (congrArg some (eraseDisplay_done ready)) nofun
  case firstFails =>
    have unmoved : ∃ es, instrRun s i = some (.busError (s.extend es)) := by
      rcases hi with rfl | rfl | rfl
      · exact (clearDisplay_busError neverHangs failed).imp fun _ => congrArg some
      · exact (returnHome_busError neverHangs failed).imp fun _ => congrArg some
      · exact (eraseDisplay_busError_clear neverHangs failed).imp fun _ => congrArg some
    obtain ⟨es, hrun⟩ := unmoved
    obtain rfl := exec_part_busError hrun (by rcases hi with rfl | rfl | rfl <;> nofun) next
    exact ⟨rfl, rfl, rfl⟩
  case homeFails =>
    obtain ⟨es, h⟩ := eraseDisplay_busError_home ⟨neverHangs, ok⟩ failed
    obtain rfl := exec_part_busError (i := .ed2) (congrArg some h) nofun next
    exact ⟨rfl, rfl, rfl⟩

/-! ### Frame -/

/-- Settles O50: the run of each row keeps all but the position, and for LF the pending newline; what the row
leaves differs from the run's state only in how the operation ended. -/
theorem positionInstructionsFrame : Obligations.PositionInstructionsFrame := by
  refine ⟨fun s t i hi next => ?position, fun s t next => ?lineFeed⟩
  case position =>
    obtain ⟨r, hr, rfl⟩ := exec_next.1 next
    have frame : PositionFrame s r.state := by
      rcases hi with rfl | rfl | ⟨ch, rfl⟩ | ⟨row, col, rfl⟩ | rfl | rfl | rfl <;> cases hr
      · exact carriageReturn_frame s
      · exact tabOp_frame s
      · exact writeChar_frame ch s
      · exact setCursor_frame row col s
      · exact eraseDisplay_frame s
      · exact clearDisplay_frame s
      · exact returnHome_frame s
    rw [Run.left_cases, frame]
  case lineFeed =>
    obtain ⟨r, hr, rfl⟩ := exec_next.1 next
    cases hr
    have frame : LineFrame s (lineFeed s).state := lineFeed_frame s
    rw [Run.left_cases, frame]

end Sys2Proof.Machine
end

section
/-! The steps of the escape buffer, said once (spec/42_escape_parser.md R180 to R186, R191), and the value of
parameter text (R186). -/

namespace Sys2Proof.Machine

open Sys2Proof

variable {n cap base v : Nat} {b : Byte} {t : List Byte} {e : EscBuffer}

/-! ### The replay record -/

/-- A byte is recorded if there is room, and no other field is written (R191). -/
theorem replayAppend_record (cap : Nat) (b : Byte) (e : EscBuffer) :
    replayAppend cap b e
      = { e with replay := if e.replay.length < cap then e.replay ++ [b] else e.replay } := by
  unfold replayAppend
  split_ifs <;> rfl

/-- A record within its capacity holds the first bytes of what was to be recorded (R191). -/
theorem replayAppend_replay (within : e.replay.length ≤ cap) :
    (replayAppend cap b e).replay = (e.replay ++ [b]).take cap := by
  rw [replayAppend_record]
  dsimp only
  split_ifs with room
  · rw [List.take_of_length_le (by simpa using room)]
  · rw [List.take_append_of_le_length (by omega), List.take_of_length_le within]

/-! ### Opening a sequence -/

theorem replayAppend_escFresh (hcap : 1 ≤ cap) :
    replayAppend cap b (escFresh n) = ⟨.awaitingBracket, [], List.replicate n 0, 0, false, [b]⟩ :=
  if_pos hcap

/-- Settles O29: each of the three rows is one update of the escape fields. -/
theorem escapeEntryAndBracketResult : Obligations.EscapeEntryAndBracketResult := by
  refine fun s => ⟨fun hcap => ?esc, ?bracket, fun b => rfl⟩
  case esc =>
    show Host.Outcome.next (escEnter s) = _
    rw [escEnter, replayAppend_escFresh hcap]
    rfl
  case bracket =>
    show Host.Outcome.next (escBracket s) = _
    rw [escBracket, bracketStep, replayAppend_record]
    rfl

/-! ### A digit -/

/-- A digit is recorded, and joins `raw` or sets `error` (R184). -/
theorem digitStep_eq (p : Params) (b : Byte) (e : EscBuffer) :
    digitStep p b e = { e with
      raw := if e.raw.length < 4 then e.raw ++ [b] else e.raw
      error := if e.raw.length < 4 then e.error else true
      replay := if e.replay.length < p.replayCap then e.replay ++ [b] else e.replay } := by
  unfold digitStep
  rw [replayAppend_record, Config.rawCap]
  dsimp only
  split_ifs <;> rfl

/-- Settles O30: the row is `digitStep` on the escape buffer. -/
theorem parameterDigitResult : Obligations.ParameterDigitResult := by
  intro s d
  show Host.Outcome.next (escDigitOp (digitByte d) s) = _
  rw [escDigitOp, digitStep_eq]
  rfl

/-! ### The end of a parameter -/

/-! `FinalizeParam` by whether the text parses and there is room (R186). -/

theorem finalizeParam_unparsed (h : parseParam e.raw = none) :
    finalizeParam n e = { e with error := true, raw := [] } := by
  simp only [finalizeParam, h]

theorem finalizeParam_stored (h : parseParam e.raw = some v) (room : e.paramCount < n) :
    finalizeParam n e
      = { e with params := e.params.set e.paramCount v, paramCount := e.paramCount + 1, raw := [] } := by
  simp only [finalizeParam, h, if_pos room]

theorem finalizeParam_full (h : parseParam e.raw = some v) (full : ¬e.paramCount < n) :
    finalizeParam n e = { e with error := true, raw := [] } := by
  simp only [finalizeParam, h, if_neg full]

/-- Settles O31, by the three cases of `FinalizeParam`. -/
theorem parameterSeparatorResult : Obligations.ParameterSeparatorResult := by
  intro s
  show Host.Outcome.next (escSemiOp s) = _
  rw [escSemiOp, semiStep, replayAppend_record]
  cases hv : parseParam s.esc.raw with
  | none => rw [finalizeParam_unparsed (by exact hv)]; rfl
  | some v =>
    by_cases room : s.esc.paramCount < s.cfg.maxParams
    · rw [finalizeParam_stored (by exact hv) (by exact room)]; simp only [if_pos room]; rfl
    · rw [finalizeParam_full (by exact hv) (by exact room)]; simp only [if_neg room]; rfl

/-! ### Parameter text -/

/-- The first digit of a text counts its own power of the base, the rest count as before. -/
theorem sum_digits_cons (base : Nat) (d : Byte) (t : List Byte) :
    ∑ k : Fin (d :: t).length, ((d :: t)[k].toNat - 0x30) * base ^ ((d :: t).length - 1 - k.val)
      = (d.toNat - 0x30) * base ^ t.length
        + ∑ k : Fin t.length, (t[k].toNat - 0x30) * base ^ (t.length - 1 - k.val) := by
  refine (Fin.sum_univ_succ _).trans (congrArg₂ (· + ·) rfl (Finset.sum_congr rfl fun k _ => ?_))
  have hk : t.length + 1 - 1 - (k.val + 1) = t.length - 1 - k.val := by omega
  exact congrArg (fun m => (t[k].toNat - 0x30) * base ^ m) hk

/-- Reading on from a value moves it up by the digits read, the first the most significant. -/
theorem foldl_digits_eq_sum (base : Nat) (t : List Byte) (v : Nat) :
    t.foldl (fun v b => v * base + (b.toNat - 0x30)) v
      = v * base ^ t.length
        + ∑ k : Fin t.length, (t[k].toNat - 0x30) * base ^ (t.length - 1 - k.val) := by
  induction t generalizing v with
  | nil => simp
  | cons d t ih =>
    rw [List.foldl_cons, ih, sum_digits_cons, List.length_cons, pow_succ]
    ring

/-- The value of digit text, the first digit the most significant (R186). -/
theorem digitsValue_eq_sum (base : Nat) (t : List Byte) :
    digitsValue base t
      = ∑ k : Fin t.length, (t[k].toNat - 0x30) * base ^ (t.length - 1 - k.val) := by
  rw [digitsValue, foldl_digits_eq_sum, Nat.zero_mul, Nat.zero_add]

theorem parseParam_octal_none (more : t ≠ []) (large : ∃ b ∈ t, 0x37 < b.toNat) :
    parseParam (chZero :: t) = none := by
  obtain ⟨b, hb, hlarge⟩ := large
  have hall : ¬t.all (fun b => decide (b.toNat ≤ 0x37)) = true := fun h => by
    have := of_decide_eq_true (List.all_eq_true.1 h b hb)
    omega
  rw [parseParam, if_pos ⟨rfl, more⟩, if_neg hall]

theorem parseParam_octal (more : t ≠ []) (small : ∀ b ∈ t, b.toNat ≤ 0x37) :
    parseParam (chZero :: t) = some (digitsValue 8 t) := by
  have hall : t.all (fun b => decide (b.toNat ≤ 0x37)) = true :=
    List.all_eq_true.2 fun b hb => decide_eq_true (small b hb)
  rw [parseParam, if_pos ⟨rfl, more⟩, if_pos hall]

/-- Settles O32, by the three forms of parameter text. -/
theorem parameterTextValue : Obligations.ParameterTextValue := by
  refine ⟨rfl, fun d t _ _ => ⟨fun zero more large => ?unparsed, fun zero more small => ?octal,
    fun notOctal => ?decimal⟩⟩
  case unparsed => rw [zero]; exact parseParam_octal_none more large
  case octal => rw [zero, ← digitsValue_eq_sum]; exact parseParam_octal more small
  case decimal => rw [← digitsValue_eq_sum]; exact if_neg notOctal

/-- Settles O35: the row answers the state it is given. -/
theorem noopSequenceChangesNothing : Obligations.NoopSequenceChangesNothing := fun _ _ => rfl

end Sys2Proof.Machine
end

section
/-! The end of a sequence: a FINAL byte runs its command on the session with the parser reset
(spec/42_escape_parser.md R187 to R190), and `flush` replays what a pending sequence has recorded (R192,
spec/43_dispatcher.md R226). -/

namespace Sys2Proof.Machine

open Sys2Proof

variable {s t : State} {e : EscBuffer} {body : List Byte}

/-! ### A FINAL byte -/

theorem exec_escFinal (b : Byte) (s : State) :
    exec (.escFinal b) s
      = (runCommand (commandOf (finalBuffer s.cfg.maxParams s.esc) b) s.parserIdle).part := rfl

/-- Settles O34: the command's run changes only the position and the wire of the session with the parser
reset; which command it is, the branches of `commandOf` say. -/
theorem finalByteAlwaysLeavesTheParserIdle : Obligations.FinalByteAlwaysLeavesTheParserIdle := by
  refine ⟨fun s t b next => ?frame, fun s b bytes => ?command⟩
  case frame =>
    obtain ⟨r, hr, rfl⟩ := exec_next.1 next
    cases hr
    have frame : PositionFrame s.parserIdle (escFinalOp b s).state := escFinalOp_frame b s
    rw [Run.left_cases, frame]
    rfl
  case command =>
    rw [exec_escFinal, commandOf, finalBuffer]
    simp only [chJ, chH]
    split_ifs <;> rfl

/-- Settles O33: of the commands O34 lists, ED2 and CUP run to their end, and ESC_NOOP has no effect. -/
theorem finalByteResult : Obligations.FinalByteResult := by
  intro s b ready
  obtain ⟨-, command⟩ := finalByteAlwaysLeavesTheParserIdle
  have idleReady : s.parserIdle.busReady 12 := ready.of_wire rfl
  refine (command s b []).trans ?_
  dsimp only
  generalize (if s.esc.raw = [] then s.esc else finalizeParam s.cfg.maxParams s.esc) = e
  split_ifs
  · rfl
  · exact exec_part_done (i := .ed2) (congrArg some (eraseDisplay_done idleReady)) nofun
  · exact exec_cup_done rfl (idleReady.mono (by omega))
  · rfl

/-! ### The record of a pending sequence -/

/-! What each byte of a sequence adds to the record (R183 to R185, R191). -/

theorem bracketStep_replay (p : Params) (within : e.replay.length ≤ p.replayCap) :
    (bracketStep p e).replay = (e.replay ++ [chLbracket]).take p.replayCap :=
  replayAppend_replay (e := { e with state := .readingParam }) within

theorem digitStep_replay (p : Params) (b : Byte) (e : EscBuffer) :
    (digitStep p b e).replay = (replayAppend p.replayCap b e).replay := by
  rw [digitStep_eq, replayAppend_record]

theorem semiStep_replay (p : Params) (e : EscBuffer) :
    (semiStep p e).replay = (replayAppend p.replayCap chSemi e).replay := finalizeParam_replay _ _

/-- Recording up to a capacity byte by byte records the first bytes of the whole. -/
theorem take_append_take {α : Type} (n : Nat) (xs ys : List α) :
    ((xs.take n) ++ ys).take n = (xs ++ ys).take n := by
  simp only [List.take_append, List.take_take, min_self, List.length_take]
  congr 2
  omega

/-- In ReadingParam a digit or a ';' leaves the sequence pending, and is recorded. -/
theorem writeByte_param {b : Byte} (hn : s.newlinePending = false) (reading : e.state = .readingParam)
    (within : e.replay.length ≤ s.cfg.replayCap) (hb : isDigit b = true ∨ b = chSemi) :
    ∃ e', writeByte b (s.inSequence e) = .done (s.inSequence e') ∧ e'.state = .readingParam
      ∧ e'.replay = (e.replay ++ [b]).take s.cfg.replayCap := by
  rw [writeByte_inSequence hn]
  rcases hb with digit | rfl
  · exact ⟨_, escFeed_digit reading digit, by rw [digitStep_state, reading],
      by rw [digitStep_replay, replayAppend_replay within]⟩
  · exact ⟨_, escFeed_semi reading, by rw [semiStep_state, reading],
      by rw [semiStep_replay, replayAppend_replay within]⟩

/-- Digits and semicolons leave the sequence pending, and are recorded up to `REPLAY_CAP`. -/
theorem writeBytes_params (hn : s.newlinePending = false) (reading : e.state = .readingParam)
    (within : e.replay.length ≤ s.cfg.replayCap)
    (hbody : ∀ b ∈ body, isDigit b = true ∨ b = chSemi) :
    ∃ e', writeBytes body (s.inSequence e) = .done (s.inSequence e')
      ∧ e'.replay = (e.replay ++ body).take s.cfg.replayCap := by
  induction body generalizing e with
  | nil => exact ⟨e, rfl, by rw [List.append_nil, List.take_of_length_le within]⟩
  | cons b body ih =>
    rw [List.forall_mem_cons] at hbody
    obtain ⟨hb, hbody⟩ := hbody
    obtain ⟨e₁, run₁, reading₁, replay₁⟩ := writeByte_param hn reading within hb
    obtain ⟨e₂, run₂, replay₂⟩ := ih reading₁ (by rw [replay₁]; exact List.length_take_le _ _) hbody
    refine ⟨e₂, by rw [writeBytes, run₁, Run.andThen_done, run₂], ?_⟩
    rw [replay₂, replay₁, take_append_take, List.append_assoc, List.singleton_append]

/-- ESC '[' and digits and semicolons leave a sequence pending, with the bytes recorded up to
`REPLAY_CAP` (R180 to R185, R191). -/
theorem writeBytes_pending (hn : s.newlinePending = false) (idle : s.inEscape = false)
    (hbody : ∀ b ∈ body, isDigit b = true ∨ b = chSemi) :
    ∃ e, writeBytes (chEsc :: chLbracket :: body) s = .done (s.inSequence e)
      ∧ e.replay = (chEsc :: chLbracket :: body).take s.cfg.replayCap := by
  have escRecorded : (replayAppend s.cfg.replayCap chEsc (escFresh s.cfg.maxParams)).replay
      = [chEsc].take s.cfg.replayCap :=
    replayAppend_replay (e := escFresh s.cfg.maxParams) (Nat.zero_le _)
  have bracketReplay := bracketStep_replay s.cfg
    (e := replayAppend s.cfg.replayCap chEsc (escFresh s.cfg.maxParams)) (by rw [escRecorded]; exact List.length_take_le _ _)
  rw [escRecorded, take_append_take] at bracketReplay
  obtain ⟨e, run, replay⟩ := writeBytes_params hn (bracketStep_state s.cfg _)
    (by rw [bracketReplay]; exact List.length_take_le _ _) hbody
  refine ⟨e, ?_, by rw [replay, bracketReplay, take_append_take]; rfl⟩
  have awaiting : (replayAppend s.cfg.replayCap chEsc (escFresh s.cfg.maxParams)).state
      = .awaitingBracket := replayAppend_state _ _ _
  rw [writeBytes, writeByte_esc hn idle, Run.andThen_done, writeBytes, writeByte_inSequence hn,
    escFeed_bracket awaiting, Run.andThen_done, run]

/-- With no newline pending, `flush` of a pending sequence is its replay (R226). -/
theorem flushOp_pending (hn : s.newlinePending = false) (pending : s.inEscape = true) :
    flushOp s = writeChars s.esc.replay s.parserIdle := by
  simp only [flushOp, pendingNewline, hn, Bool.false_eq_true, if_false, Run.andThen_done, pending, if_true,
    escReplay]

/-- Settles O37: the write leaves the sequence pending with its record, so `flush` is the replay of that
record. -/
theorem flushReplaysThePendingSequence : Obligations.FlushReplaysThePendingSequence := by
  intro s body _ neverHangs idle hn hd hbody
  obtain ⟨e, run, replay⟩ := writeBytes_pending hn idle hbody
  have written : (writeBuffer (chEsc :: chLbracket :: body) s).returned = (s.inSequence e).returnOk := by
    rw [writeBuffer_returned _ neverHangs, writePrologue_of_clean hd hn, Run.andThen_done, run]
    rfl
  have flushed : flushOp (s.inSequence e).returnOk
      = writeChars ((chEsc :: chLbracket :: body).take s.cfg.replayCap)
          (s.inSequence e).returnOk.parserIdle := by
    rw [flushOp_pending (s := (s.inSequence e).returnOk) hn rfl, ← replay]
    rfl
  refine ⟨(s.inSequence e).returnOk, congrArg Host.Outcome.next written, rfl, rfl, rfl, rfl, replay,
    congrArg Run.finish flushed, fun fits ready => ?_⟩
  refine (congrArg Run.finish (flushed.trans (writeChars_done _ ?_ fits))).trans rfl
  exact ready.of_wire rfl

end Sys2Proof.Machine
end

section
/-! `MAX_PARAMS` is not observable (spec/42_escape_parser.md R194): two states that differ only in it, and in
what a pending sequence makes of it, stay so. The position operations do not look at either (`Skew`); the
parser's steps keep the agreement of the escape buffers (`EscBuffer.SameCommand`); all else follows piece by
piece of the pseudocode. -/

namespace Sys2Proof.Machine

open Sys2Proof

variable {s t : State} {r r' : Run} {p q : Params} {e f : EscBuffer}
  {o o' : Host.Outcome State Fault Refusal}

/-! ### Escape buffers -/

/-- Agreement up to the params array is agreement on the command and the same record. -/
theorem EscBuffer.sameUpToParams_iff :
    e.SameUpToParams p q f ↔ e.SameCommand p q f ∧ e.replay = f.replay :=
  ⟨fun h => ⟨⟨h.state_eq, h.raw_eq, rfl, h.params_eq⟩, h.replay_eq⟩,
    fun ⟨h, replay⟩ => ⟨h.state_eq, h.raw_eq, replay, h.params_eq⟩⟩

theorem EscBuffer.SameUpToParams.sameCommand (h : e.SameUpToParams p q f) : e.SameCommand p q f :=
  (EscBuffer.sameUpToParams_iff.1 h).1

theorem escFresh_same (hp : 2 ≤ p.maxParams) (hq : 2 ≤ q.maxParams) :
    (escFresh p.maxParams).SameUpToParams p q (escFresh q.maxParams) :=
  EscBuffer.sameUpToParams_iff.2 ⟨escFresh_sameCommand hp hq, rfl⟩

/-- With the same capacity, equal records stay equal. -/
theorem replayAppend_replay_congr {cap cap' : Nat} (b : Byte) (hcap : cap = cap')
    (h : e.replay = f.replay) : (replayAppend cap b e).replay = (replayAppend cap' b f).replay := by
  rw [replayAppend_record, replayAppend_record, hcap, h]

theorem EscBuffer.SameUpToParams.replayAppend (h : e.SameUpToParams p q f)
    (hcap : p.replayCap = q.replayCap) (b : Byte) :
    (replayAppend p.replayCap b e).SameUpToParams p q (replayAppend q.replayCap b f) :=
  EscBuffer.sameUpToParams_iff.2
    ⟨h.sameCommand.replayAppend b, replayAppend_replay_congr b hcap h.replay_eq⟩

theorem EscBuffer.SameUpToParams.bracketStep (h : e.SameUpToParams p q f)
    (hcap : p.replayCap = q.replayCap) : (bracketStep p e).SameUpToParams p q (bracketStep q f) :=
  EscBuffer.sameUpToParams_iff.2
    ⟨h.sameCommand.bracketStep, replayAppend_replay_congr chLbracket hcap h.replay_eq⟩

theorem EscBuffer.SameUpToParams.digitStep (h : e.SameUpToParams p q f)
    (hcap : p.replayCap = q.replayCap) (b : Byte) :
    (digitStep p b e).SameUpToParams p q (digitStep q b f) :=
  EscBuffer.sameUpToParams_iff.2 ⟨h.sameCommand.digitStep b, by
    rw [digitStep_replay, digitStep_replay, replayAppend_replay_congr b hcap h.replay_eq]⟩

theorem EscBuffer.SameUpToParams.semiStep (h : e.SameUpToParams p q f)
    (hcap : p.replayCap = q.replayCap) (hp : 2 ≤ p.maxParams) (hq : 2 ≤ q.maxParams) :
    (semiStep p e).SameUpToParams p q (semiStep q f) :=
  EscBuffer.sameUpToParams_iff.2 ⟨h.sameCommand.semiStep hp hq, by
    rw [semiStep_replay, semiStep_replay, replayAppend_replay_congr chSemi hcap h.replay_eq]⟩

/-! ### States -/

/-- The state with another `MAX_PARAMS` and another escape buffer. -/
def State.withParser (n : Nat) (e : EscBuffer) (s : State) : State :=
  { s with cfg := { s.cfg with maxParams := n }, esc := e }

namespace State.SameUpToMaxParams

section Fields

variable (h : s.SameUpToMaxParams t)
include h

/-! What the two states have in common. -/

theorem exists_withParser : ∃ n e, s = t.withParser n e := ⟨_, _, h.rest_eq⟩

/-- What does not look at `MAX_PARAMS` and the escape buffer is the same in both. -/
theorem read_eq {α : Type} (g : State → α)
    (blind : ∀ u n e, g (State.withParser n e u) = g u := by intros; rfl) : g s = g t := by
  obtain ⟨n, e, rfl⟩ := h.exists_withParser
  exact blind t n e

theorem wire_eq : s.wire = t.wire := h.read_eq State.wire
theorem running_eq : s.running = t.running := h.read_eq State.running
theorem inbox_eq : s.inbox = t.inbox := h.read_eq State.inbox
theorem inEscape_eq : s.inEscape = t.inEscape := h.read_eq State.inEscape
theorem dirty_eq : s.dirty = t.dirty := h.read_eq State.dirty
theorem newlinePending_eq : s.newlinePending = t.newlinePending := h.read_eq State.newlinePending
theorem backlight_eq : s.backlight = t.backlight := h.read_eq State.backlight
theorem cursorVisible_eq : s.cursorVisible = t.cursorVisible := h.read_eq State.cursorVisible
theorem cursorBlink_eq : s.cursorBlink = t.cursorBlink := h.read_eq State.cursorBlink
theorem cursorShown_eq : s.cursorShown = t.cursorShown := h.read_eq State.cursorShown
theorem displayCtrl_eq : s.displayCtrl = t.displayCtrl := h.read_eq State.displayCtrl
theorem latch_eq : s.latch = t.latch := h.read_eq State.latch
theorem currentByte_eq : s.currentByte = t.currentByte := h.read_eq State.currentByte
theorem replayCap_eq : s.cfg.replayCap = t.cfg.replayCap := h.read_eq (·.cfg.replayCap)
theorem latchMap_eq : s.cfg.latchMap = t.cfg.latchMap := h.read_eq (·.cfg.latchMap)
theorem geometryTable_eq : geometryTable s.cfg = geometryTable t.cfg :=
  h.read_eq fun u => geometryTable u.cfg

theorem parserMode_eq : s.parserMode = t.parserMode := by
  rw [State.parserMode, State.parserMode, h.inEscape_eq, h.esc_same.state_eq]

/-- The decoder reads the two states alike. -/
theorem context_eq (port : Port) : s.context port = t.context port := by
  simp only [State.context, h.parserMode_eq, h.backlight_eq, h.cursorVisible_eq, h.cursorBlink_eq,
    h.latchMap_eq]

/-! Updates of both. -/

/-- An update of both that neither looks at nor writes `MAX_PARAMS` and the escape buffer. -/
theorem update (g : State → State)
    (apart : ∀ u n e, g (State.withParser n e u) = State.withParser n e (g u) := by intros; rfl)
    (cfg : ∀ u, (g u).cfg = u.cfg := by intros; rfl) (esc : ∀ u, (g u).esc = u.esc := by intros; rfl) :
    (g s).SameUpToMaxParams (g t) where
  s_wf := by rw [cfg]; exact h.s_wf
  t_wf := by rw [cfg]; exact h.t_wf
  esc_same := by simpa only [cfg, esc] using h.esc_same
  rest_eq := by rw [cfg s, esc s]; exact (congrArg g h.rest_eq).trans (apart t _ _)

theorem withEsc (same : e.SameUpToParams s.cfg t.cfg f) :
    State.SameUpToMaxParams { s with esc := e } { t with esc := f } :=
  ⟨h.s_wf, h.t_wf, same, congrArg (fun u : State => { u with esc := e }) h.rest_eq⟩

theorem withInEscape (b : Bool) :
    State.SameUpToMaxParams { s with inEscape := b } { t with inEscape := b } :=
  h.update fun u => { u with inEscape := b }

theorem parserIdle : s.parserIdle.SameUpToMaxParams t.parserIdle :=
  (h.withEsc (escFresh_same h.s_wf h.t_wf)).withInEscape false

theorem moveTo (row col : Nat) : (s.moveTo row col).SameUpToMaxParams (t.moveTo row col) :=
  h.update (·.moveTo row col)

theorem withNewlinePending (b : Bool) :
    State.SameUpToMaxParams { s with newlinePending := b } { t with newlinePending := b } :=
  h.update fun u => { u with newlinePending := b }

theorem withDirty (b : Bool) : State.SameUpToMaxParams { s with dirty := b } { t with dirty := b } :=
  h.update fun u => { u with dirty := b }

theorem withBacklight (b : Bool) :
    State.SameUpToMaxParams { s with backlight := b } { t with backlight := b } :=
  h.update fun u => { u with backlight := b }

theorem withCursorVisible (b : Bool) :
    State.SameUpToMaxParams { s with cursorVisible := b } { t with cursorVisible := b } :=
  h.update fun u => { u with cursorVisible := b }

theorem withCursorBlink (b : Bool) :
    State.SameUpToMaxParams { s with cursorBlink := b } { t with cursorBlink := b } :=
  h.update fun u => { u with cursorBlink := b }

theorem withInbox (rest : List Request) :
    State.SameUpToMaxParams { s with inbox := rest } { t with inbox := rest } :=
  h.update fun u => { u with inbox := rest }

theorem beginLoop (buf : List Byte) : (s.beginLoop buf).SameUpToMaxParams (t.beginLoop buf) :=
  h.update (·.beginLoop buf)

theorem advanceIndex : s.advanceIndex.SameUpToMaxParams t.advanceIndex :=
  h.update State.advanceIndex

theorem returnOk : s.returnOk.SameUpToMaxParams t.returnOk :=
  h.update State.returnOk

theorem takeBusError : s.takeBusError.SameUpToMaxParams t.takeBusError :=
  h.update State.takeBusError

theorem initialized : s.initialized.SameUpToMaxParams t.initialized :=
  (((h.parserIdle.withNewlinePending false).withDirty false).withCursorVisible true).withCursorBlink true

theorem withGeometry (g : Geometry) : (s.withGeometry g).SameUpToMaxParams (t.withGeometry g) :=
  (((h.parserIdle.withNewlinePending false).moveTo 0 0).withDirty true).update
    fun u => { u with geometry := g }

end Fields

end State.SameUpToMaxParams

/-! ### Runs -/

/-- The runs ended in the same way, in states that differ only in `MAX_PARAMS`. -/
inductive Run.SameUpToMaxParams : Run → Run → Prop
  | done {s t : State} (h : s.SameUpToMaxParams t) : Run.SameUpToMaxParams (.done s) (.done t)
  | busError {s t : State} (h : s.SameUpToMaxParams t) : Run.SameUpToMaxParams (.busError s) (.busError t)
  | hung {s t : State} (h : s.SameUpToMaxParams t) : Run.SameUpToMaxParams (.hung s) (.hung t)

theorem Run.SameUpToMaxParams.andThen {g k : State → Run} (h : r.SameUpToMaxParams r')
    (next : ∀ u v : State, u.SameUpToMaxParams v → (g u).SameUpToMaxParams (k v)) :
    (r.andThen g).SameUpToMaxParams (r'.andThen k) := by
  cases h with
  | done h => exact next _ _ h
  | busError h => exact .busError h
  | hung h => exact .hung h

theorem Run.SameUpToMaxParams.resumed (h : r.SameUpToMaxParams r') :
    r.resumed.SameUpToMaxParams r'.resumed := by
  cases h with
  | done h => exact h
  | busError h => exact h.takeBusError
  | hung h => exact h

theorem Run.SameUpToMaxParams.returned (h : r.SameUpToMaxParams r') :
    r.returned.SameUpToMaxParams r'.returned := by
  cases h with
  | done h => exact h.returnOk
  | busError h => exact h.takeBusError
  | hung h => exact h

/-! ### The position operations -/

theorem skew_withParser (n : Nat) (e : EscBuffer) : Skew (State.withParser n e) := by
  constructor <;> intros <;> rfl

/-- An operation that commutes with every update it does not look at, and keeps the parameters and the
escape buffer, gives runs that differ only in `MAX_PARAMS`. -/
theorem State.SameUpToMaxParams.run (h : s.SameUpToMaxParams t) {op : State → Run}
    (skew : ∀ {g : State → State}, Skew g → op (g t) = (op t).map g)
    (frame : PositionFrame t (op t).state) : (op s).SameUpToMaxParams (op t) := by
  obtain ⟨n, e, rfl⟩ := h.exists_withParser
  have same : ∀ u, PositionFrame t u → (u.withParser n e).SameUpToMaxParams u := by
    intro u k
    unfold PositionFrame at k
    rw [k]
    exact ⟨h.s_wf, h.t_wf, h.esc_same, rfl⟩
  rw [skew (skew_withParser n e)]
  cases hop : op t <;> rw [hop] at frame
  case done u => exact .done (same u frame)
  case busError u => exact .busError (same u frame)
  case hung u => exact .hung (same u frame)

section Operations

variable (h : s.SameUpToMaxParams t)
include h

theorem emitAll_same (es : List Event) : (emitAll es s).SameUpToMaxParams (emitAll es t) :=
  h.run (fun k => k.emitAll es t) (emitAll_frame es t).position

theorem writeInstruction_same (v : Byte) (d : Nat) :
    (writeInstruction v d s).SameUpToMaxParams (writeInstruction v d t) :=
  h.run (fun k => k.writeInstruction v d t) (emitAll_frame _ t).position

theorem writeHighNibble_same (v : Byte) (d : Nat) :
    (writeHighNibble v d s).SameUpToMaxParams (writeHighNibble v d t) :=
  h.run (fun k => k.writeHighNibble v d t) (emitAll_frame _ t).position

theorem writeData_same (v : Byte) : (writeData v s).SameUpToMaxParams (writeData v t) :=
  h.run (fun k => k.writeData v t) (emitAll_frame _ t).position

theorem writeChar_same (ch : Byte) : (writeChar ch s).SameUpToMaxParams (writeChar ch t) :=
  h.run (fun k => k.writeChar ch t) (writeChar_frame ch t)

theorem writeChars_same (bs : List Byte) : (writeChars bs s).SameUpToMaxParams (writeChars bs t) :=
  h.run (fun k => k.writeChars bs t) (writeChars_frame bs t)

theorem tabOp_same : (tabOp s).SameUpToMaxParams (tabOp t) := h.run (fun k => k.tabOp t) (tabOp_frame t)

theorem carriageReturn_same : (carriageReturn s).SameUpToMaxParams (carriageReturn t) :=
  h.run (fun k => k.carriageReturn t) (carriageReturn_frame t)

theorem newLine_same : (newLine s).SameUpToMaxParams (newLine t) :=
  h.run (fun k => k.newLine t) (newLine_frame t)

theorem clearDisplay_same : (clearDisplay s).SameUpToMaxParams (clearDisplay t) :=
  h.run (fun k => k.clearDisplay t) (clearDisplay_frame t)

theorem returnHome_same : (returnHome s).SameUpToMaxParams (returnHome t) :=
  h.run (fun k => k.returnHome t) (returnHome_frame t)

theorem runCommand_same (c : Command) : (runCommand c s).SameUpToMaxParams (runCommand c t) :=
  h.run (fun k => k.runCommand c t) (runCommand_frame c t)

/-! ### The parser and the dispatcher -/

theorem escEnter_same : (escEnter s).SameUpToMaxParams (escEnter t) :=
  (h.withEsc ((escFresh_same h.s_wf h.t_wf).replayAppend h.replayCap_eq chEsc)).withInEscape true

theorem escBracket_same : (escBracket s).SameUpToMaxParams (escBracket t) :=
  h.withEsc (h.esc_same.bracketStep h.replayCap_eq)

theorem escDigitOp_same (b : Byte) : (escDigitOp b s).SameUpToMaxParams (escDigitOp b t) :=
  h.withEsc (h.esc_same.digitStep h.replayCap_eq b)

theorem escSemiOp_same : (escSemiOp s).SameUpToMaxParams (escSemiOp t) :=
  h.withEsc (h.esc_same.semiStep h.replayCap_eq h.s_wf h.t_wf)

/-- A FINAL byte selects the same command in both (R187 to R190). -/
theorem escFinalOp_same (b : Byte) : (escFinalOp b s).SameUpToMaxParams (escFinalOp b t) := by
  rw [escFinalOp, (h.esc_same.sameCommand.finalBuffer h.s_wf h.t_wf).commandOf_eq b]
  exact runCommand_same h.parserIdle _

theorem escFeed_same (b : Byte) : (escFeed b s).SameUpToMaxParams (escFeed b t) := by
  unfold escFeed
  rw [h.esc_same.state_eq]
  split
  · split_ifs
    · exact .done (escBracket_same h)
    · exact .done h
  · split_ifs
    · exact .done (escDigitOp_same h b)
    · exact .done (escSemiOp_same h)
    · exact escFinalOp_same h b

theorem lineFeed_same : (lineFeed s).SameUpToMaxParams (lineFeed t) := by
  unfold lineFeed
  rw [h.cursorShown_eq]
  split_ifs
  · exact .done (h.withNewlinePending true)
  · exact newLine_same h

theorem pendingNewline_same : (pendingNewline s).SameUpToMaxParams (pendingNewline t) := by
  unfold pendingNewline
  rw [h.newlinePending_eq]
  split_ifs
  · exact newLine_same (h.withNewlinePending false)
  · exact .done h

theorem dispatchByte_same (b : Byte) : (dispatchByte b s).SameUpToMaxParams (dispatchByte b t) := by
  unfold dispatchByte
  split_ifs
  · exact carriageReturn_same h
  · exact lineFeed_same h
  · exact .done (escEnter_same h)
  · exact tabOp_same h
  · exact writeChar_same h b

theorem writeByte_same (b : Byte) : (writeByte b s).SameUpToMaxParams (writeByte b t) := by
  refine (pendingNewline_same h).andThen fun u v huv => ?_
  rw [huv.inEscape_eq]
  split_ifs
  · exact escFeed_same huv b
  · exact dispatchByte_same huv b

/-! ### Host operations -/

theorem dirtyClear_same : (dirtyClear s).SameUpToMaxParams (dirtyClear t) := by
  unfold dirtyClear
  rw [h.dirty_eq]
  split_ifs
  · exact (clearDisplay_same h).andThen fun _ _ huv => .done (huv.withDirty false)
  · exact .done h

theorem writeLoop_same (n : Nat) : (writeLoop n s).SameUpToMaxParams (writeLoop n t) := by
  induction n generalizing s t with
  | zero => exact .done h
  | succ n ih =>
    unfold writeLoop
    rw [h.currentByte_eq]
    cases t.currentByte with
    | none => exact .done h
    | some b => exact (writeByte_same h b).andThen fun _ _ huv => ih huv.advanceIndex

theorem writeBuffer_same (buf : List Byte) : (writeBuffer buf s).SameUpToMaxParams (writeBuffer buf t) :=
  ((dirtyClear_same h).andThen fun _ _ => pendingNewline_same).andThen
    fun _ _ huv => writeLoop_same (huv.beginLoop buf) _

theorem initializeOp_same : (initializeOp s).SameUpToMaxParams (initializeOp t) := by
  rw [initializeOp_eq, initializeOp_eq, h.latchMap_eq, h.backlight_eq]
  exact (emitAll_same h.initialized _).andThen fun _ _ huv => emitAll_same (huv.moveTo 0 0) _

theorem setGeometryOp_same (g : Geometry) : (setGeometryOp g s).SameUpToMaxParams (setGeometryOp g t) :=
  (clearDisplay_same (h.withGeometry g)).andThen fun _ _ huv => .done (huv.withDirty false)

theorem setBacklightOp_same (b : Bool) : (setBacklightOp b s).SameUpToMaxParams (setBacklightOp b t) := by
  rw [setBacklightOp, h.latchMap_eq]
  exact emitAll_same (h.withBacklight b) _

theorem sendDisplayCtrl_same : (sendDisplayCtrl s).SameUpToMaxParams (sendDisplayCtrl t) := by
  rw [sendDisplayCtrl, h.displayCtrl_eq]
  exact writeInstruction_same h _ _

theorem flushOp_same : (flushOp s).SameUpToMaxParams (flushOp t) := by
  refine (pendingNewline_same h).andThen fun u v huv => ?_
  rw [huv.inEscape_eq]
  split_ifs
  · rw [escReplay, huv.esc_same.replay_eq]
    exact writeChars_same huv.parserIdle _
  · exact .done huv

theorem resolveGeometry_same (op : GeometryOperand) :
    resolveGeometry s.cfg op = resolveGeometry t.cfg op := by
  cases op with
  | entry k => rw [resolveGeometry, h.geometryTable_eq]; rfl
  | record g => rfl

end Operations

/-! ### Outcomes -/

/-- The same fault or refusal, or next states that differ only in `MAX_PARAMS`. -/
inductive SameOutcome : Host.Outcome State Fault Refusal → Host.Outcome State Fault Refusal → Prop
  | next {s t : State} (h : s.SameUpToMaxParams t) : SameOutcome (.next s) (.next t)
  | fault (x : Fault) : SameOutcome (.fault x) (.fault x)
  | refused (x : Refusal) : SameOutcome (.refused x) (.refused x)

theorem SameOutcome.clauses (h : SameOutcome o o') :
    (∀ s', o = .next s' → ∃ t', o' = .next t' ∧ s'.SameUpToMaxParams t')
    ∧ (∀ x, o = .fault x → o' = .fault x)
    ∧ (∀ x, o = .refused x → o' = .refused x) := by
  cases h with
  | next same => exact ⟨fun s' hs => ⟨_, rfl, Host.Outcome.next.inj hs ▸ same⟩, by simp, by simp⟩
  | fault x => exact ⟨by simp, fun _ hx => hx, by simp⟩
  | refused x => exact ⟨by simp, by simp, fun _ hx => hx⟩

theorem Run.SameUpToMaxParams.part (h : r.SameUpToMaxParams r') : SameOutcome r.part r'.part :=
  .next h.resumed

theorem Run.SameUpToMaxParams.finish (h : r.SameUpToMaxParams r') : SameOutcome r.finish r'.finish :=
  .next h.returned

theorem Run.SameUpToMaxParams.afterByte (h : r.SameUpToMaxParams r') :
    r.afterByte.SameUpToMaxParams r'.afterByte := by
  cases h with
  | busError h => exact h.takeBusError
  | hung h => exact h
  | @done u v h =>
    show (Machine.afterByte u).SameUpToMaxParams (Machine.afterByte v)
    unfold Machine.afterByte
    rw [h.wire_eq, h.running_eq]
    split_ifs
    · exact h
    · cases v.running with
      | none => exact h
      | some w =>
        dsimp only
        split_ifs
        · exact h.advanceIndex
        · exact h.returnOk

/-- Every instruction: its run is the same in both, and so is its refusal. -/
theorem exec_same (i : Instr) (h : s.SameUpToMaxParams t) : SameOutcome (exec i s) (exec i t) := by
  cases i with
  | cr => exact (carriageReturn_same h).part
  | lf => exact (lineFeed_same h).part
  | esc => exact .next (escEnter_same h)
  | tab => exact (tabOp_same h).part
  | char ch => exact (writeChar_same h ch).part
  | escLbracket => exact .next (escBracket_same h)
  | escIgnore b => exact .next h
  | escDigit d => exact .next (escDigitOp_same h _)
  | escSemi => exact .next (escSemiOp_same h)
  | escFinal b => exact (escFinalOp_same h b).part
  | ed2 => exact (runCommand_same h .ed2).part
  | cup row col => exact (runCommand_same h (.cup row col)).part
  | escNoop bytes => exact .next h
  | latch d bl en rs =>
    simp only [exec, execLatch, h.latch_eq]
    exact (emitAll_same h _).part
  | backlightCtl b =>
    simp only [exec, execBacklightCtl, h.latchMap_eq]
    exact (emitAll_same h _).part
  | clear => exact (clearDisplay_same h).part
  | home => exact (returnHome_same h).part
  | entryInc => exact (writeInstruction_same h _ _).part
  | displayCtrl c b => exact (sendDisplayCtrl_same h).part
  | fset8BitHno w => exact (writeHighNibble_same h _ _).part
  | fset4BitHno => exact (writeHighNibble_same h _ _).part
  | fset4Bit2Line => exact (writeInstruction_same h _ _).part
  | setDdram a => exact (writeInstruction_same h _ _).part
  | data v => exact (writeData_same h v).part
  | initializeDisplay => exact (initializeOp_same h).finish
  | write buf => exact (writeBuffer_same h buf).finish
  | print str =>
    simp only [exec, execPrint]
    cases beforeNul str with
    | none => exact .refused _
    | some buf => exact (writeBuffer_same h buf).finish
  | setGeometry op =>
    simp only [exec, execSetGeometry, resolveGeometry_same h]
    cases resolveGeometry t.cfg op with
    | none => exact .refused _
    | some g => exact (setGeometryOp_same h g).finish
  | setBacklight b =>
    simp only [exec, execSetBacklight]
    cases bitOperand b with
    | none => exact .refused _
    | some v => exact (setBacklightOp_same h v).finish
  | setCursorBlink b =>
    simp only [exec, execSetCursorBlink]
    cases bitOperand b with
    | none => exact .refused _
    | some v => exact (sendDisplayCtrl_same (h.withCursorBlink v)).finish
  | setCursorDisplay b =>
    simp only [exec, execSetCursorDisplay]
    cases bitOperand b with
    | none => exact .refused _
    | some v => exact (sendDisplayCtrl_same (h.withCursorVisible v)).finish
  | flush => exact (flushOp_same h).finish
  | hostReserved k => exact .refused _

/-- Words decode alike in both, and run alike. -/
theorem runWords_same (port : Port) (ws : List Nat) (h : s.SameUpToMaxParams t) :
    SameOutcome (runWords port ws s) (runWords port ws t) := by
  unfold runWords
  rw [h.context_eq]
  cases decode (t.context port) ws with
  | instr i => exact exec_same i h
  | bad e => exact .refused _

/-! The other things a step can be, beside a request (`step_of_request`). -/

theorem step_of_hung (hung : s.wire.hung = true) : step s = .fault .blockHung := by
  simp [step, fetch, hung]

theorem step_of_byte {w : WriteLoop} {b : Byte} (notHung : s.wire.hung = false)
    (running : s.running = some w) (left : w.buf[w.index]? = some b) :
    step s = .next (writeByte b s).afterByte := by
  simp [step, fetch, notHung, running, left, stepByte_next]

theorem step_of_loopEnd {w : WriteLoop} (notHung : s.wire.hung = false)
    (running : s.running = some w) (none_left : w.buf[w.index]? = none) :
    step s = .next s.returnOk := by
  simp [step, fetch, notHung, running, none_left]

theorem step_of_idle (notHung : s.wire.hung = false) (idle : s.running = none) (empty : s.inbox = []) :
    step s = .next s := by
  simp [step, fetch, notHung, idle, empty]

/-- Both take up the same thing, and run it alike. -/
theorem step_same (h : s.SameUpToMaxParams t) : SameOutcome (step s) (step t) := by
  have hwire := h.wire_eq
  have hrunning := h.running_eq
  have hinbox := h.inbox_eq
  cases hung : t.wire.hung with
  | true =>
    rw [step_of_hung (hwire ▸ hung), step_of_hung hung]
    exact .fault _
  | false =>
    have hung' : s.wire.hung = false := hwire ▸ hung
    cases running : t.running with
    | some w =>
      cases left : w.buf[w.index]? with
      | some b =>
        rw [step_of_byte hung' (hrunning.trans running) left, step_of_byte hung running left]
        exact .next (writeByte_same h b).afterByte
      | none =>
        rw [step_of_loopEnd hung' (hrunning.trans running) left, step_of_loopEnd hung running left]
        exact .next h.returnOk
    | none =>
      cases inbox : t.inbox with
      | nil =>
        rw [step_of_idle hung' (hrunning.trans running) (hinbox.trans inbox),
          step_of_idle hung running inbox]
        exact .next h
      | cons r rest =>
        rw [step_of_request hung' (hrunning.trans running) (hinbox.trans inbox),
          step_of_request hung running inbox]
        exact runWords_same r.port r.words (h.withInbox rest)

/-- Settles O38: each form of outcome is one clause. -/
theorem maxParamsIsNotObservable : Obligations.MaxParamsIsNotObservable :=
  fun _ _ h => (step_same h).clauses

end Sys2Proof.Machine
end

section
/-! The host operations that write a control register of the session (spec/43_dispatcher.md R220, R222 to
R224): what they return with their bus writes answered ok, and what they have written even where one fails
(spec/60_exceptions.md R241 (c)). -/

namespace Sys2Proof.Machine

open Sys2Proof

variable {s t u : State} {i : Instr} {r : Run} {op : GeometryOperand} {g : Geometry}

/-- A host operation whose run ends returns Ok (R244). -/
theorem exec_host_done (hrun : instrRun s i = some (.done u)) (host : i.port = .host) :
    exec i s = .next u.returnOk :=
  exec_next.2 ⟨_, hrun, by rw [Run.left, if_pos host, Run.returned_done]⟩

/-- What a host operation that answers next leaves is what its run returns. -/
theorem eq_returned_of_exec (next : exec i s = .next t) (hrun : instrRun s i = some r)
    (host : i.port = .host) : t = r.returned := by
  obtain ⟨r', hr, rfl⟩ := exec_next.1 next
  obtain rfl : r = r' := Option.some.inj (hrun.symm.trans hr)
  rw [Run.left, if_pos host]

/-- What a run returns, by how it ended. -/
theorem Run.returned_eq (r : Run) :
    r.returned = { r.state with running := r.returned.running, result := r.returned.result } := by
  cases r <;> rfl

/-! ### The backlight and the cursor flags (R222 to R224) -/

theorem bitOperand_bit (b : Bool) : bitOperand (if b then 1 else 0) = some b := by cases b <;> rfl

theorem instrRun_setBacklight (s : State) (b : Bool) :
    instrRun s (.setBacklight (if b then 1 else 0)) = some (setBacklightOp b s) := by
  rw [instrRun, bitOperand_bit, Option.map_some]

theorem instrRun_setCursorBlink (s : State) (b : Bool) :
    instrRun s (.setCursorBlink (if b then 1 else 0)) = some (setCursorBlinkOp b s) := by
  rw [instrRun, bitOperand_bit, Option.map_some]

theorem instrRun_setCursorDisplay (s : State) (b : Bool) :
    instrRun s (.setCursorDisplay (if b then 1 else 0)) = some (setCursorDisplayOp b s) := by
  rw [instrRun, bitOperand_bit, Option.map_some]

/-- With its one bus write answered ok, the operation has made it (R222). -/
theorem setBacklightOp_done (b : Bool) (ready : s.busReady 1) :
    setBacklightOp b s
      = .done ({ s with backlight := b }.extend [.write (backlightByte s.cfg.latchMap b)]) :=
  emitAll_done (s := { s with backlight := b }) ready

/-- The display-control instruction carries the flags the session has when it is sent (R129). -/
theorem sendDisplayCtrl_done (ready : s.busReady 6) :
    sendDisplayCtrl s = .done (s.sent [.displayCtrl s.cursorVisible s.cursorBlink]) := by
  rw [sendDisplayCtrl, writeInstruction_done _ _ ready, displayCtrl_events, State.sent]

/-- Settles O48: the one bus write of the run is the control byte. -/
theorem setBacklightResult : Obligations.SetBacklightResult :=
  fun s b ready =>
    exec_host_done ((instrRun_setBacklight s b).trans (congrArg some (setBacklightOp_done b ready))) rfl

/-- Settles O49: each of the two sends the flags with its own one set. -/
theorem cursorFlagsResult : Obligations.CursorFlagsResult :=
  fun s b ready =>
    ⟨exec_host_done ((instrRun_setCursorBlink s b).trans
        (congrArg some (sendDisplayCtrl_done (s := { s with cursorBlink := b }) ready))) rfl,
      exec_host_done ((instrRun_setCursorDisplay s b).trans
        (congrArg some (sendDisplayCtrl_done (s := { s with cursorVisible := b }) ready))) rfl⟩

/-- A host operation whose run keeps all but the wire of `u` leaves `u`, but for the wire and how the
operation ended. -/
theorem exec_host_wireFrame (next : exec i s = .next t) (hrun : instrRun s i = some r)
    (host : i.port = .host) (frame : WireFrame u r.state) :
    t = { u with wire := t.wire, running := t.running, result := t.result } := by
  obtain rfl := eq_returned_of_exec next hrun host
  rw [Run.returned_eq, frame]

/-- Settles O53: the flag is written before the run's only emission. -/
theorem controlBitOperationsFrame : Obligations.ControlBitOperationsFrame :=
  fun s _ b =>
    ⟨fun next => exec_host_wireFrame next (instrRun_setBacklight s b) rfl (setBacklightOp_frame b s),
      fun next => exec_host_wireFrame next (instrRun_setCursorBlink s b) rfl (setCursorBlinkOp_frame b s),
      fun next =>
        exec_host_wireFrame next (instrRun_setCursorDisplay s b) rfl (setCursorDisplayOp_frame b s)⟩

/-! ### `setGeometry` (R220) -/

theorem instrRun_setGeometry (resolved : resolveGeometry s.cfg op = some g) :
    instrRun s (.setGeometry op) = some (setGeometryOp g s) := by
  rw [instrRun, resolved, Option.map_some]

theorem setGeometryOp_done (g : Geometry) (ready : s.busReady 6) :
    setGeometryOp g s = .done ({ (s.withGeometry g).moveTo 0 0 with dirty := false }.sent [.clear]) := by
  rw [setGeometryOp, clearDisplay_done (s := s.withGeometry g) ready]
  rfl

/-- Settles O45: the clear ran to its end. -/
theorem setGeometryResult : Obligations.SetGeometryResult :=
  fun _ _ g resolved ready => exec_host_done
    ((instrRun_setGeometry resolved).trans (congrArg some (setGeometryOp_done g ready))) rfl

/-- Everything `clearDisplay` can do: it is sent and the position reset; or it fails, or hangs if the
environment says so, and leaves the position as it was (R165). -/
theorem clearDisplay_cases (s : State) :
    clearDisplay s = .done ((s.moveTo 0 0).sent [.clear])
    ∨ (∃ es, clearDisplay s = .busError (s.extend es))
    ∨ (∃ es, s.wire.hangAt ≠ none ∧ clearDisplay s = .hung (s.extend es).hang) := by
  rw [clearDisplay, writeInstruction]
  rcases emitAll_cases (instructionEvents s codeClear Config.tClear) s with
    h | ⟨_, _, _, _, h⟩ | ⟨_, _, _, _, hangs, h⟩ <;> rw [h]
  · exact .inl (by rw [clear_events]; rfl)
  · exact .inr (.inl ⟨_, rfl⟩)
  · exact .inr (.inr ⟨_, hangs, rfl⟩)

/-- Settles O47, by the ways the clear can end: only where it is sent is `dirty` cleared, and the position
is (0,0) from before it. -/
theorem setGeometryFailureStaysDirty : Obligations.SetGeometryFailureStaysDirty := by
  intro s t op g resolved next
  obtain rfl := eq_returned_of_exec next (instrRun_setGeometry resolved) rfl
  rw [setGeometryOp]
  rcases clearDisplay_cases (s.withGeometry g) with h | ⟨es, h⟩ | ⟨es, hangs, h⟩ <;> rw [h]
  · exact ⟨rfl, fun _ => .inr ⟨rfl, rfl⟩⟩
  · exact ⟨rfl, fun _ => .inl ⟨rfl, rfl⟩⟩
  · exact ⟨rfl, fun neverHangs => absurd neverHangs hangs⟩

end Sys2Proof.Machine
end

section
/-! The dispatcher (spec/43_dispatcher.md): LF and the pending newline (R213, R214), the dirty clear (R215),
and `write` and `print` (R210, R216). -/

namespace Sys2Proof.Machine

open Sys2Proof

variable {s t u : State} {buf xs ys : List Byte} {b : Byte}

/-- Pseudocode in two pieces runs to its end only where both do. -/
theorem Run.andThen_eq_done {r : Run} {f : State → Run} (h : r.andThen f = .done u) :
    ∃ v, r = .done v ∧ f v = .done u := by
  cases r with
  | done v => exact ⟨v, rfl, h⟩
  | busError v => cases h
  | hung v => cases h

/-! ### LF (R213) -/

theorem lineFeed_shown (shown : s.cursorShown = true) :
    lineFeed s = .done { s with newlinePending := true } := if_pos shown

theorem lineFeed_hidden (hidden : s.cursorShown = false) : lineFeed s = newLine s :=
  if_neg (by simp [hidden])

/-- Settles O22: whether the cursor is shown decides between the flag and `newLine`. -/
theorem lineFeedResult : Obligations.LineFeedResult := by
  have hidden {s : State} (hv : s.cursorVisible = false) (hb : s.cursorBlink = false) :
      instrRun s .lf = some (newLine s) :=
    congrArg some (lineFeed_hidden (by simp [State.cursorShown, hv, hb]))
  refine ⟨fun s shown => ?deferred, fun s hv hb ready => ?carriedOut, fun s t hv hb next => ?position⟩
  case deferred =>
    exact exec_part_done (congrArg some (lineFeed_shown (by simpa [State.cursorShown] using shown))) nofun
  case carriedOut => exact exec_part_done ((hidden hv hb).trans (congrArg some (newLine_done ready))) nofun
  case position =>
    obtain ⟨hrow, hcol⟩ := exec_next_position (hidden hv hb) next
    obtain ⟨krow, kcol⟩ := newLine_position s
    exact ⟨hrow.trans krow, hcol.trans kcol⟩

/-! ### The pending newline (R214) and the dirty clear (R215) -/

theorem pendingNewline_of_none (hn : s.newlinePending = false) : pendingNewline s = .done s :=
  if_neg (by simp [hn])

theorem pendingNewline_of_pending (hn : s.newlinePending = true) :
    pendingNewline s = newLine { s with newlinePending := false } := if_pos hn

/-- The session once a pending newline, if there is one, is carried out with its writes answered ok. -/
def State.newlineCarriedOut (s : State) : State :=
  if s.newlinePending then
    ({ s with newlinePending := false }.moveTo s.nextRow 0).sent (newLineTransfers s.geometry s.nextRow)
  else s

theorem pendingNewline_done (ready : s.busReady (12 + 6 * s.geometry.cols)) :
    pendingNewline s = .done s.newlineCarriedOut := by
  unfold State.newlineCarriedOut
  split_ifs with hn
  · rw [pendingNewline_of_pending hn, newLine_done (s := { s with newlinePending := false }) ready]
    rfl
  · exact pendingNewline_of_none (by simpa using hn)

theorem dirtyClear_of_clean (hd : s.dirty = false) : dirtyClear s = .done s := if_neg (by simp [hd])

/-- The session once a dirty display is cleared with the writes answered ok. -/
def State.cleared (s : State) : State :=
  if s.dirty then ({ s with dirty := false }.moveTo 0 0).sent [.clear] else s

theorem dirtyClear_done (ready : s.busReady 6) : dirtyClear s = .done s.cleared := by
  unfold dirtyClear State.cleared
  split_ifs
  · rw [clearDisplay_done ready]; rfl
  · rfl

theorem State.cleared_newlinePending (s : State) : s.cleared.newlinePending = s.newlinePending := by
  unfold State.cleared; split_ifs <;> rfl

theorem State.cleared_geometry (s : State) : s.cleared.geometry = s.geometry := by
  unfold State.cleared; split_ifs <;> rfl

theorem State.busReady.cleared {n : Nat} (ready : s.busReady (6 + n)) : s.cleared.busReady n := by
  unfold State.cleared
  split_ifs
  · exact State.busReady.sent (s := { s with dirty := false }.moveTo 0 0) (ts := [.clear])
      (ready.of_wire rfl)
  · exact ready.mono (by omega)

/-- A dirty clear that fails stops a `write` before anything else (R215). -/
theorem writeBuffer_clear_busError (buf : List Byte) (neverHangs : s.neverHangs) (hd : s.dirty = true)
    (failed : ∃ k < 6, s.wire.answerAt k = .busError) :
    ∃ es, writeBuffer buf s = .busError (s.extend es) := by
  obtain ⟨es, h⟩ := clearDisplay_busError neverHangs failed
  exact ⟨es, by simp [writeBuffer, writePrologue, dirtyClear, hd, h]⟩

/-- A pending newline that fails stops a `write` before its first byte; it has cleared its flag and moved
(R214, R163). -/
theorem writeBuffer_newline_busError (buf : List Byte) (neverHangs : s.neverHangs) (hd : s.dirty = false)
    (hn : s.newlinePending = true)
    (failed : ∃ k < 12 + 6 * s.geometry.cols, s.wire.answerAt k = .busError) :
    ∃ es, writeBuffer buf s
      = .busError (({ s with newlinePending := false }.moveTo s.nextRow 0).extend es) := by
  obtain ⟨es, h⟩ := newLine_busError (s := { s with newlinePending := false }) neverHangs failed
  refine ⟨es, ?_⟩
  rw [writeBuffer, writePrologue, dirtyClear_of_clean hd, Run.andThen_done, pendingNewline_of_pending hn, h]
  rfl

/-! ### `write` (R210) -/

theorem exec_write (buf : List Byte) (s : State) :
    exec (.write buf) s = .next (writeBuffer buf s).returned := rfl

/-- Settles O39: with no byte, `write` is its prologue, and both parts of it run to their end. -/
theorem emptyWriteClearsAndCarriesOutTheNewline : Obligations.EmptyWriteClearsAndCarriesOutTheNewline := by
  intro s ready
  have clear : dirtyClear s = .done s.cleared := dirtyClear_done (ready.mono (by omega))
  have newline : pendingNewline s.cleared = .done s.cleared.newlineCarriedOut := by
    refine pendingNewline_done (State.busReady.cleared ?_)
    rw [State.cleared_geometry]
    exact ready.mono (by omega)
  rw [exec_write, writeBuffer, writePrologue, clear, Run.andThen_done, newline]
  refine congrArg Host.Outcome.next (show (s.cleared.newlineCarriedOut.beginLoop []).returnOk = _ from ?_)
  rw [State.newlineCarriedOut, State.cleared_newlinePending]
  unfold State.cleared
  split_ifs <;> rfl

/-- Outside a sequence and with no newline pending, a byte that is no CR, LF, ESC or TAB is drawn
(R81, R212). -/
theorem writeByte_plain (hn : s.newlinePending = false) (idle : s.inEscape = false)
    (plain : b ≠ chCr ∧ b ≠ chLf ∧ b ≠ chEsc ∧ b ≠ chTab) : writeByte b s = writeChar b s := by
  obtain ⟨hcr, hlf, hesc, htab⟩ := plain
  rw [writeByte_of_no_newline hn, if_neg (by simp [idle]), dispatchByte, if_neg hcr, if_neg hlf,
    if_neg hesc, if_neg htab]

/-- Plain text is drawn byte by byte, whatever the bus answers. -/
theorem writeBytes_plain (hn : s.newlinePending = false) (idle : s.inEscape = false)
    (plain : ∀ b ∈ buf, b ≠ chCr ∧ b ≠ chLf ∧ b ≠ chEsc ∧ b ≠ chTab) :
    writeBytes buf s = writeChars buf s := by
  induction buf generalizing s with
  | nil => rfl
  | cons b buf ih =>
    rw [List.forall_mem_cons] at plain
    obtain ⟨hb, hbuf⟩ := plain
    have frame := writeChar_frame b s
    rw [writeBytes, writeChars, writeByte_plain hn idle hb]
    cases hrun : writeChar b s <;> rw [hrun] at frame
    case done u => exact ih (frame.newlinePending.trans hn) (frame.line.inEscape.trans idle) hbuf
    case busError u => rfl
    case hung u => rfl

/-- With nothing dirty and no newline pending, `write` returns what its bytes do. -/
theorem writeBuffer_clean_returned (buf : List Byte) (neverHangs : s.neverHangs) (hd : s.dirty = false)
    (hn : s.newlinePending = false) : (writeBuffer buf s).returned = (writeBytes buf s).returned := by
  rw [writeBuffer_returned buf neverHangs, writePrologue_of_clean hd hn, Run.andThen_done]

/-- Settles O40: the bytes are drawn, and they fit on the row. -/
theorem writeOfPlainTextResult : Obligations.WriteOfPlainTextResult := by
  intro s buf hd hn idle plain fits ready
  rw [exec_write, writeBuffer_clean_returned buf ready.1 hd hn, writeBytes_plain hn idle plain,
    writeChars_done buf ready fits]
  rfl

/-- A pending newline is carried out by the first byte as it is before it (R210, R214). -/
theorem pendingNewline_andThen_writeBytes (s : State) (nonempty : ys ≠ []) :
    (pendingNewline s).andThen (writeBytes ys) = writeBytes ys s := by
  obtain ⟨y, ys, rfl⟩ := List.exists_cons_of_ne_nil nonempty
  have cleared := pendingNewline_newlinePending s
  rw [writeBytes, writeByte, Run.andThen_assoc]
  cases hrun : pendingNewline s <;> rw [hrun] at cleared
  case done v =>
    rw [Run.andThen_done, Run.andThen_done, writeBytes, writeByte, pendingNewline_of_none (s := v) cleared,
      Run.andThen_done]
  case busError v => rfl
  case hung v => rfl

theorem writePrologue_andThen_writeBytes_sends (buf : List Byte) (s : State) :
    Run.Sends s ((writePrologue s).andThen (writeBytes buf)) :=
  ((dirtyClear_sends s).andThen fun u _ => pendingNewline_sends u).andThen fun u _ => writeBytes_sends buf u

/-- A `write` that returned Ok ran its prologue and its bytes to their end, and nothing is dirty. -/
theorem write_ok (neverHangs : s.neverHangs) (next : exec (.write xs) s = .next t)
    (ok : t.result = some .ok) :
    ∃ u, (writePrologue s).andThen (writeBytes xs) = .done u ∧ t = u.returnOk ∧ u.neverHangs
      ∧ u.dirty = false := by
  have ht : t = ((writePrologue s).andThen (writeBytes xs)).returned := by
    rw [← writeBuffer_returned xs neverHangs]
    exact eq_returned_of_exec next rfl rfl
  have sends := writePrologue_andThen_writeBytes_sends xs s
  have hangs := sends.neverHangs neverHangs
  cases hrun : (writePrologue s).andThen (writeBytes xs) <;> rw [hrun] at ht sends hangs
  case busError u => simp [ht] at ok
  case hung u => exact (sends.not_hung neverHangs).elim
  case done u =>
    obtain ⟨v, prologue, bytes⟩ := Run.andThen_eq_done hrun
    have frame : ByteFrame v u := by simpa [bytes] using writeBytes_frame xs v
    exact ⟨u, rfl, ht, hangs, frame.dirty.trans (writePrologue_done_dirty prologue)⟩

/-- Where nothing hangs, dispatching bytes returns the same after an operation has returned Ok (R210: the byte
loop and the result code are read by no byte). -/
theorem writeBytes_returnOk_returned (ys : List Byte) (neverHangs : u.neverHangs) :
    (writeBytes ys u.returnOk).returned = (writeBytes ys u).returned := by
  rw [show u.returnOk = u.withLoop none (some .ok) from rfl, writeBytes_withLoop, Run.returned_withLoop]
  intro v hv
  exact (hv ▸ writeBytes_sends ys u).not_hung neverHangs

/-- Settles O41: the second call begins where the bytes of the first ended, with nothing dirty, and its
pending newline is the one its first byte would carry out. -/
theorem splittingAWriteChangesNothing : Obligations.SplittingAWriteChangesNothing := by
  intro s t xs ys neverHangs nonempty next ok
  obtain ⟨u, first, rfl, hangs, hd⟩ := write_ok neverHangs next ok
  have second : (writePrologue u.returnOk).andThen (writeBytes ys) = writeBytes ys u.returnOk := by
    rw [writePrologue, dirtyClear_of_clean (s := u.returnOk) hd, Run.andThen_done,
      pendingNewline_andThen_writeBytes _ nonempty]
  have whole : (writePrologue s).andThen (writeBytes (xs ++ ys)) = writeBytes ys u := by
    rw [funext (writeBytes_append xs ys), ← Run.andThen_assoc, first, Run.andThen_done]
  rw [exec_write, exec_write, writeBuffer_returned _ neverHangs,
    writeBuffer_returned (s := u.returnOk) _ hangs, whole, second, writeBytes_returnOk_returned ys hangs]

/-! ### `print` (R216) -/

theorem beforeNul_append_nul (rest : List Byte) (h : (0 : Byte) ∉ buf) :
    beforeNul (buf ++ 0 :: rest) = some buf := by
  induction buf with
  | nil => rfl
  | cons b buf ih =>
    simp only [List.mem_cons, not_or] at h
    obtain ⟨hb, hbuf⟩ := h
    rw [List.cons_append, beforeNul, if_neg (Ne.symm hb), ih hbuf, Option.map_some]

theorem beforeNul_eq_none (h : (0 : Byte) ∉ buf) : beforeNul buf = none := by
  induction buf with
  | nil => rfl
  | cons b buf ih =>
    simp only [List.mem_cons, not_or] at h
    obtain ⟨hb, hbuf⟩ := h
    rw [beforeNul, if_neg (Ne.symm hb), ih hbuf, Option.map_none]

/-- Settles O42: `print` runs `write` of the bytes `beforeNul` finds. -/
theorem printWritesTheBytesBeforeNul : Obligations.PrintWritesTheBytesBeforeNul := by
  refine ⟨fun s buf rest h => ?_, fun s str h => ?_⟩
  · simp only [exec, execPrint, beforeNul_append_nul rest h, execWrite]
  · simp only [exec, execPrint, beforeNul_eq_none h]

/-! ### What `write` and `print` leave, whatever the bus answers -/

/-- What `write` or `print` leaves is what writing some bytes returns. -/
theorem exists_writeBuffer_of_exec (next : exec (.write buf) s = .next t ∨ exec (.print buf) s = .next t) :
    ∃ bs, t = (writeBuffer bs s).returned := by
  rcases next with next | next
  · exact ⟨buf, eq_returned_of_exec next rfl rfl⟩
  · obtain ⟨r, hr, rfl⟩ := exec_next.1 next
    obtain ⟨bs, -, rfl⟩ := Option.map_eq_some_iff.1 hr
    exact ⟨bs, rfl⟩

/-- After a `write` that ran to its end the session is not dirty. -/
theorem writeBuffer_done_dirty (h : writeBuffer buf s = .done u) : u.dirty = false := by
  obtain ⟨v, prologue, loop⟩ := Run.andThen_eq_done h
  have kept : ControlsKept (v.beginLoop buf) u := by
    simpa [loop] using writeLoop_controlsKept buf.length (v.beginLoop buf)
  have clean : v.dirty ≠ true := by simp [writePrologue_done_dirty prologue]
  exact Bool.eq_false_iff.2 fun hu => clean (kept.dirty hu)

/-- Settles O52: the frame is that of the run; it returns Ok only where it ran to its end; the two prologue
failures stop it before anything else changed. -/
theorem writeFrame : Obligations.WriteFrame := by
  intro s t buf next
  obtain ⟨bs, rfl⟩ := exists_writeBuffer_of_exec next
  refine ⟨?frame, ?neverSet, fun notHung ok => ?clean, fun neverHangs hd failed => ?clearFails,
    fun neverHangs hd hn failed => ?newlineFails⟩
  case frame =>
    have frame : WriteRunFrame s (writeBuffer bs s).state := writeBuffer_frame bs s
    rw [Run.returned_eq, frame]
  case neverSet =>
    rw [Run.returned_dirty]
    exact (writeBuffer_controlsKept bs s).dirty
  case clean =>
    have sends := writeBuffer_sends bs s
    cases hrun : writeBuffer bs s <;> rw [hrun] at notHung ok sends
    case done u => exact writeBuffer_done_dirty (u := u) hrun
    case busError u => cases ok
    case hung u => simp [sends.hung_true] at notHung
  case clearFails =>
    obtain ⟨es, h⟩ := writeBuffer_clear_busError bs neverHangs hd failed
    rw [h]
    exact ⟨rfl, hd, rfl, rfl, rfl⟩
  case newlineFails =>
    obtain ⟨es, h⟩ := writeBuffer_newline_busError bs neverHangs hd hn failed
    rw [h]
    exact ⟨rfl, rfl, rfl, rfl⟩

end Sys2Proof.Machine
end

section
/-! `flush` (spec/43_dispatcher.md R226): it carries out a pending newline, or replays a pending sequence
(spec/42_escape_parser.md R192). -/

namespace Sys2Proof.Machine

open Sys2Proof

variable {s t u v : State} {b : Byte} {bs : List Byte}

theorem exec_flush (s : State) : exec .flush s = .next (flushOp s).returned := rfl

/-- With no sequence pending, `flush` is the pending newline. -/
theorem flushOp_of_idle (idle : s.inEscape = false) : flushOp s = pendingNewline s := by
  have frame := pendingNewline_frame s
  rw [flushOp]
  cases hrun : pendingNewline s <;> rw [hrun] at frame
  case done u =>
    have hu : u.inEscape = false := frame.inEscape.trans idle
    rw [Run.andThen_done, if_neg (by simp [hu])]
  case busError u => rfl
  case hung u => rfl

/-- The replay neither reads nor writes the byte loop and the result code. -/
theorem writeChars_withLoop_returned (w : Option WriteLoop) (c : Option ResultCode) (bs : List Byte)
    (neverHangs : u.neverHangs) :
    (writeChars bs (u.withLoop w c)).returned = (writeChars bs u).returned := by
  rw [(skew_withLoop w c).writeChars, Run.returned_withLoop]
  intro v hv
  exact (hv ▸ writeChars_sends bs u).not_hung neverHangs

/-- From an idle session with a sequence opened, `flush` replays the sequence's record from the session. -/
theorem flushOp_inSequence (hn : s.newlinePending = false) (idle : s.inEscape = false)
    (fresh : s.esc = escFresh s.cfg.maxParams) (e : EscBuffer) :
    flushOp (s.inSequence e) = writeChars e.replay s := by
  rw [flushOp_pending (s := s.inSequence e) hn rfl, State.inSequence_parserIdle,
    State.parserIdle_of_idle idle fresh, State.inSequence_esc]

/-- A replayed byte leaves the parser as the replay found it. -/
theorem writeChar_done_frame (h : writeChar b s = .done u) :
    u.newlinePending = s.newlinePending ∧ u.inEscape = s.inEscape ∧ u.esc = s.esc ∧ u.cfg = s.cfg := by
  have frame := writeChar_frame b s
  rw [h, Run.state_done, PositionFrame] at frame
  rw [frame]
  exact ⟨rfl, rfl, rfl, rfl⟩

/-- The first byte of a replay does what CHAR does on the session with the parser reset; the rest is the replay
of the bytes left, from where CHAR left the session (R192). -/
theorem flush_cons (neverHangs : s.neverHangs) (hn : s.newlinePending = false)
    (pending : s.inEscape = true) (record : s.esc.replay = b :: bs)
    (char : exec (.char b) (s.parserIdle.withLoop s.running none) = .next v) :
    exec .flush s = if v.result = some .busError then .next v
      else exec .flush (v.inSequence { escFresh s.cfg.maxParams with replay := bs }) := by
  have sends := writeChar_sends b s.parserIdle
  have hangs := sends.neverHangs neverHangs
  have hv : v = ((writeChar b s.parserIdle).map (State.withLoop s.running none)).resumed := by
    rw [← (skew_withLoop s.running none).writeChar]
    exact (Host.Outcome.next.inj char).symm
  rw [exec_flush, flushOp_pending hn pending, record, writeChars]
  cases hrun : writeChar b s.parserIdle <;> rw [hrun] at sends hangs hv
  case busError u =>
    subst hv
    exact (if_pos rfl).symm
  case hung u => exact (sends.not_hung neverHangs).elim
  case done u =>
    obtain ⟨hun, huidle, huesc, hucfg⟩ := writeChar_done_frame hrun
    obtain rfl : v = u.withLoop s.running none := hv
    have fresh : u.esc = escFresh u.cfg.maxParams := by rw [huesc, hucfg]; rfl
    rw [if_neg nofun, exec_flush,
      flushOp_inSequence (s := u.withLoop s.running none) (hun.trans hn) huidle fresh,
      writeChars_withLoop_returned (u := u) _ _ _ hangs, Run.andThen_done]

/-- Settles O43: a pending newline is `newLine`; a pending sequence is the replay of its record from the session
with the parser reset. -/
theorem flushResult : Obligations.FlushResult := by
  refine ⟨fun s hn idle => ?nothing, fun s hn idle ready => ?newline, fun s hn pending => ?sequence,
    fun s hn pending record => ?empty, fun s v b bs neverHangs hn pending record char => ?byteByByte,
    fun s hn pending fits ready => ?fits⟩
  case nothing =>
    rw [exec_flush, flushOp_of_idle idle, pendingNewline_of_none hn]
    rfl
  case newline =>
    rw [exec_flush, flushOp_of_idle idle, pendingNewline_done ready, State.newlineCarriedOut, if_pos hn]
    rfl
  case sequence =>
    rw [exec_flush, flushOp_pending hn pending]
    rfl
  case empty =>
    rw [exec_flush, flushOp_pending hn pending, record]
    rfl
  case byteByByte => exact flush_cons neverHangs hn pending record char
  case fits =>
    rw [exec_flush, flushOp_pending hn pending, writeChars_done (s := s.parserIdle) _ ready fits]
    rfl

/-- Everything `flush` can do: it is over with the pending newline, which has failed or hung or left no sequence
pending; or it goes on to replay the pending sequence. -/
theorem flushOp_cases (s : State) :
    (flushOp s = pendingNewline s ∧ (s.newlinePending = false → s.inEscape = false))
    ∨ ∃ u, s.inEscape = true ∧ LineFrame s u ∧ u.newlinePending = false
        ∧ flushOp s = writeChars u.esc.replay u.parserIdle := by
  cases hi : s.inEscape with
  | false => exact .inl ⟨flushOp_of_idle hi, fun _ => rfl⟩
  | true =>
    have frame := pendingNewline_frame s
    have cleared := pendingNewline_newlinePending s
    cases hrun : pendingNewline s <;> rw [hrun] at frame cleared
    case done u =>
      refine .inr ⟨u, rfl, frame, cleared, ?_⟩
      have pending : u.inEscape = true := frame.inEscape.trans hi
      rw [flushOp, hrun, Run.andThen_done, if_pos pending, escReplay]
    case busError u =>
      exact .inl ⟨by rw [flushOp, hrun, Run.andThen_busError],
        fun hn => by simp [pendingNewline_of_none hn] at hrun⟩
    case hung u =>
      exact .inl ⟨by rw [flushOp, hrun, Run.andThen_hung],
        fun hn => by simp [pendingNewline_of_none hn] at hrun⟩

@[simp] theorem Run.returned_inEscape (r : Run) : r.returned.inEscape = r.state.inEscape := by
  cases r <;> rfl
@[simp] theorem Run.returned_esc (r : Run) : r.returned.esc = r.state.esc := by cases r <;> rfl

/-- `flush` leaves no newline pending, however it ends. -/
theorem flushOp_newlinePending (s : State) : (flushOp s).state.newlinePending = false := by
  rcases flushOp_cases s with ⟨h, -⟩ | ⟨u, -, -, hu, h⟩ <;> rw [h]
  · exact pendingNewline_newlinePending s
  · exact (writeChars_frame _ u.parserIdle).newlinePending.trans hu

/-- `flush` leaves the parser as it was, which is idle if no newline was pending, or resets it. -/
theorem flushOp_parser (s : State) :
    ((flushOp s).state.inEscape = s.inEscape ∧ (flushOp s).state.esc = s.esc
      ∧ (s.newlinePending = false → s.inEscape = false))
    ∨ ((flushOp s).state.inEscape = false ∧ (flushOp s).state.esc = escFresh s.cfg.maxParams) := by
  rcases flushOp_cases s with ⟨h, idle⟩ | ⟨u, -, hu, -, h⟩ <;> rw [h]
  · have frame : LineFrame s (pendingNewline s).state := pendingNewline_frame s
    rw [frame]
    exact .inl ⟨rfl, rfl, idle⟩
  · have frame : PositionFrame u.parserIdle (writeChars u.esc.replay u.parserIdle).state :=
      writeChars_frame _ _
    have cfg : u.cfg = s.cfg := hu.byte.controlsKept.cfg
    rw [frame, ← cfg]
    exact .inr ⟨rfl, rfl⟩

/-- Settles O44: what may change is what one byte of a `write` may change, with the pending newline and the
parser as above; the position is that of `newLine`. -/
theorem flushFrame : Obligations.FlushFrame := by
  intro s t next
  obtain rfl := eq_returned_of_exec next rfl rfl
  refine ⟨?frame, ?parser, fun hn => ?idle, fun hn idle => ?position⟩
  case frame =>
    have frame : ByteFrame s (flushOp s).state := flushOp_byteFrame s
    rw [Run.returned_eq, frame, flushOp_newlinePending]
  case parser =>
    rw [Run.returned_inEscape, Run.returned_esc]
    exact (flushOp_parser s).imp_left fun ⟨hi, he, _⟩ => ⟨hi, he⟩
  case idle =>
    rw [Run.returned_inEscape]
    rcases flushOp_parser s with ⟨hi, -, idle⟩ | ⟨hi, -⟩
    · exact hi.trans (idle hn)
    · exact hi
  case position =>
    rw [Run.returned_row, Run.returned_col, flushOp_of_idle idle, pendingNewline_of_pending hn]
    exact newLine_position _

end Sys2Proof.Machine
end

section
/-! A step inside a `write` (spec/10_state.md R40, spec/43_dispatcher.md R210): it runs the byte's instruction,
and the steps together are the byte loop, so that a step for each byte is of no consequence (log 9). -/

namespace Sys2Proof.Machine

open Sys2Proof

variable {s u : State} {w : WriteLoop} {b : Byte} {n : Nat}

/-! ### One step -/

/-- With no newline pending the step runs the byte's instruction and then moves the index on. -/
theorem stepByte_of_no_newline (hn : s.newlinePending = false) (b : Byte) :
    stepByte b s = thenState afterByte (runWords .stream [b.toNat] s) := by
  rw [stepByte, pendingNewline_of_none hn]

theorem State.advanceIndex_of_running (running : u.running = some w) :
    u.advanceIndex = { u with running := some { w with index := w.index + 1 } } := by
  rw [State.advanceIndex, running, Option.map_some]

/-- Settles O10: the step is `stepByte`, whose instruction answers `t`; what it does to `t` is `afterByte`. -/
theorem stepRunsTheDecodedByte : Obligations.StepRunsTheDecodedByte := by
  intro s t w b i notHung running left hn decoded next
  have fetched : fetch s = .byte b := by simp [fetch, notHung, running, left]
  have stepped : step s = .next (afterByte t) := by
    rw [step, fetched]
    exact (stepByte_of_no_newline hn b).trans
      (by rw [runWords_of_decode_instr decoded, next, thenState])
  rw [stepped, afterByte]
  cases hv : t.running with
  | none => rfl
  | some v =>
    rw [State.advanceIndex_of_running hv]
    rfl

/-! ### The steps of a `write` -/

/-- A `write` is in progress, nothing hangs, and nothing else is asked for. -/
structure State.InLoop (s : State) (w : WriteLoop) : Prop where
  running : s.running = some w
  notHung : s.wire.hung = false
  neverHangs : s.neverHangs
  empty : s.inbox = []

theorem ByteFrame.inbox (k : ByteFrame s u) : u.inbox = s.inbox := by
  unfold ByteFrame at k; rw [k]

/-- A byte leaves the byte loop to the step. -/
theorem State.InLoop.byte (h : s.InLoop w) : (writeByte b s).state.InLoop w where
  running := (writeByte_frame b s).running.trans h.running
  notHung := ((writeByte_sends b s).hung_eq h.neverHangs).trans h.notHung
  neverHangs := (writeByte_sends b s).neverHangs h.neverHangs
  empty := (writeByte_frame b s).inbox.trans h.empty

/-- With bytes left behind it, a byte that ran to its end moves the index on. -/
theorem State.InLoop.afterByte_more (h : s.InLoop w) (more : w.index + 1 < w.buf.length) :
    afterByte s = s.advanceIndex := by
  rw [afterByte, if_neg (by simp [h.notHung]), h.running]
  exact if_pos more

/-- With the last byte the `write` returns Ok. -/
theorem State.InLoop.afterByte_last (h : s.InLoop w) (last : w.buf.length ≤ w.index + 1) :
    afterByte s = s.returnOk := by
  rw [afterByte, if_neg (by simp [h.notHung]), h.running]
  exact if_neg (Nat.not_lt.2 last)

theorem State.InLoop.advanceIndex (h : s.InLoop w) :
    s.advanceIndex.InLoop { w with index := w.index + 1 } where
  running := by rw [State.advanceIndex_of_running h.running]
  notHung := h.notHung
  neverHangs := h.neverHangs
  empty := h.empty

/-- A step runs the next byte; after one that failed the steps left find nothing to do (R246). -/
theorem State.InLoop.steps_succ (h : s.InLoop w) (left : w.buf[w.index]? = some b) {f : State → Run}
    (rest : ∀ u, u.InLoop w → steps n (afterByte u) = .next (f u).returned) :
    steps (n + 1) s = .next ((writeByte b s).andThen f).returned := by
  have sends := writeByte_sends b s
  have loop : (writeByte b s).state.InLoop w := h.byte
  rw [Machine.steps_succ n (step_of_byte h.notHung h.running left)]
  cases hrun : writeByte b s <;> rw [hrun] at sends loop
  case done u => exact rest u loop
  case busError u => exact steps_idle n loop.notHung rfl loop.empty
  case hung u => exact (sends.not_hung h.neverHangs).elim

theorem writeLoop_succ (n : Nat) (running : s.running = some w) (left : w.buf[w.index]? = some b) :
    writeLoop (n + 1) s = (writeByte b s).andThen fun u => writeLoop n u.advanceIndex := by
  rw [writeLoop, show s.currentByte = some b by rw [State.currentByte, running, Option.bind_some, left]]

/-- A step for each of the bytes left returns what the byte loop does. -/
theorem State.InLoop.steps_eq_writeLoop (n : Nat) (h : s.InLoop w)
    (length : w.buf.length = w.index + 1 + n) :
    steps (n + 1) s = .next (writeLoop (n + 1) s).returned := by
  induction n generalizing s w with
  | zero =>
    have left : w.buf[w.index]? = some w.buf[w.index] := List.getElem?_eq_getElem _
    rw [writeLoop_succ _ h.running left]
    exact h.steps_succ left fun u hu => by rw [hu.afterByte_last (by omega)]; rfl
  | succ n ih =>
    have left : w.buf[w.index]? = some w.buf[w.index] := List.getElem?_eq_getElem _
    rw [writeLoop_succ _ h.running left]
    refine h.steps_succ left fun u hu => ?_
    rw [hu.afterByte_more (by omega)]
    exact ih hu.advanceIndex (by simp only; omega)

/-- Settles O13: with a byte left the steps are the byte loop; a `write` of no byte is the one step that ends
it. -/
theorem steppingAWriteEqualsItsByteLoop : Obligations.SteppingAWriteEqualsItsByteLoop := by
  refine ⟨fun s w running left notHung neverHangs empty => ?loop,
    fun s buf notHung neverHangs empty hd hn => ?write⟩
  case loop =>
    obtain ⟨n, length⟩ : ∃ n, w.buf.length = w.index + 1 + n := Nat.exists_eq_add_of_le left
    rw [show w.buf.length - w.index = n + 1 by omega]
    exact State.InLoop.steps_eq_writeLoop n ⟨running, notHung, neverHangs, empty⟩ length
  case write =>
    rw [exec_write, writeBuffer, writePrologue_of_clean hd hn, Run.andThen_done]
    cases buf with
    | nil => exact (steps_succ 0 (step_of_loopEnd (s := s.beginLoop []) notHung rfl rfl)).symm
    | cons b bs =>
      rw [List.length_cons, Nat.max_eq_right (Nat.le_add_left 1 _)]
      exact (State.InLoop.steps_eq_writeLoop (s := s.beginLoop (b :: bs)) bs.length
        ⟨rfl, notHung, neverHangs, empty⟩ (by simp; omega)).symm

end Sys2Proof.Machine
end

section
/-! Exceptions (spec/60_exceptions.md): every well-formed instruction has a next state (R242), an operation ends
with Ok or with the failed bus write (R241, R244, R247), and what a hung and an idle block do (R246, R248). -/

namespace Sys2Proof.Machine

open Sys2Proof

variable {s u : State} {i : Instr} {r : Run}

/-! ### Every well-formed instruction answers next -/

/-- Only a reserved selector and an operand outside its encoding leave an instruction without a run
(spec/30_encoding.md R87, R102). -/
theorem instrRun_isSome_of_wf (wf : i.wf s.cfg = true) (notReserved : ∀ k, i ≠ .hostReserved k) :
    (instrRun s i).isSome := by
  cases i with
  | print str => exact Option.isSome_map.trans wf
  | setGeometry op => exact Option.isSome_map.trans wf
  | setBacklight b => exact Option.isSome_map.trans wf
  | setCursorBlink b => exact Option.isSome_map.trans wf
  | setCursorDisplay b => exact Option.isSome_map.trans wf
  | hostReserved k => exact absurd rfl (notReserved k)
  | _ => rfl

/-- Settles O58: a well-formed instruction has a run, and whatever the bus answers the run leaves a state. -/
theorem wellFormedInstructionsAlwaysAnswerNext : Obligations.WellFormedInstructionsAlwaysAnswerNext := by
  intro s i wf notReserved
  obtain ⟨r, run⟩ := Option.isSome_iff_exists.1 (instrRun_isSome_of_wf wf notReserved)
  exact ⟨r.left i, exec_next.2 ⟨r, run, rfl⟩⟩

/-! ### Ok, or `BusError` after the failed write -/

/-- Whatever the instruction, how its run ended shows on the wire. -/
theorem instrRun_endsWith (h : instrRun s i = some r) :
    ∃ es rest, r.state.wire.trace = s.wire.trace ++ es ∧ r.EndsWith s es rest := by
  by_cases hl : i.port = .latch
  case pos =>
    cases i <;> simp only [Instr.port, reduceCtorEq] at hl
    cases h
    obtain ⟨es, rest, -, htrace, hend⟩ := emitAll_sent [.write (s.latch _ _ _)] s
    exact ⟨es, rest, htrace, hend⟩
  case neg =>
    obtain ⟨-, es, rest, htrace, -, hend⟩ := instrRun_transfers h hl
    exact ⟨es, rest, htrace, hend⟩

/-- A run that ended with `BusError` sent the failed bus write last (R241 (d)). -/
theorem getLast_trace_of_busError (h : instrRun s i = some (.busError u)) :
    ∃ b, u.wire.trace.getLast? = some (.write b) := by
  obtain ⟨es, _, htrace, ⟨b, last⟩, -⟩ := instrRun_endsWith h
  refine ⟨b, ?_⟩
  rw [show u.wire.trace = s.wire.trace ++ es from htrace, List.getLast?_append, last, Option.some_or]

/-- Where nothing hangs, no run does (R248). -/
theorem instrRun_ne_hung (neverHangs : s.neverHangs) : instrRun s i ≠ some (.hung u) := by
  intro h
  obtain ⟨_, _, -, hangs, -⟩ := instrRun_endsWith h
  exact hangs neverHangs

theorem ByteFrame.result (k : ByteFrame s u) : u.result = s.result := by
  unfold ByteFrame at k; rw [k]

/-- Settles O59, by the ways a run ends: with `BusError` the failed bus write is the last event; a part that ran
to its end or hung has written neither the byte loop nor the result code. -/
theorem operationsReturnOkOrBusError : Obligations.OperationsReturnOkOrBusError := by
  refine ⟨fun s t i host neverHangs next => ?operation, fun s t i part next => ?part⟩
  case operation =>
    obtain ⟨r, run, rfl⟩ := exec_next.1 next
    rw [Run.left, if_pos host]
    cases r with
    | done u => exact ⟨rfl, .inl rfl⟩
    | busError u => exact ⟨rfl, .inr ⟨rfl, getLast_trace_of_busError (u := u) run⟩⟩
    | hung u => exact absurd run (instrRun_ne_hung neverHangs)
  case part =>
    obtain ⟨r, run, rfl⟩ := exec_next.1 next
    have frame := instrRun_part_frame run part
    rw [Run.left, if_neg part]
    cases r with
    | done u => exact .inl ⟨frame.running, frame.result⟩
    | busError u => exact .inr ⟨rfl, rfl, getLast_trace_of_busError (u := u) run⟩
    | hung u => exact .inl ⟨frame.running, frame.result⟩

/-! ### A hung block and an idle one -/

/-- Settles O11: a hung block fetches nothing, and with no `write` and no request there is nothing to fetch. -/
theorem hungBlockStopsAndIdleBlockWaits : Obligations.HungBlockStopsAndIdleBlockWaits :=
  ⟨fun _ => step_of_hung, fun _ => step_of_idle⟩

end Sys2Proof.Machine
end

section
/-! Reset (spec/70_reset_and_hazards.md R270), and the bus writes and least durations of the operations (R285,
R286): what each transfer costs, and the sums over the transfers each operation sends. -/

namespace Sys2Proof.Machine

open Sys2Proof

variable {s t : State} {i : Instr}

/-! ### Reset -/

/-- Settles O1: the fields are those `State.reset` and `escFresh` write out. -/
theorem resetPutsEveryFieldAtItsResetValue : Obligations.ResetPutsEveryFieldAtItsResetValue :=
  ⟨rfl, rfl, rfl, rfl, rfl, rfl, rfl, rfl, rfl, rfl, rfl, rfl, rfl, rfl, rfl, rfl, rfl⟩

/-! ### What a transfer costs -/

/-- The bus writes of a transfer: three for each nibble (R121), one for a control byte (R91). -/
def Transfer.writes : Transfer → Nat
  | .control _ => 1
  | .fset8Bit _ | .fset4Bit => 3
  | .clear | .home | .entryInc | .displayCtrl _ _ | .fset4Bit2Line | .setDdram _ | .data _ => 6

/-- The least time of a transfer in nanoseconds: 540 for each nibble (R121), then the wait of its code
(R125). -/
def Transfer.time : Transfer → Nat
  | .control _ => 0
  | .fset8Bit w => 540 + bootWait w
  | .fset4Bit => 540 + Config.tInstr
  | .clear | .home => 1080 + Config.tClear
  | .entryInc | .displayCtrl _ _ | .fset4Bit2Line | .setDdram _ => 1080 + Config.tInstr
  | .data _ => 1080 + Config.tData

theorem Transfer.busWrites_events (m : LatchMap) (bl : Bool) (x : Transfer) :
    busWrites (x.events m bl) = x.writes := by
  cases x with
  | fset8Bit w => cases w <;> exact busWrites_oneNibble ..
  | fset4Bit => exact busWrites_oneNibble ..
  | control b => rfl
  | _ => exact busWrites_twoNibbles ..

theorem Transfer.minDuration_events (m : LatchMap) (bl : Bool) (x : Transfer) :
    minDuration (x.events m bl) = x.time := by
  cases x with
  | fset8Bit w => cases w <;> exact minDuration_oneNibble ..
  | fset4Bit => exact minDuration_oneNibble ..
  | control b => rfl
  | _ => exact minDuration_twoNibbles ..

theorem busWrites_transferEvents (m : LatchMap) (bl : Bool) (ts : List Transfer) :
    busWrites (transferEvents m bl ts) = (ts.map Transfer.writes).sum := by
  induction ts with
  | nil => rfl
  | cons x ts ih =>
    rw [transferEvents_cons, busWrites_append, Transfer.busWrites_events, ih, List.map_cons, List.sum_cons]

theorem minDuration_transferEvents (m : LatchMap) (bl : Bool) (ts : List Transfer) :
    minDuration (transferEvents m bl ts) = (ts.map Transfer.time).sum := by
  induction ts with
  | nil => rfl
  | cons x ts ih =>
    rw [transferEvents_cons, minDuration_append, Transfer.minDuration_events, ih, List.map_cons,
      List.sum_cons]

/-! ### What an operation costs -/

/-- An instruction that sends transfers takes the sum of their costs. -/
theorem takes_of_transfers (ts : List Transfer) (next : exec i s = .next t)
    (trace : t.wire.trace = s.wire.trace ++ transferEvents s.cfg.latchMap s.backlight ts) :
    Takes i s (ts.map Transfer.writes).sum (ts.map Transfer.time).sum :=
  ⟨t, _, next, trace, busWrites_transferEvents .., minDuration_transferEvents ..⟩

/-- A move to a cell sends the one set-address (R153). -/
theorem takes_move {r c : Nat} (run : instrRun s i = some (setAddr r c (s.moveTo r c)))
    (part : i.port ≠ .host) (ready : s.busReady 6) : Takes i s 6 38080 :=
  takes_of_transfers [cellTransfer s.geometry r c] (exec_move_done run part ready) rfl

/-- CR, TAB and CUP each move to a cell (R161, R162, R164). -/
theorem takes_position (ready : s.busReady 6) :
    Takes .cr s 6 38080 ∧ Takes .tab s 6 38080 ∧ ∀ r c, Takes (.cup r c) s 6 38080 :=
  ⟨takes_move rfl nofun ready, takes_move (instrRun_tab rfl) nofun ready,
    fun _ _ => takes_move (instrRun_cup rfl) nofun ready⟩

/-- CLEAR and HOME are one transfer each (R165, R188). -/
theorem takes_clear_home (ready : s.busReady 6) : Takes .clear s 6 1641080 ∧ Takes .home s 6 1641080 :=
  have ⟨clear, home⟩ := clearAndHomeResetThePosition.1 s ready
  ⟨takes_of_transfers [.clear] clear rfl, takes_of_transfers [.home] home rfl⟩

/-- The other codes and a data byte are one transfer each (R122, R123). -/
theorem takes_codes_data (ready : s.busReady 6) :
    Takes .entryInc s 6 38080 ∧ Takes .fset4Bit2Line s 6 38080
    ∧ (∀ c b, Takes (.displayCtrl c b) s 6 38080) ∧ (∀ a, Takes (.setDdram a) s 6 38080)
    ∧ ∀ v, Takes (.data v) s 6 42080 :=
  have ⟨entryInc, fset4Bit2Line, displayCtrl, setDdram, data⟩ :=
    transferInstructionsSendTheirNibbles.1 s ready
  ⟨takes_of_transfers [.entryInc] entryInc rfl, takes_of_transfers [.fset4Bit2Line] fset4Bit2Line rfl,
    fun c b => takes_of_transfers [.displayCtrl s.cursorVisible s.cursorBlink] (displayCtrl c b) rfl,
    fun a => takes_of_transfers [.setDdram a] (setDdram a) rfl,
    fun v => takes_of_transfers [.data v] (data v) rfl⟩

/-- Either cursor operation sends the display-control code (R223, R224). -/
theorem takes_cursorFlags (b : Bool) (ready : s.busReady 6) :
    Takes (.setCursorBlink (if b then 1 else 0)) s 6 38080
    ∧ Takes (.setCursorDisplay (if b then 1 else 0)) s 6 38080 :=
  have ⟨blink, display⟩ := cursorFlagsResult s b ready
  ⟨takes_of_transfers [.displayCtrl s.cursorVisible b] blink rfl,
    takes_of_transfers [.displayCtrl b s.cursorBlink] display rfl⟩

/-- An immediate LF sends two set-addresses and a space for each column (R163). -/
theorem takes_lf_hidden (ready : s.busReady (12 + 6 * s.geometry.cols)) (visible : s.cursorVisible = false)
    (blink : s.cursorBlink = false) :
    Takes .lf s (12 + 6 * s.geometry.cols) (76160 + 42080 * s.geometry.cols) :=
  ⟨_, _, lineFeedResult.2.1 s visible blink ready, rfl, busWrites_newLineTransfers ..,
    minDuration_newLineTransfers ..⟩

/-- Settles O60: each operation takes the sum of the costs of the transfers it sends. -/
theorem transferDurations : Obligations.TransferDurations := by
  refine fun s => ⟨fun _ _ => ⟨rfl, rfl⟩, fun ready b => ?setBacklight, fun ready => ?oneTransfer,
    fun ready => ⟨?ed2, fun edge ch => ?charWraps⟩, takes_lf_hidden, fun ready => ?initializeDisplay⟩
  case setBacklight => exact takes_of_transfers [.control b] (setBacklightResult s b ready) rfl
  case oneTransfer =>
    obtain ⟨clear, home⟩ := takes_clear_home ready
    obtain ⟨entryInc, fset4Bit2Line, displayCtrl, setDdram, data⟩ := takes_codes_data ready
    obtain ⟨cr, tab, cup⟩ := takes_position ready
    refine ⟨clear, home, entryInc, fset4Bit2Line, displayCtrl, setDdram, data, cr, tab, cup,
      fun b => takes_cursorFlags b ready, fun op g resolved => ?setGeometry, fun fits ch => ?charFits⟩
    case setGeometry => exact takes_of_transfers [.clear] (setGeometryResult s op g resolved ready) rfl
    case charFits => exact takes_of_transfers [.data ch] ((charResult s ch).1 ready fits) rfl
  case ed2 =>
    exact takes_of_transfers [.clear, .home] (clearAndHomeResetThePosition.2.1 s ready) rfl
  case charWraps =>
    simpa [cellTransfer, Transfer.writes, Transfer.time, Config.tData, Config.tInstr] using
      takes_of_transfers [.data ch, cellTransfer s.geometry s.nextRow 0]
        ((charResult s ch).2.1 ready edge) rfl
  case initializeDisplay =>
    exact takes_of_transfers initTransfers (initializeDisplayResult s ready) rfl

end Sys2Proof.Machine
end
